-- ==== Sys2Proof/Word.lean ====
section
/-! DEFINITION. The words of HUFFENC: 32-bit registers, bytes (symbols), arena indices. -/

namespace Sys2Proof

/-- A host register, a count, a frequency: `XLEN = 32` bits (00_scope.md R8). -/
abbrev Word := BitVec 32

/-- A byte of a buffer, a Symbol (00_scope.md R8: "a single byte value, domain 0-255"). -/
abbrev Byte := BitVec 8

/-- An index into the node arena, 0..510 (30_encoding.md R101). -/
abbrev Idx := Fin 511

/-- The place of a symbol in the 256-entry tables `CNT` and `CODE` (10_state.md R40, R45). -/
def symIndex (b : Byte) : Fin 256 := ⟨b.toNat, b.isLt⟩

end Sys2Proof
end

