-- ==== Sys2Proof/Config.lean ====
section
/-! DEFINITION. What one instance of HUFFENC fixes (00_scope.md R8), and the free values: constants with no body, so that no
proof can see them (93_implementation_defined.md U1, logs 5 and 6). -/

namespace Sys2Proof

/-- The parameters of an instance, each held less 1, so that an illegal instance cannot be written down:
`1 ≤ IN_CAP ≤ 2^24` and `1 ≤ OUT_CAP` (00_scope.md R8; U15, U18; DESIGN CHOICE, safe, log 4). -/
structure Params where
  inCapLess1 : Fin 16777216
  outCapLess1 : Nat
  deriving DecidableEq, Repr

/-- `IN_CAP`: bytes of `INBUF`, the largest legal `IN_LEN`. -/
def Params.inCap (p : Params) : Nat := p.inCapLess1.val + 1

/-- `OUT_CAP`: bytes of `OUTBUF`. -/
def Params.outCap (p : Params) : Nat := p.outCapLess1 + 1

namespace Config

/-- The default instance: `IN_CAP = OUT_CAP = 65536` (00_scope.md R8). -/
def defaultParams : Params := { inCapLess1 := 65535, outCapLess1 := 65535 }

/-- `DEGEN_BIT`, the one code digit given to a lone symbol: 0 (00_scope.md R8, 44_code_table_builder.md R197). -/
def degenBit : Bool := false

/-- `MAX_CODE_LEN`, in digits (00_scope.md R8). -/
def maxCodeLen : Nat := 255

/-- `MAX_NODES`, which bounds the iterations of the code walk (00_scope.md R8, 44_code_table_builder.md R203). -/
def maxNodes : Nat := 511

/-- `unspecified_32`, draw number `n`: the `rdata` of a refused read (93_implementation_defined.md U2; log 5). -/
opaque unspecified32 : Nat → Word

/-- `unspecified_8`, draw number `n`: `rdata[7:0]` of an `OUTRD` at or above `OUT_LEN` (U3; log 5). -/
opaque unspecified8 : Nat → Byte

/-- `unspecified_9`, draw number `n`: `PQ_RES` after a none result (U12; log 5). -/
opaque unspecified9 : Nat → BitVec 9

/-- What cell `a` of `INBUF` holds when no `INWR` has reached it since reset number `e`: one value per cell, the same for
every read (U1, U5; 70_reset_and_hazards.md R268; log 6). -/
opaque inbufCell : Nat → Nat → Byte

/-- What cell `a` of `OUTBUF` holds when nothing has been stored there since reset number `e` (U4; log 6). -/
opaque outbufCell : Nat → Nat → Byte

end Config

end Sys2Proof
end

