-- ==== Sys2Proof/Machine/State.lean ====
section
/-! DEFINITION. The state of HUFFENC as plain data: every register, buffer and table of 10_state.md, the events still to come,
the reset state, and the reasons a step can stop. -/

namespace Sys2Proof.Machine

/-- Why the machine stops with a fault. Each is raised only in a state no run reaches, or by a drive of an internal port that
the spec rules out; all are safe (the model stops where it could not say what the hardware does; logs 10 to 12). -/
inductive Fault where
  /-- `BUSY = 1` with `PHASE = 0`: raised by the core's step; 93_implementation_defined.md U10 "if reached, `stuck`". Safe. -/
  | busyIdle
  /-- `PQ_OP = 0b11`: raised by the queue port; "never driven" (30_encoding.md R99, U10). Safe. -/
  | reservedQueueOp
  /-- `PQ_ARG` is no arena index 0..510: raised by `PQ_INSERT` (30_encoding.md R101). Safe. -/
  | noSuchNode
  /-- `P_CODE` with `ROOT_VALID = 0`: `ROOT` is "meaningful only when `ROOT_VALID` (1 bit) is 1" (10_state.md R28). Safe. -/
  | rootInvalid
  /-- The walk of `P_CODE` leaves its bounds, 256 stack entries, 255 digits or 511 iterations: the arena holds no tree
  (44_code_table_builder.md R201, R203). Safe. -/
  | walkOverrun
  /-- `P_PACK` looks up a symbol with `CVALID = 0`: "must treat a lookup with `CVALID = 0` as a fault" (45_bit_packer.md R219,
  U14). Safe. -/
  | codeMissing
  /-- A 32-bit sum leaves 32 bits: raised by `P_TREE` and `P_PACK`; "wrap-around is never reached and is therefore not
  defined" (00_scope.md R9, U15). Safe. -/
  | wrapAround
  /-- `P_TREE` finds an arena or a queue full or empty that its bounds say is not (43_tree_builder.md R183, R189): raised in no
  state at all. Safe. -/
  | treeBounds
  deriving DecidableEq, Repr

/-- Why the machine gives an instruction no meaning. -/
inductive Refusal where
  /-- Raised by an arm of `exec` that has no meaning yet (none in this model). Safe. -/
  | notModelled (mnemonic : String)
  /-- `PQ_INSERT` with `HSIZE = 256`, raised by a unit-level drive of the queue only: "must refuse the operation rather than
  write position 256" (42_priority_queue.md R169, U13). Safe. -/
  | heapFull
  deriving DecidableEq, Repr

/-- The values `PHASE` ever holds (10_state.md R27, 30_encoding.md R97). Codes 5 to 7 cannot be written down (U10). -/
inductive Phase where
  | idle
  | freq
  | tree
  | code
  | pack
  deriving DecidableEq, Repr

/-- The condition codes ever produced (30_encoding.md R98). Codes 5 to 15 cannot be written down (U10). -/
inductive Cond where
  | none
  | emptyInput
  | degenerateAlphabet
  | badLength
  | outOverflow
  deriving DecidableEq, Repr

/-- A code: its binary digits, digit 0 first (00_scope.md R17). -/
abbrev Code := List Bool

/-- DOC0's `FrequencyTable`: `CNT`, `ORDER` and `K` (10_state.md R28, R40, R41). -/
structure FreqTable where
  cnt : Vector Word 256
  order : Vector Byte 256
  k : Fin 257
  deriving DecidableEq, Repr

/-- An entry of `NODE`, DOC0's tagged variant: a leaf (`SYM`, `FREQ`) or an internal node (`FREQ`, `LEFT`, `RIGHT`)
(10_state.md R42, 30_encoding.md R100). -/
inductive Node where
  | leaf (sym : Byte) (freq : Word)
  | internal (freq : Word) (left right : Idx)
  deriving DecidableEq, Repr

/-- The node arena: `NODE` and `NN` (10_state.md R28, R42). -/
structure Arena where
  node : Vector Node 511
  nn : Fin 512
  deriving DecidableEq, Repr

/-- The PriorityQueue: `HEAP`, `HSIZE`, `PQ_RES` and `PQ_NONE` (10_state.md R28, R31, R44). -/
structure PQueue where
  heap : Vector Idx 256
  hsize : Fin 257
  res : BitVec 9
  isNone : Bool
  deriving DecidableEq, Repr

/-- An entry of `STACK`: a node and the code accumulated on the way to it (10_state.md R47, 30_encoding.md R103). -/
structure StackEntry where
  snode : Idx
  digits : Code
  deriving DecidableEq, Repr

/-- The CodeTableBuilder: `CODE` (an entry is `none` when `CVALID = 0`; `CLEN` is the number of digits), `STACK` and `SP`
(10_state.md R30, R45, R47). -/
structure Walk where
  code : Vector (Option Code) 256
  stack : Vector StackEntry 256
  sp : Fin 257
  deriving DecidableEq, Repr

/-- A buffer's defined bytes (10_state.md R35), as address and byte pairs with strictly rising addresses. An unlisted address is
unspecified: no byte at all, so that no entry can equal it (log 6). -/
abbrev Memory := List Host.Cell

/-- The events that change the state (70_reset_and_hazards.md R272), in the notation of 30_encoding.md R111 and R112. -/
inductive Event where
  /-- A host transaction `(hdr, addr, wdata)` (R90). -/
  | txn (hdr : BitVec 3) (addr wdata : Word)
  /-- A command word on its own line, the pseudo-instruction that expands to `REGWR CMD, word` (R112). -/
  | cmd (word : Word)
  /-- A unit-level drive of the internal port `PQ_OP`, `PQ_ARG` (R99; log 12). -/
  | pq (op : BitVec 2) (arg : BitVec 9)
  /-- The line `CORE`: the agent core takes its step, if it has one (R111). -/
  | core
  /-- The assertion of `rst` (R260). -/
  | rst
  deriving DecidableEq, Repr

/-- Everything HUFFENC holds, and, last, the model's own fields. -/
structure State where
  /-- `IN_CAP` and `OUT_CAP` of this instance; no step changes them (00_scope.md R8; log 4). -/
  params : Params
  /-- `STATUS[0]` (10_state.md R22). -/
  busy : Bool
  /-- `STATUS[1]` (R22). -/
  done : Bool
  /-- `STATUS[2]` (R22). -/
  fail : Bool
  /-- `STATUS[6:4]` (R22, R27). -/
  phase : Phase
  /-- `STATUS[11:8]` (R22, 30_encoding.md R98). -/
  cond : Cond
  /-- `STATUS[12]`, sticky (R22). -/
  herrBusy : Bool
  /-- `STATUS[13]`, sticky (R22). -/
  herrCmd : Bool
  /-- `STATUS[14]`, sticky (R22). -/
  herrAcc : Bool
  /-- `IN_LEN` (R24). -/
  inLen : Word
  /-- `OUT_LEN` (R25). -/
  outLen : Word
  /-- `INBUF` (R33, R35). -/
  inbuf : Memory
  /-- `OUTBUF` (R34, R35). -/
  outbuf : Memory
  /-- `CNT`, `ORDER`, `K` (R28, R40, R41). -/
  freq : FreqTable
  /-- `NODE`, `NN` (R28, R42). -/
  arena : Arena
  /-- `ROOT` (R28). -/
  root : Idx
  /-- `ROOT_VALID` (R28). -/
  rootValid : Bool
  /-- `HEAP`, `HSIZE`, `PQ_RES`, `PQ_NONE` (R28, R31, R44). -/
  pq : PQueue
  /-- `CODE`, `STACK`, `SP` (R30, R45, R47). -/
  walk : Walk
  /-- `DEGEN` (R30). -/
  degen : Bool
  /-- `T`, the number of stream bits so far (R29). -/
  bits : Word
  /-- `ACC`, the output byte under construction (R29). -/
  acc : Byte
  /-- `IDX`, the index of the next input byte (R29). -/
  idx : Word
  /-- The model's own: `rdata` of the last transaction, absent when that was a write (30_encoding.md R90; log 14). -/
  rdata : Option Word
  /-- The model's own: the events still to come, the next first (70_reset_and_hazards.md R272; log 1). -/
  input : List Event
  /-- The model's own: how many unspecified values have been drawn (U1; log 5). -/
  draws : Nat
  /-- The model's own: how many resets have happened (log 6). -/
  epoch : Nat
  deriving DecidableEq, Repr

/-- The tables' values at reset. The spec gives none (10_state.md R51); these are named by log 7 (DESIGN CHOICE, unsafe). -/
def FreqTable.reset : FreqTable :=
  { cnt := Vector.replicate 256 0, order := Vector.replicate 256 0, k := 0 }

/-- As `FreqTable.reset` (log 7). -/
def Arena.reset : Arena := { node := Vector.replicate 511 (.leaf 0 0), nn := 0 }

/-- As `FreqTable.reset` (log 7). -/
def PQueue.reset : PQueue := { heap := Vector.replicate 256 0, hsize := 0, res := 0, isNone := false }

/-- As `FreqTable.reset` (log 7). -/
def Walk.reset : Walk :=
  { code := Vector.replicate 256 none, stack := Vector.replicate 256 { snode := 0, digits := [] }, sp := 0 }

/-- The machine right after reset: 10_state.md R50 for the registers, R35 and R51 for the buffers (every byte unspecified);
the internal registers hold the values named by log 7 (DESIGN CHOICE, unsafe). -/
def State.reset : State :=
  { params := Config.defaultParams
    busy := false, done := false, fail := false, phase := .idle, cond := .none
    herrBusy := false, herrCmd := false, herrAcc := false
    inLen := 0, outLen := 0
    inbuf := [], outbuf := []
    freq := .reset, arena := .reset, root := 0, rootValid := false, pq := .reset, walk := .reset, degen := false
    bits := 0, acc := 0, idx := 0
    rdata := none, input := [], draws := 0, epoch := 0 }

end Sys2Proof.Machine
end

