-- ==== Sys2Proof/Machine/Flags.lean ====
section
/-! DEFINITION. The codes of `PHASE` and `COND` and the assembly of `STATUS` (10_state.md R22, R32). HUFFENC has no arithmetic
flags. -/

namespace Sys2Proof.Machine

/-- The 3-bit codes of `PHASE` (30_encoding.md R97). -/
def Phase.bits : Phase → BitVec 3
  | .idle => 0
  | .freq => 1
  | .tree => 2
  | .code => 3
  | .pack => 4

/-- The 4-bit codes of `COND` (30_encoding.md R98). -/
def Cond.bits : Cond → BitVec 4
  | .none => 0
  | .emptyInput => 1
  | .degenerateAlphabet => 2
  | .badLength => 3
  | .outOverflow => 4

/-- `STATUS`, assembled on every read, most significant field first (10_state.md R22, 40_host_interface.md R121). -/
def State.status (s : State) : Word :=
  0#17 ++ BitVec.ofBool s.herrAcc ++ BitVec.ofBool s.herrCmd ++ BitVec.ofBool s.herrBusy ++ s.cond.bits ++ 0#1 ++
    s.phase.bits ++ 0#1 ++ BitVec.ofBool s.fail ++ BitVec.ofBool s.done ++ BitVec.ofBool s.busy

end Sys2Proof.Machine
end

