-- ==== Sys2Proof/Machine/Operands.lean ====
section
/-! DEFINITION. Every operand form of HUFFENC (30_encoding.md R108): there are no immediates, no scaling and no sign
extension. -/

namespace Sys2Proof.Machine

/-- Forms (a), (b): a register index or byte index is `addr` used whole and unsigned (R92, R108). -/
abbrev wholeAddr (addr : Word) : Nat := addr.toNat

/-- Form (c): the input byte `wdata[7:0]`; `wdata[31:8]` is ignored (R92, 20_memory.md R66). -/
def lowByte (wdata : Word) : Byte := wdata.setWidth 8

/-- Form (d): an output byte zero-extended into `rdata` (R92, 20_memory.md R66). -/
def zextByte (b : Byte) : Word := b.setWidth 32

/-- Form (f): the place of stream bit `i` inside its output byte, bit `7 - (i mod 8)` (R104, 20_memory.md R64), as a mask. -/
def digitMask (i : Nat) : Byte := 1#8 <<< (7 - i % 8)

/-- `PQ_ARG` as an arena index, where it is one (R99, R101). -/
def argNode (arg : BitVec 9) : Option Idx := if h : arg.toNat < 511 then some ⟨arg.toNat, h⟩ else none

/-- An arena index as the 9 bits of `PQ_RES` (R99, R101). -/
def nodeBits (i : Idx) : BitVec 9 := BitVec.ofNat 9 i.val

/-- `hdr[0]` is `we`: a transaction with `we = 0` is a read (R90). -/
def isRead (hdr : BitVec 3) : Bool := !hdr.getLsbD 0

/-- `ceil(T / 8) = (T + 7) div 8`, the number of bytes `T` bits need (00_scope.md R14, R107). -/
def bytesFor (t : Nat) : Nat := (t + 7) / 8

end Sys2Proof.Machine
end

