-- ==== Sys2Proof/Machine/Ops.lean ====
section
/-! DEFINITION. The named operations over the buffers and the registers: buffer cells, unspecified values, the stages every
transaction goes through, failure entry, completion, reset. -/

namespace Sys2Proof.Machine

/-! ### Buffers -/

/-- What an address nothing is listed at reads as: unspecified, which is no byte (10_state.md R35; log 6). -/
def Memory.unlisted : Option Byte := none

/-- The byte at address `a`, or what an unlisted address reads as. -/
def Memory.read : Memory → Nat → Option Byte
  | [], _ => Memory.unlisted
  | (b, v) :: m, a => if a = b then some v else Memory.read m a

/-- `MemWrite(S:a, 1, v)` (00_scope.md R16): the byte at `a` becomes defined. Addresses stay strictly rising. -/
def Memory.write : Memory → Nat → Byte → Memory
  | [], a, v => [(a, v)]
  | (b, w) :: m, a, v =>
    if a < b then (a, v) :: (b, w) :: m else if a = b then (a, v) :: m else (b, w) :: Memory.write m a v

/-- The canonical form: addresses strictly rising. No entry can equal what an unlisted address reads as, since that is no byte. -/
abbrev Memory.wf (m : Memory) : Prop := (m.map Prod.fst).Pairwise (· < ·)

/-- Every listed address is below `cap`, the size of the buffer (10_state.md R33, R34). -/
abbrev Memory.within (cap : Nat) (m : Memory) : Prop := ∀ c ∈ m, c.1 < cap

/-- `MemRead(INBUF:a, 1)`: a byte never written since reset holds one value nobody knows (70_reset_and_hazards.md R268; DESIGN
CHOICE, safe, log 6). -/
def State.inByte (s : State) (a : Nat) : Byte := (Memory.read s.inbuf a).getD (Config.inbufCell s.epoch a)

/-- `MemRead(OUTBUF:a, 1)`, with the same treatment of a cell nothing was stored in (log 6). -/
def State.outByte (s : State) (a : Nat) : Byte := (Memory.read s.outbuf a).getD (Config.outbufCell s.epoch a)

/-- The input as both passes read it: `INBUF[0], .., INBUF[IN_LEN-1]` in ascending address order (20_memory.md R62, R76). -/
def State.inputBytes (s : State) : List Byte := (List.range s.inLen.toNat).map s.inByte

/-! ### Unspecified values (93_implementation_defined.md U1; log 5) -/

/-- `rdata <- unspecified_32`, a fresh draw. -/
def State.answerUnspecified (s : State) : State :=
  { s with rdata := some (Config.unspecified32 s.draws), draws := s.draws + 1 }

/-- `rdata <- { 0x000000, unspecified_8 }`, a fresh draw (40_host_interface.md R124). -/
def State.answerUnspecifiedByte (s : State) : State :=
  { s with rdata := some (zextByte (Config.unspecified8 s.draws)), draws := s.draws + 1 }

/-- The transaction answers `v`. -/
def State.answer (v : Word) (s : State) : State := { s with rdata := some v }

/-- The transaction is a write: "for a write `rdata` is not produced" (30_encoding.md R90; log 14). -/
def State.noAnswer (s : State) : State := { s with rdata := none }

/-! ### The stages of every transaction (40_host_interface.md R120) -/

/-- Stage 1, the access check: it depends only on the transaction and the parameters. -/
def accessIllegal (p : Params) (hdr : BitVec 3) (addr : Word) : Bool :=
  hdr == 0b010 || hdr == 0b101 || hdr == 0b110 || hdr == 0b111
    || ((hdr == 0b000 || hdr == 0b001) && decide (4 ≤ wholeAddr addr))
    || (hdr == 0b001 && (addr == 1 || addr == 3))
    || (hdr == 0b011 && decide (p.inCap ≤ wholeAddr addr))
    || (hdr == 0b100 && decide (p.outCap ≤ wholeAddr addr))

/-- Stage 2, the busy check: any register write, any `INBUF` write, any `OUTBUF` read. -/
def refusedWhileBusy (hdr : BitVec 3) : Bool := hdr == 0b001 || hdr == 0b011 || hdr == 0b100

/-- What a refused transaction answers: a read returns `unspecified_32`, a write nothing. -/
def State.refusedAnswer (hdr : BitVec 3) (s : State) : State :=
  if isRead hdr then s.answerUnspecified else s.noAnswer

/-- Refused at stage 1: only `HERR_ACC` is set. -/
def State.refuseAccess (hdr : BitVec 3) (s : State) : State := { s.refusedAnswer hdr with herrAcc := true }

/-- Refused at stage 2: only `HERR_BUSY` is set. -/
def State.refuseBusy (hdr : BitVec 3) (s : State) : State := { s.refusedAnswer hdr with herrBusy := true }

/-- The three stages in order; `perform` is stage 3. -/
def State.transact (hdr : BitVec 3) (addr : Word) (perform : State → State) (s : State) : State :=
  if accessIllegal s.params hdr addr then s.refuseAccess hdr
  else if s.busy && refusedWhileBusy hdr then s.refuseBusy hdr
  else perform s

/-! ### Beginning and ending an invocation -/

/-- The result fields go: `START` and `CLEAR` both begin so (R128, R129). -/
def State.clearResult (s : State) : State :=
  { s with done := false, fail := false, cond := .none, outLen := 0 }

/-- The failures a phase can raise (60_exceptions.md R232). -/
inductive Failure where
  | emptyInput
  | outOverflow
  deriving DecidableEq, Repr

/-- The condition code a failure records (60_exceptions.md R226, R232). -/
def Failure.cond : Failure → Cond
  | .emptyInput => .emptyInput
  | .outOverflow => .outOverflow

/-- Failure entry (60_exceptions.md R232): nothing is saved and nothing else is changed. -/
def State.enterFailure (f : Failure) (s : State) : State :=
  { s with outLen := 0, cond := f.cond, fail := true, busy := false, phase := .idle }

/-- The completion step (40_host_interface.md R132). -/
def State.complete (s : State) : State :=
  { s with
    outLen := BitVec.ofNat 32 (bytesFor s.bits.toNat)
    cond := if s.degen then .degenerateAlphabet else .none
    done := true, busy := false, phase := .idle }

/-- The assertion of `rst` (70_reset_and_hazards.md R260, R262): the registers take the values of 10_state.md R50, the buffers
become unspecified (a new `epoch`, so new cells), the internal registers take the values of log 7 (log 8). The parameters, the
events still to come and the count of draws are no part of what `rst` resets. -/
def State.assertReset (s : State) : State :=
  { State.reset with params := s.params, input := s.input, draws := s.draws, epoch := s.epoch + 1 }

end Sys2Proof.Machine
end

