-- ==== Sys2Proof/Machine/BitPacker.lean ====
section
/-! DEFINITION. The BitPacker: the phase operation `P_PACK` (45_bit_packer.md). -/

namespace Sys2Proof.Machine

/-- What `P_PACK` works on: `T`, `ACC`, `IDX` and `OUTBUF`. -/
structure Packer where
  bits : Word
  acc : Byte
  idx : Word
  out : Memory
  deriving DecidableEq, Repr

/-- How `P_PACK` leaves its loops before their end. -/
inductive PackStop where
  /-- `raise OutOverflow`, with what was done so far (R216). -/
  | overflow (p : Packer)
  /-- A fault of the model. -/
  | stuck (f : Fault)
  deriving DecidableEq, Repr

/-- Store a finished byte at address `j`, or raise `OutOverflow` (R212, R214, R216). -/
def Packer.store (outCap j : Nat) (p : Packer) : Except PackStop Packer :=
  if outCap ≤ j then .error (.overflow p) else .ok { p with out := Memory.write p.out j p.acc, acc := 0 }

/-- `EMIT(d)` (R212). A bit count that leaves 32 bits is undefined (00_scope.md R9; log 10). -/
def Packer.emit (outCap : Nat) (d : Bool) (p : Packer) : Except PackStop Packer :=
  if p.bits.toNat + 1 < 2 ^ 32 then
    let p1 : Packer :=
      { p with acc := if d then p.acc ||| digitMask p.bits.toNat else p.acc, bits := p.bits + 1 }
    if (p.bits.toNat + 1) % 8 = 0 then p1.store outCap ((p.bits.toNat + 1) / 8 - 1) else .ok p1
  else .error (.stuck .wrapAround)

/-- The inner loop of R213: the digits of one code, the first first. -/
def Packer.emitCode (outCap : Nat) : Code → Packer → Except PackStop Packer
  | [], p => .ok p
  | d :: ds, p =>
    match p.emit outCap d with
    | .ok p' => Packer.emitCode outCap ds p'
    | .error e => .error e

/-- The main loop (R213). A lookup with `CVALID = 0` is a fault (R219). -/
def Packer.emitAll (outCap : Nat) (code : Vector (Option Code) 256) : List Byte → Packer → Except PackStop Packer
  | [], p => .ok p
  | b :: bs, p =>
    match code[(symIndex b).val] with
    | none => .error (.stuck .codeMissing)
    | some c =>
      match p.emitCode outCap c with
      | .ok p' => Packer.emitAll outCap code bs { p' with idx := p'.idx + 1 }
      | .error e => .error e

/-- The flush (R214). -/
def Packer.flush (outCap : Nat) (p : Packer) : Except PackStop Packer :=
  if p.bits.toNat % 8 ≠ 0 then p.store outCap (p.bits.toNat / 8) else .ok p

/-- Initialise, main loop, flush (R211, R213, R214). -/
def Packer.pack (outCap : Nat) (code : Vector (Option Code) 256) (input : List Byte) (out : Memory) :
    Except PackStop Packer :=
  match Packer.emitAll outCap code input { bits := 0, acc := 0, idx := 0, out := out } with
  | .ok p => p.flush outCap
  | .error e => .error e

/-- The state with what `P_PACK` wrote. -/
def State.withPacker (p : Packer) (s : State) : State :=
  { s with bits := p.bits, acc := p.acc, idx := p.idx, outbuf := p.out }

/-- `P_PACK` (R210 to R216), ending in completion (R215) or in `OutOverflow` (R216). -/
def execPPack (s : State) : Host.Outcome State Fault Refusal :=
  match Packer.pack s.params.outCap s.walk.code s.inputBytes s.outbuf with
  | .ok p => .next (s.withPacker p).complete
  | .error (.overflow p) => .next ((s.withPacker p).enterFailure .outOverflow)
  | .error (.stuck f) => .fault f

end Sys2Proof.Machine
end

