-- ==== Sys2Proof/Machine/CodeTableBuilder.lean ====
section
/-! DEFINITION. The CodeTableBuilder: the phase operation `P_CODE` (44_code_table_builder.md). -/

namespace Sys2Proof.Machine

/-- Initialisation (R196): every `CVALID` is 0, `SP` is 0. -/
def Walk.init (w : Walk) : Walk := { w with code := Vector.replicate 256 none, sp := 0 }

/-- `STACK[SP] <- entry ; SP <- SP + 1`. Entries past the stack or digits past `CLEN` leave the bounds of R200 and R201 (log 11). -/
def Walk.push (i : Idx) (c : Code) (w : Walk) : Except Fault Walk :=
  if h : w.sp.val < 256 then
    if c.length ≤ Config.maxCodeLen then
      .ok { w with stack := w.stack.set w.sp.val { snode := i, digits := c } h, sp := ⟨w.sp.val + 1, by omega⟩ }
    else .error .walkOverrun
  else .error .walkOverrun

/-- `CODE[SYM] <- { CVALID = 1, CLEN = len(c), CBITS = c }` (R197, R198). -/
def Walk.record (sym : Byte) (c : Code) (w : Walk) : Walk :=
  { w with code := w.code.set (symIndex sym).val (some c) }

/-- One iteration of the walk with `SP > 0` (R198): pop; a leaf is recorded; of an internal node the right child is pushed first, with
digit 1, then the left one, with digit 0. -/
def Walk.visit (node : Vector Node 511) (w : Walk) (h : 0 < w.sp.val) : Except Fault Walk :=
  let e := w.stack[w.sp.val - 1]
  let w1 : Walk := { w with sp := ⟨w.sp.val - 1, by omega⟩ }
  match node[e.snode.val] with
  | .leaf sym _ => .ok (w1.record sym e.digits)
  | .internal _ l r =>
    match w1.push r (e.digits ++ [true]) with
    | .ok w2 => w2.push l (e.digits ++ [false])
    | .error f => .error f

/-- The walk (R198): while `SP > 0`. A tree of the arena is walked in at most 511 iterations (R203; log 18). -/
def Walk.run (node : Vector Node 511) : Nat → Walk → Except Fault Walk
  | 0, w => if w.sp.val = 0 then .ok w else .error .walkOverrun
  | n + 1, w =>
    if h : 0 < w.sp.val then
      match w.visit node h with
      | .ok w' => Walk.run node n w'
      | .error f => .error f
    else .ok w

/-- The walk from an internal root: `STACK[0] <- { ROOT, "" } ; SP <- 1` first (R198). -/
def Walk.from (node : Vector Node 511) (root : Idx) (w : Walk) : Except Fault Walk :=
  match w.init.push root [] with
  | .ok w1 => Walk.run node Config.maxNodes w1
  | .error f => .error f

/-- `P_CODE` (R195 to R198): a lone leaf gets the one-digit code of R197 and sets `DEGEN`; any other tree is walked. `ROOT` means
something only when `ROOT_VALID = 1` (10_state.md R28; log 11). -/
def execPCode (s : State) : Host.Outcome State Fault Refusal :=
  if s.rootValid then
    match s.arena.node[s.root.val] with
    | .leaf sym _ =>
      .next { s with walk := s.walk.init.record sym [Config.degenBit], degen := true, phase := .pack }
    | .internal _ _ _ =>
      match Walk.from s.arena.node s.root s.walk with
      | .ok w => .next { s with walk := w, degen := false, phase := .pack }
      | .error f => .fault f
  else .fault .rootInvalid

end Sys2Proof.Machine
end

