-- ==== Sys2Proof/Syntax.lean ====
section
/-! DEFINITION. The sixteen operations of spec/opcode_table.json (00_scope.md R11) and the words that stand for them
on HUFFENC's four ports. -/

namespace Sys2Proof

/-- One constructor per row of spec/opcode_table.json. The `wdata` of a read is ignored (30_encoding.md R90), so the
reads do not carry it. -/
inductive Instr where
  /-- `REGRD`, header `0b000` (R121). -/
  | regrd (addr : Word)
  /-- `REGWR`, header `0b001` (R122). -/
  | regwr (addr wdata : Word)
  /-- `INRD`, header `0b010`, illegal (R125). -/
  | inrd (addr : Word)
  /-- `INWR`, header `0b011` (R123). -/
  | inwr (addr wdata : Word)
  /-- `OUTRD`, header `0b100` (R124). -/
  | outrd (addr : Word)
  /-- `OUTWR`, header `0b101`, illegal (R125). -/
  | outwr (addr wdata : Word)
  /-- `RSVD3`, header `0b11w`: the reserved space, read (`we = 0`) or write, illegal (R125). -/
  | rsvd3 (we : Bool) (addr wdata : Word)
  /-- `NOP`, command word 0 (R127). -/
  | nop
  /-- `START`, command word 1 (R128). -/
  | start
  /-- `CLEAR`, command word 2 (R129). -/
  | clear
  /-- `P_FREQ`, phase code 1 (R150). -/
  | pFreq
  /-- `P_TREE`, phase code 2 (R180). -/
  | pTree
  /-- `P_CODE`, phase code 3 (R195). -/
  | pCode
  /-- `P_PACK`, phase code 4 (R210). -/
  | pPack
  /-- `PQ_INSERT`, queue operation `0b01`, with the 9-bit port `PQ_ARG` (R99, R164). -/
  | pqInsert (arg : BitVec 9)
  /-- `PQ_EXTRACT`, queue operation `0b10` (R99, R165). -/
  | pqExtract
  deriving DecidableEq, Repr

/-- A word standing on one of the four ports. The formats share bit patterns, and the port tells them apart
(30_encoding.md R90, R94, R97, R99; log 2). -/
inductive Encoded where
  /-- Format `HTXN`: a host transaction `(hdr, addr, wdata)` (R90). -/
  | htxn (hdr : BitVec 3) (addr wdata : Word)
  /-- Format `CMD`: a command word (R94). -/
  | cmd (word : Word)
  /-- Format `PHASE`: the value of the register `PHASE` (R97). -/
  | phase (code : BitVec 3)
  /-- Format `PQOP`: the internal port `PQ_OP` with `PQ_ARG` (R99). -/
  | pqop (op : BitVec 2) (arg : BitVec 9)
  deriving DecidableEq, Repr

end Sys2Proof
end

