-- ==== Sys2Proof/WellFormed.lean ====
section
/-! DEFINITION. When an instruction is well formed. Every 32-bit `addr` and `wdata` is (an illegal one is refused by the
machine with a sticky flag, 30_encoding.md R110); the argument of `PQ_INSERT` must be an arena index. -/

namespace Sys2Proof

/-- `PQ_ARG` names an arena index 0..510 (30_encoding.md R99, R101). -/
def argIsNode (arg : BitVec 9) : Bool := decide (arg.toNat < 511)

/-- The check on an instruction's operands. -/
def Instr.wellFormed : Instr → Bool
  | .regrd _ => true
  | .regwr _ _ => true
  | .inrd _ => true
  | .inwr _ _ => true
  | .outrd _ => true
  | .outwr _ _ => true
  | .rsvd3 _ _ _ => true
  | .nop => true
  | .start => true
  | .clear => true
  | .pFreq => true
  | .pTree => true
  | .pCode => true
  | .pPack => true
  | .pqInsert arg => argIsNode arg
  | .pqExtract => true

end Sys2Proof
end

