-- ==== Sys2Proof/Decode.lean ====
section
/-! DEFINITION. The decoder, total on every word of every port and rejecting by name, and the encoder
(30_encoding.md R90 to R99). -/

namespace Sys2Proof

/-- Why a word is no instruction. -/
inductive DecodeError where
  /-- A command word other than 0, 1, 2 (R95). -/
  | reservedCommand (word : Word)
  /-- Phase code 0, `IDLE`: no operation (R97). -/
  | idlePhase
  /-- Phase codes 5 to 7, never held (R97). -/
  | reservedPhase
  /-- `PQ_OP = 0b00`, idle (R99). -/
  | idlePq
  /-- `PQ_OP = 0b11`, never driven (R99). -/
  | reservedPq
  /-- `PQ_INSERT` with an argument that is no arena index (R99, R101). -/
  | noSuchNode
  deriving DecidableEq, Repr

/-- The eight transaction headers (R91): every one is an instruction. -/
def decodeHeader (hdr : BitVec 3) (addr wdata : Word) : Instr :=
  if hdr = 0b000 then .regrd addr
  else if hdr = 0b001 then .regwr addr wdata
  else if hdr = 0b010 then .inrd addr
  else if hdr = 0b011 then .inwr addr wdata
  else if hdr = 0b100 then .outrd addr
  else if hdr = 0b101 then .outwr addr wdata
  else .rsvd3 (hdr.getLsbD 0) addr wdata

/-- Command words (R94, R95): the whole word is matched. -/
def decodeCommand (word : Word) : Except DecodeError Instr :=
  if word = 0 then .ok .nop
  else if word = 1 then .ok .start
  else if word = 2 then .ok .clear
  else .error (.reservedCommand word)

/-- Phase codes (R97). -/
def decodePhase (code : BitVec 3) : Except DecodeError Instr :=
  if code = 0 then .error .idlePhase
  else if code = 1 then .ok .pFreq
  else if code = 2 then .ok .pTree
  else if code = 3 then .ok .pCode
  else if code = 4 then .ok .pPack
  else .error .reservedPhase

/-- Queue operation codes (R99). -/
def decodeQueueOp (op : BitVec 2) (arg : BitVec 9) : Except DecodeError Instr :=
  if op = 0b00 then .error .idlePq
  else if op = 0b01 then (if argIsNode arg then .ok (.pqInsert arg) else .error .noSuchNode)
  else if op = 0b10 then .ok .pqExtract
  else .error .reservedPq

/-- The decoder: one function per port. -/
def decode : Encoded → Except DecodeError Instr
  | .htxn hdr addr wdata => .ok (decodeHeader hdr addr wdata)
  | .cmd word => decodeCommand word
  | .phase code => decodePhase code
  | .pqop op arg => decodeQueueOp op arg

/-- The encoder, from the same tables. The `wdata` of a read and the `PQ_ARG` of `PQ_EXTRACT` are ignored, and stand as 0. -/
def encode : Instr → Encoded
  | .regrd addr => .htxn 0b000 addr 0
  | .regwr addr wdata => .htxn 0b001 addr wdata
  | .inrd addr => .htxn 0b010 addr 0
  | .inwr addr wdata => .htxn 0b011 addr wdata
  | .outrd addr => .htxn 0b100 addr 0
  | .outwr addr wdata => .htxn 0b101 addr wdata
  | .rsvd3 we addr wdata => .htxn (if we then 0b111 else 0b110) addr wdata
  | .nop => .cmd 0
  | .start => .cmd 1
  | .clear => .cmd 2
  | .pFreq => .phase 1
  | .pTree => .phase 2
  | .pCode => .phase 3
  | .pPack => .phase 4
  | .pqInsert arg => .pqop 0b01 arg
  | .pqExtract => .pqop 0b10 0

/-- Which port a row of spec/opcode_table.json is read from, by the row's width in whole bytes (DESIGN CHOICE, log 2): the
spec gives no common instruction stream. 32 bits are a command word. At most 2 bits are a queue operation (with `PQ_ARG`
counting on above it). Anything else is a host transaction: the header in the first byte, then `addr`, then `wdata`, each in
four bytes, the least significant first. -/
def tableWord (nbits w : Nat) : Option Encoded :=
  if nbits = 32 then (if w < 2 ^ 32 then some (.cmd (BitVec.ofNat 32 w)) else none)
  else if nbits ≤ 2 then
    (if w < 2 ^ 11 then some (.pqop (BitVec.ofNat 2 w) (BitVec.ofNat 9 (w / 4))) else none)
  else if w < 2 ^ 72 ∧ w % 256 < 8 then
    some (.htxn (BitVec.ofNat 3 w) (BitVec.ofNat 32 (w / 2 ^ 8)) (BitVec.ofNat 32 (w / 2 ^ 40)))
  else none

/-- The instruction the decoder reads from a row's bits `w` (log 2). -/
def decodeTableWord (nbits w : Nat) : Option Instr :=
  match tableWord nbits w with
  | some e => (decode e).toOption
  | none => none

end Sys2Proof
end

