-- ==== Sys2Proof/Machine/Commands.lean ====
section
/-! DEFINITION. The command words (40_host_interface.md R126 to R130). A command is the write of its word to `CMD`, so each
goes through the stages of R120 (log 16). -/

namespace Sys2Proof.Machine

/-- The effect of `NOP`: none (R127). -/
def State.cmdNop (s : State) : State := s

/-- The effect of `START` (R128): it discards the old result, then either fails with `BAD_LENGTH` or begins an invocation. -/
def State.cmdStart (s : State) : State :=
  if s.params.inCap < s.inLen.toNat then { s.clearResult with fail := true, cond := .badLength }
  else { s.clearResult with busy := true, phase := .freq }

/-- The effect of `CLEAR` (R129). -/
def State.cmdClear (s : State) : State :=
  { s.clearResult with herrBusy := false, herrCmd := false, herrAcc := false }

/-- The effect of a reserved command word: `HERR_CMD` is set (R130). -/
def State.cmdReserved (s : State) : State := { s with herrCmd := true }

/-- A performed write to `CMD` decodes the word at once (R126). -/
def State.command (word : Word) (s : State) : State :=
  match decodeCommand word with
  | .ok .nop => s.cmdNop
  | .ok .start => s.cmdStart
  | .ok .clear => s.cmdClear
  | _ => s.cmdReserved

/-- `NOP` as an instruction: `REGWR CMD, 0` (30_encoding.md R112). -/
def execNop (s : State) : Host.Outcome State Fault Refusal :=
  .next (s.transact 0b001 0 fun s => s.noAnswer.cmdNop)

/-- `START` as an instruction: `REGWR CMD, 1` (30_encoding.md R112). -/
def execStart (s : State) : Host.Outcome State Fault Refusal :=
  .next (s.transact 0b001 0 fun s => s.noAnswer.cmdStart)

/-- `CLEAR` as an instruction: `REGWR CMD, 2` (30_encoding.md R112). -/
def execClear (s : State) : Host.Outcome State Fault Refusal :=
  .next (s.transact 0b001 0 fun s => s.noAnswer.cmdClear)

end Sys2Proof.Machine
end

