-- ==== Sys2Proof/Machine/HostPort.lean ====
section
/-! DEFINITION. The host transactions (40_host_interface.md R121 to R125), each over the stages of R120. -/

namespace Sys2Proof.Machine

/-- The value a register reads as (R121): `CMD` reads 0. Only indices 0 to 3 are ever performed. -/
def State.readReg (addr : Word) (s : State) : Word :=
  if addr = 0 then 0
  else if addr = 1 then s.status
  else if addr = 2 then s.inLen
  else s.outLen

/-- The write of a register (R122): index 0 decodes a command, index 2 is `IN_LEN`. Only these two are ever performed. -/
def State.writeReg (addr wdata : Word) (s : State) : State :=
  if addr = 0 then s.command wdata else { s with inLen := wdata }

/-- The read of an output byte (R124). -/
def State.readOut (addr : Word) (s : State) : State :=
  if wholeAddr addr < s.outLen.toNat then s.answer (zextByte (s.outByte (wholeAddr addr)))
  else s.answerUnspecifiedByte

/-- `REGRD` (R121). -/
def execRegrd (addr : Word) (s : State) : Host.Outcome State Fault Refusal :=
  .next (s.transact 0b000 addr fun s => s.answer (s.readReg addr))

/-- `REGWR` (R122). -/
def execRegwr (addr wdata : Word) (s : State) : Host.Outcome State Fault Refusal :=
  .next (s.transact 0b001 addr fun s => s.noAnswer.writeReg addr wdata)

/-- `INRD`, illegal: refused at stage 1 whatever `BUSY` is (R125). -/
def execInrd (addr : Word) (s : State) : Host.Outcome State Fault Refusal :=
  .next (s.transact 0b010 addr fun s => s)

/-- `INWR` (R123): the byte becomes defined. -/
def execInwr (addr wdata : Word) (s : State) : Host.Outcome State Fault Refusal :=
  .next (s.transact 0b011 addr fun s =>
    { s.noAnswer with inbuf := Memory.write s.inbuf (wholeAddr addr) (lowByte wdata) })

/-- `OUTRD` (R124). -/
def execOutrd (addr : Word) (s : State) : Host.Outcome State Fault Refusal :=
  .next (s.transact 0b100 addr fun s => s.readOut addr)

/-- `OUTWR`, illegal: refused at stage 1 whatever `BUSY` is (R125). -/
def execOutwr (addr _wdata : Word) (s : State) : Host.Outcome State Fault Refusal :=
  .next (s.transact 0b101 addr fun s => s)

/-- `RSVD3`, the reserved space, read or write, illegal: refused at stage 1 whatever `BUSY` is (R125). -/
def execRsvd3 (we : Bool) (addr _wdata : Word) (s : State) : Host.Outcome State Fault Refusal :=
  .next (s.transact (if we then 0b111 else 0b110) addr fun s => s)

end Sys2Proof.Machine
end

