-- ==== Sys2Proof/Machine/FrequencyCounter.lean ====
section
/-! DEFINITION. The FrequencyCounter: the phase operation `P_FREQ` (41_frequency_counter.md). -/

namespace Sys2Proof.Machine

/-- Initialisation (R151): `CNT` and `K` are cleared, `ORDER` is not. -/
def FreqTable.init (t : FreqTable) : FreqTable := { t with cnt := Vector.replicate 256 0, k := 0 }

/-- `ORDER[K] <- s ; K <- K + 1` (R152). A symbol is inserted at most once after `FreqTable.init`, so `K` is below 256 whenever a
symbol is new (10_state.md R28). -/
def FreqTable.insert (b : Byte) (t : FreqTable) : FreqTable :=
  if h : t.k.val < 256 then { t with order := t.order.set t.k.val b h, k := ⟨t.k.val + 1, by omega⟩ } else t

/-- `CNT[s] <- CNT[s] + 1` (R152). -/
def FreqTable.bump (b : Byte) (t : FreqTable) : FreqTable :=
  { t with cnt := t.cnt.set (symIndex b).val (t.cnt[(symIndex b).val] + 1) }

/-- One byte of the scan (R152): a symbol enters the table when the scan first meets it. -/
def FreqTable.count (t : FreqTable) (b : Byte) : FreqTable :=
  if t.cnt[(symIndex b).val] = 0 then (t.insert b).bump b else t.bump b

/-- The present symbols in the order they entered the table, `ORDER[0 .. K-1]` (10_state.md R41). -/
def FreqTable.symbols (t : FreqTable) : List Byte := t.order.toList.take t.k.val

/-- `P_FREQ` (R150 to R152): initialise, scan the input in ascending address order, `PHASE <- 2`. `IDX` ends at `IN_LEN`
(DEDUCED, log 9). -/
def execPFreq (s : State) : Host.Outcome State Fault Refusal :=
  .next { s with freq := s.inputBytes.foldl FreqTable.count s.freq.init, idx := s.inLen, phase := .tree }

end Sys2Proof.Machine
end

