-- ==== Sys2Proof/Machine/PriorityQueue.lean ====
section
/-! DEFINITION. The PriorityQueue, an array-backed binary min-heap ordered by frequency only (42_priority_queue.md). The key of an
arena index is given as a function, `f(i) = NODE[HEAP[i]].FREQ` (R162). -/

namespace Sys2Proof.Machine

/-- `FREQ` of a node: leaves carry one too (90_conflicts.md C5). -/
def Node.freq : Node → Word
  | .leaf _ f => f
  | .internal f _ _ => f

/-- The key of an arena index (R162). -/
def Arena.key (a : Arena) (i : Idx) : Word := a.node[i.val].freq

/-- `parent(i) = (i - 1) div 2` (R161). -/
def heapParent (i : Fin 256) : Fin 256 := ⟨(i.val - 1) / 2, by omega⟩

/-- The loop of `PQ_INSERT` (R164): swap with the parent while strictly less. It runs at most `i` rounds (log 18). -/
def siftUp (key : Idx → Word) : Nat → Vector Idx 256 → Fin 256 → Vector Idx 256
  | 0, h, _ => h
  | n + 1, h, i =>
    if 0 < i.val ∧ key h[i.val] < key h[(heapParent i).val] then
      siftUp key n (h.swap i.val (heapParent i).val) (heapParent i)
    else h

/-- The candidate child of position `i` (R165, R167 a): the left child, unless the right one is strictly smaller; none when `i` has
no child. -/
def heapChild (key : Idx → Word) (h : Vector Idx 256) (size : Fin 257) (i : Fin 256) : Option (Fin 256) :=
  if hl : 2 * i.val + 1 < size.val then
    if hr : 2 * i.val + 2 < size.val then
      if key (h[2 * i.val + 2]'(by omega)) < key (h[2 * i.val + 1]'(by omega)) then some ⟨2 * i.val + 2, by omega⟩
      else some ⟨2 * i.val + 1, by omega⟩
    else some ⟨2 * i.val + 1, by omega⟩
  else none

/-- The loop of `PQ_EXTRACT` (R165, R167 b): swap with the candidate child while it is strictly less. The position grows each
round, so `size` rounds are enough (log 18). -/
def siftDown (key : Idx → Word) (size : Fin 257) : Nat → Vector Idx 256 → Fin 256 → Vector Idx 256
  | 0, h, _ => h
  | n + 1, h, i =>
    match heapChild key h size i with
    | none => h
    | some c => if key h[c.val] < key h[i.val] then siftDown key size n (h.swap i.val c.val) c else h

/-- `Insert(node)` (R164): append, then sift up; `none` when the heap is full (R169). -/
def PQueue.insert (key : Idx → Word) (x : Idx) (q : PQueue) : Option PQueue :=
  if h : q.hsize.val < 256 then
    some { q with
      heap := siftUp key q.hsize.val (q.heap.set q.hsize.val x h) ⟨q.hsize.val, h⟩
      hsize := ⟨q.hsize.val + 1, by omega⟩ }
  else none

/-- The heap after its first element is taken: the last element moves to the root and sifts down (R165). `n` is the new `HSIZE`. -/
def removeRoot (key : Idx → Word) (n : Fin 256) (h : Vector Idx 256) : Vector Idx 256 :=
  if 0 < n.val then siftDown key ⟨n.val, by omega⟩ n.val (h.set 0 h[n.val]) 0 else h

/-- `ExtractMin()` (R165, R166): the node returned, if there is one, and the queue after. `draw` is the value `PQ_RES` takes after a
none result. -/
def PQueue.extract (key : Idx → Word) (draw : BitVec 9) (q : PQueue) : Option Idx × PQueue :=
  if h : q.hsize.val = 0 then (none, { q with res := draw, isNone := true })
  else
    (some q.heap[0],
      { heap := removeRoot key ⟨q.hsize.val - 1, by omega⟩ q.heap
        hsize := ⟨q.hsize.val - 1, by omega⟩
        res := nodeBits q.heap[0]
        isNone := false })

/-- `PQ_INSERT` as an operation of the unit (R164; R169 for a full heap; log 12). -/
def execPqInsert (arg : BitVec 9) (s : State) : Host.Outcome State Fault Refusal :=
  match argNode arg with
  | none => .fault .noSuchNode
  | some x =>
    match s.pq.insert s.arena.key x with
    | none => .refused .heapFull
    | some q => .next { s with pq := q }

/-- `PQ_EXTRACT` as an operation of the unit (R165, R166): a none result draws `PQ_RES` (log 5). -/
def execPqExtract (s : State) : Host.Outcome State Fault Refusal :=
  match s.pq.extract s.arena.key (Config.unspecified9 s.draws) with
  | (none, q) => .next { s with pq := q, draws := s.draws + 1 }
  | (some _, q) => .next { s with pq := q }

end Sys2Proof.Machine
end

