-- ==== Sys2Proof/Machine/TreeBuilder.lean ====
section
/-! DEFINITION. The TreeBuilder: the phase operation `P_TREE` (43_tree_builder.md). -/

namespace Sys2Proof.Machine

/-- What `P_TREE` works on: the arena and the queue. -/
structure Builder where
  arena : Arena
  pq : PQueue
  deriving DecidableEq, Repr

/-- Initialisation (R181): both are empty; no entry is cleared. -/
def Builder.init (a : Arena) (q : PQueue) : Builder :=
  { arena := { a with nn := 0 }, pq := { q with hsize := 0 } }

/-- `NODE[NN] <- node ; PQ_INSERT(NN) ; NN <- NN + 1` (R182, R183). The bounds of R189 leave room in both tables. -/
def Builder.add (n : Node) (b : Builder) : Except Fault Builder :=
  if h : b.arena.nn.val < 511 then
    let a : Arena := { node := b.arena.node.set b.arena.nn.val n h, nn := ⟨b.arena.nn.val + 1, by omega⟩ }
    match b.pq.insert a.key ⟨b.arena.nn.val, h⟩ with
    | some q => .ok { arena := a, pq := q }
    | none => .error .treeBounds
  else .error .treeBounds

/-- Seeding (R182): one leaf per present symbol, in table order. -/
def Builder.seed (cnt : Vector Word 256) : List Byte → Builder → Except Fault Builder
  | [], b => .ok b
  | s :: rest, b =>
    match b.add (.leaf s cnt[(symIndex s).val]) with
    | .ok b' => Builder.seed cnt rest b'
    | .error f => .error f

/-- One extraction inside the merge loop, where the queue is not empty (R183). -/
def Builder.take (b : Builder) : Except Fault (Idx × Builder) :=
  match b.pq.extract b.arena.key 0 with
  | (some x, q) => .ok (x, { b with pq := q })
  | (none, _) => .error .treeBounds

/-- One round of the merge loop (R183): the node extracted first is `LEFT`, the second `RIGHT`. A sum that leaves 32 bits is
undefined (00_scope.md R9; log 10). -/
def Builder.mergeOnce (b : Builder) : Except Fault Builder :=
  match b.take with
  | .error f => .error f
  | .ok (l, b1) =>
    match b1.take with
    | .error f => .error f
    | .ok (r, b2) =>
      if (b2.arena.key l).toNat + (b2.arena.key r).toNat < 2 ^ 32 then
        b2.add (.internal (b2.arena.key l + b2.arena.key r) l r)
      else .error .wrapAround

/-- The merge loop (R183): while more than one node is queued. Each round lowers `HSIZE` by one, so `HSIZE` rounds are enough
(log 18). -/
def Builder.merge : Nat → Builder → Except Fault Builder
  | 0, b => .ok b
  | n + 1, b =>
    if 1 < b.pq.hsize.val then
      match b.mergeOnce with
      | .ok b' => Builder.merge n b'
      | .error f => .error f
    else .ok b

/-- The tree of a frequency table: initialise, seed, merge (R181 to R183). -/
def Builder.build (t : FreqTable) (a : Arena) (q : PQueue) : Except Fault Builder :=
  match Builder.seed t.cnt t.symbols (Builder.init a q) with
  | .ok b => Builder.merge b.pq.hsize.val b
  | .error f => .error f

/-- `P_TREE` (R180 to R186): build the tree, then take the root by one more extraction; a none result raises `EmptyInput`
(R184, R185). -/
def execPTree (s : State) : Host.Outcome State Fault Refusal :=
  match Builder.build s.freq s.arena s.pq with
  | .error f => .fault f
  | .ok b =>
    match b.pq.extract b.arena.key (Config.unspecified9 s.draws) with
    | (none, q) =>
      .next (State.enterFailure .emptyInput
        { s with arena := b.arena, pq := q, rootValid := false, draws := s.draws + 1 })
    | (some r, q) =>
      .next { s with arena := b.arena, pq := q, root := r, rootValid := true, phase := .code }

end Sys2Proof.Machine
end

