-- ==== Sys2Proof/Machine/Dispatch.lean ====
section
/-! DEFINITION. One arm per instruction, each one direct call of its meaning. -/

namespace Sys2Proof.Machine

def exec (i : Instr) (s : State) : Host.Outcome State Fault Refusal :=
  match i with
  | .regrd addr => Sys2Proof.Machine.execRegrd addr s
  | .regwr addr wdata => Sys2Proof.Machine.execRegwr addr wdata s
  | .inrd addr => Sys2Proof.Machine.execInrd addr s
  | .inwr addr wdata => Sys2Proof.Machine.execInwr addr wdata s
  | .outrd addr => Sys2Proof.Machine.execOutrd addr s
  | .outwr addr wdata => Sys2Proof.Machine.execOutwr addr wdata s
  | .rsvd3 we addr wdata => Sys2Proof.Machine.execRsvd3 we addr wdata s
  | .nop => Sys2Proof.Machine.execNop s
  | .start => Sys2Proof.Machine.execStart s
  | .clear => Sys2Proof.Machine.execClear s
  | .pFreq => Sys2Proof.Machine.execPFreq s
  | .pTree => Sys2Proof.Machine.execPTree s
  | .pCode => Sys2Proof.Machine.execPCode s
  | .pPack => Sys2Proof.Machine.execPPack s
  | .pqInsert arg => Sys2Proof.Machine.execPqInsert arg s
  | .pqExtract => Sys2Proof.Machine.execPqExtract s

end Sys2Proof.Machine
end

