-- ==== Sys2Proof/Machine/Fetch.lean ====
section
/-! DEFINITION. What happens next: the step relation of 70_reset_and_hazards.md R272 read off the events still to come. -/

namespace Sys2Proof.Machine

/-- What the next event is, with the state once it is taken off the list. -/
inductive Fetched where
  /-- A word on one of the ports, to be decoded and run. -/
  | word (e : Encoded) (s : State)
  /-- `rst` is asserted. -/
  | reset (s : State)
  /-- No agent has a step. -/
  | idle (s : State)
  deriving DecidableEq, Repr

/-- The core's own step: enabled exactly when `BUSY = 1`, it runs the phase `PHASE` names (R272 b). -/
def State.coreFetch (s : State) : Fetched := if s.busy then .word (.phase s.phase.bits) s else .idle s

/-- The next event. With none left to come only the core has a step (R273: it is weakly fair; log 1). -/
def State.fetch (s : State) : Fetched :=
  match s.input with
  | [] => s.coreFetch
  | .txn hdr addr wdata :: rest => .word (.htxn hdr addr wdata) { s with input := rest }
  | .cmd word :: rest => .word (.cmd word) { s with input := rest }
  | .pq op arg :: rest => .word (.pqop op arg) { s with input := rest }
  | .core :: rest => State.coreFetch { s with input := rest }
  | .rst :: rest => .reset { s with input := rest }

/-- What a word that is no instruction does. A reserved command word is the `REGWR` that writes it (R112, R130); `PQ_OP = 0b00` is
idle; the rest is never driven or held (93_implementation_defined.md U10; log 11). -/
def State.rejectWord (e : DecodeError) (s : State) : Host.Outcome State Fault Refusal :=
  match e with
  | .reservedCommand word => execRegwr 0 word s
  | .idlePq => .next s
  | .idlePhase => .fault .busyIdle
  | .reservedPhase => .fault .busyIdle
  | .reservedPq => .fault .reservedQueueOp
  | .noSuchNode => .fault .noSuchNode

/-- Place a word as the next event, on the port it belongs to. A phase code is no event of its own: it is the value of `PHASE`, so
placing one starts the core at that phase (log 3); a code that names no operation places nothing. -/
def State.placeWord (e : Encoded) (s : State) : State :=
  match e with
  | .htxn hdr addr wdata => { s with input := .txn hdr addr wdata :: s.input }
  | .cmd word => { s with input := .cmd word :: s.input }
  | .pqop op arg => { s with input := .pq op arg :: s.input }
  | .phase code =>
    if code = 1 then { s with busy := true, phase := .freq, input := .core :: s.input }
    else if code = 2 then { s with busy := true, phase := .tree, input := .core :: s.input }
    else if code = 3 then { s with busy := true, phase := .code, input := .core :: s.input }
    else if code = 4 then { s with busy := true, phase := .pack, input := .core :: s.input }
    else s

end Sys2Proof.Machine
end

