-- ==== Sys2Proof/Machine/Step.lean ====
section
/-! DEFINITION. One step of the machine: one host transaction, one core step, one reset, or nothing
(70_reset_and_hazards.md R272). -/

namespace Sys2Proof.Machine

def step (s : State) : Host.Outcome State Fault Refusal :=
  match s.fetch with
  | .idle s' => .next s'
  | .reset s' => .next s'.assertReset
  | .word e s' =>
    match decode e with
    | .ok i => exec i s'
    | .error r => s'.rejectWord r

/-- The word of a row of spec/opcode_table.json, placed as the next event (logs 2 and 3). -/
def State.withFetchWord (s : State) (nbits w : Nat) : State :=
  match tableWord nbits w with
  | some e => s.placeWord e
  | none => s

end Sys2Proof.Machine
end

