-- ==== Sys2Proof/Machine/Records.lean ====
section
/-! DEFINITION. The bit layouts of the internal records, "given once so that two implementations can exchange dumps"
(30_encoding.md R100 to R103). A dump is read, not written: the fields the spec leaves unspecified have no bits to write (log 15). -/

namespace Sys2Proof.Machine

/-- The first `len` digits of `CBITS` or `SBITS`: digit `j` stands in bit `254 - j` (R102). -/
def digitsOfDump (bits : BitVec 255) (len : Nat) : Code := (List.range len).map fun j => bits.getLsbD (254 - j)

/-- A `NODE` entry from its 59 bits (R100); an internal node's children must be arena indices. -/
def Node.ofDump (w : BitVec 59) : Option Node :=
  if w.getLsbD 58 then some (.leaf (w.extractLsb' 50 8) (w.extractLsb' 18 32))
  else
    match argNode (w.extractLsb' 9 9), argNode (w.extractLsb' 0 9) with
    | some l, some r => some (.internal (w.extractLsb' 18 32) l r)
    | _, _ => none

/-- A `HEAP` entry from its 9 bits (R101). -/
def heapEntryOfDump (w : BitVec 9) : Option Idx := argNode w

/-- A `CODE` entry from its 264 bits (R102): `none` when `CVALID = 0`. -/
def codeOfDump (w : BitVec 264) : Option Code :=
  if w.getLsbD 263 then some (digitsOfDump (w.extractLsb' 0 255) (w.extractLsb' 255 8).toNat) else none

/-- A `CODE` entry as its 264 bits (R102); `free` fills `CLEN` and `CBITS` of an entry with `CVALID = 0`, which are unspecified. -/
def codeDump (free : BitVec 263) : Option Code → BitVec 264
  | none => 0#1 ++ free
  | some c =>
    1#1 ++ (BitVec.ofNat 8 c.length ++ (BitVec.ofBoolListBE c).setWidth 255 <<< (255 - c.length))

/-- A `STACK` entry from its 272 bits (R103). -/
def stackEntryOfDump (w : BitVec 272) : Option StackEntry :=
  match argNode (w.extractLsb' 263 9) with
  | some i => some { snode := i, digits := digitsOfDump (w.extractLsb' 0 255) (w.extractLsb' 255 8).toNat }
  | none => none

end Sys2Proof.Machine
end

