-- ==== Sys2Proof/Safety.lean ====
section
/-! DEFINITION. What counts as a safe run, in the terms claims use: the relations of 10_state.md R23, the invariant of every step,
trees of the arena, heap order, the bit stream. -/

namespace Sys2Proof

open Sys2Proof.Machine

/-- The state a step answers, when it answers one. -/
def nextOf (o : Host.Outcome State Fault Refusal) : Option State :=
  match o with
  | .next s => some s
  | .fault _ => none
  | .refused _ => none

/-! ### The relations of 10_state.md R23 -/

/-- 10_state.md R23, clause by clause. -/
structure Relations (s : State) : Prop where
  busy : s.busy = true →
    s.done = false ∧ s.fail = false ∧ s.cond = .none ∧ s.outLen = 0 ∧ s.phase ≠ .idle
  idle : s.busy = false → s.phase = .idle
  exclusive : ¬(s.done = true ∧ s.fail = true)
  done : s.done = true →
    (s.cond = .none ∨ s.cond = .degenerateAlphabet) ∧ 1 ≤ s.outLen.toNat ∧ s.outLen.toNat ≤ s.params.outCap
  fail : s.fail = true →
    (s.cond = .emptyInput ∨ s.cond = .badLength ∨ s.cond = .outOverflow) ∧ s.outLen = 0
  rest : s.busy = false → s.done = false → s.fail = false → s.cond = .none ∧ s.outLen = 0

/-! ### The frequency table -/

/-- `t` is the FrequencyTable of `input` (41_frequency_counter.md R153): every count, and the present symbols, each once, in the order
of their first occurrence. -/
structure CountsOf (t : FreqTable) (input : List Byte) : Prop where
  cnt : ∀ b : Byte, (t.cnt[(symIndex b).val]).toNat = input.count b
  present : ∀ b : Byte, b ∈ t.symbols ↔ b ∈ input
  order : t.symbols.Pairwise fun a b => input.idxOf a < input.idxOf b

/-! ### Trees -/

/-- A Huffman tree as a value: DOC0's TreeNode with owned children (10_state.md R42, R43). -/
inductive HuffTree where
  | leaf (sym : Byte) (freq : Word)
  | node (freq : Word) (left right : HuffTree)
  deriving DecidableEq, Repr

/-- The frequency of the root. -/
def HuffTree.freq : HuffTree → Word
  | .leaf _ f => f
  | .node f _ _ => f

/-- The symbols of the leaves with their frequencies, left to right. -/
def HuffTree.leaves : HuffTree → List (Byte × Word)
  | .leaf s f => [(s, f)]
  | .node _ l r => l.leaves ++ r.leaves

/-- The number of nodes. -/
def HuffTree.size : HuffTree → Nat
  | .leaf _ _ => 1
  | .node _ l r => l.size + r.size + 1

/-- "Frequency is always the sum of the frequencies of the subtree's leaves" (10_state.md R43), as a number. -/
def HuffTree.summed : HuffTree → Prop
  | .leaf _ _ => True
  | .node f l r => f.toNat = l.freq.toNat + r.freq.toNat ∧ l.summed ∧ r.summed

/-- Every symbol's path: left edge 0, right edge 1, the edge leaving the root first (44_code_table_builder.md R198). -/
def HuffTree.codes : HuffTree → List (Byte × Code)
  | .leaf s _ => [(s, [])]
  | .node _ l r =>
    (l.codes.map fun c => (c.1, false :: c.2)) ++ (r.codes.map fun c => (c.1, true :: c.2))

/-- The arena holds tree `t` at index `i`; children stand before their parent (10_state.md R43). -/
def Holds (node : Vector Node 511) : Idx → HuffTree → Prop
  | i, .leaf s f => node[i.val] = .leaf s f
  | i, .node f l r =>
    ∃ li ri : Idx, node[i.val] = .internal f li ri ∧ li < i ∧ ri < i ∧ Holds node li l ∧ Holds node ri r

/-! ### The queue -/

/-- `HEAP[0 .. HSIZE-1]` (10_state.md R44). -/
def Machine.PQueue.items (q : PQueue) : List Idx := q.heap.toList.take q.hsize.val

/-- Heap order (42_priority_queue.md R163): for every position `i` with `1 ≤ i < HSIZE`, `f(parent(i)) ≤ f(i)`. -/
def HeapOrder (key : Idx → Word) (q : PQueue) : Prop :=
  ∀ i : Fin 256, 1 ≤ i.val → i.val < q.hsize.val → key q.heap[(heapParent i).val] ≤ key q.heap[i.val]

/-- `c` is the child of position `i` that a sift-down compares with, in a heap of `n` elements (42_priority_queue.md R165, R167 a): the
left child, or the right one where it is strictly smaller. -/
def Candidate (key : Idx → Word) (h : Vector Idx 256) (n : Nat) (i c : Fin 256) : Prop :=
  c.val < n ∧
    ((c.val = 2 * i.val + 1 ∧ ∀ r : Fin 256, r.val = 2 * i.val + 2 → r.val < n → key h[c.val] ≤ key h[r.val]) ∨
      (c.val = 2 * i.val + 2 ∧ ∀ l : Fin 256, l.val = 2 * i.val + 1 → key h[c.val] < key h[l.val]))

/-- The keys of the nodes `n` successive `PQ_EXTRACT` operations return, with no `PQ_INSERT` between them (R168). -/
def extractedKeys : Nat → State → List Word
  | 0, _ => []
  | n + 1, s =>
    match exec .pqExtract s with
    | .next t => (argNode t.pq.res).elim [] fun i => s.arena.key i :: extractedKeys n t
    | .fault _ => []
    | .refused _ => []

/-! ### The building of the tree, one queue instruction at a time (43_tree_builder.md R182, R183) -/

/-- `NODE[NN] <- n ; PQ_INSERT(NN) ; NN <- NN + 1`: what a round of the seed loop does, and the end of a round of the merge loop. -/
def placeNode (n : Node) (s : State) : Option State :=
  if h : s.arena.nn.val < 511 then
    (nextOf (exec (.pqInsert (BitVec.ofNat 9 s.arena.nn.val))
      { s with arena := { s.arena with node := s.arena.node.set s.arena.nn.val n h } })).map
        fun t => { t with arena := { t.arena with nn := ⟨s.arena.nn.val + 1, by omega⟩ } }
  else none

/-- One round of the merge loop: `PQ_EXTRACT` twice, the node returned first becoming `LEFT` and the second `RIGHT`, then the new
node is placed. -/
def mergeTwo (s : State) : Option State :=
  (nextOf (exec .pqExtract s)).bind fun a => (nextOf (exec .pqExtract a)).bind fun b =>
    (argNode a.pq.res).bind fun l => (argNode b.pq.res).bind fun r =>
      placeNode (.internal (b.arena.key l + b.arena.key r) l r) b

/-- When node `i` is made, node `j` is nobody's child yet (10_state.md R43). -/
def Unowned (node : Vector Node 511) (i j : Idx) : Prop :=
  ∀ (m : Idx) (f : Word) (l r : Idx), m < i → node[m.val] = .internal f l r → l ≠ j ∧ r ≠ j

/-! ### The bit stream (30_encoding.md R104) -/

/-- Every byte of the input has a code, of at least one digit and at most 255 (45_bit_packer.md R217, R219). -/
def Coded (code : Vector (Option Code) 256) (input : List Byte) : Prop :=
  ∀ b ∈ input, ∃ c, code[(symIndex b).val] = some c ∧ 1 ≤ c.length ∧ c.length ≤ 255

/-- `S`: the concatenation of the codes of the input bytes, in input order. -/
def stream (code : Vector (Option Code) 256) (input : List Byte) : List Bool :=
  input.flatMap fun b => (code[(symIndex b).val]).getD []

/-- `OUTBUF[0 .. L-1]` is the PackedOutput of stream `S`: `L = ceil(T / 8)` bytes, bit `7 - (i mod 8)` of byte `i div 8` is `S[i]`, and
0 for `i ≥ T`. -/
def Packed (out : Memory) (S : List Bool) : Prop :=
  ∀ i : Nat, i < 8 * bytesFor S.length →
    ∃ b : Byte, Memory.read out (i / 8) = some b ∧ b.getLsbD (7 - i % 8) = S.getD i false

/-- No code is a prefix of another (00_scope.md R17, 44_code_table_builder.md R202). -/
def PrefixFree (code : Vector (Option Code) 256) : Prop :=
  ∀ a b : Byte, a ≠ b → ∀ c d : Code,
    code[(symIndex a).val] = some c → code[(symIndex b).val] = some d → ¬c <+: d

/-! ### The invariant of every step -/

/-- What the tables hold while the core runs, phase by phase: each phase finds what the phase before it left. -/
def PhaseReady (s : State) : Prop :=
  match s.phase with
  | .idle => True
  | .freq => True
  | .tree => CountsOf s.freq s.inputBytes
  | .code =>
    s.rootValid = true ∧ s.inputBytes ≠ [] ∧
      ∃ t : HuffTree, Holds s.arena.node s.root t ∧ t.size ≤ 511 ∧ (t.leaves.map Prod.fst).Nodup ∧
        ∀ b ∈ s.inputBytes, b ∈ t.leaves.map Prod.fst
  | .pack => s.inputBytes ≠ [] ∧ Coded s.walk.code s.inputBytes

/-- The invariant: the relations of R23, buffers in canonical form inside their capacities, and, while an invocation runs, a legal
length and tables that are ready for the phase to come; after a completion every output byte is there. -/
structure Inv (s : State) : Prop where
  relations : Relations s
  inbufWf : Memory.wf s.inbuf
  outbufWf : Memory.wf s.outbuf
  inbufWithin : Memory.within s.params.inCap s.inbuf
  outbufWithin : Memory.within s.params.outCap s.outbuf
  length : s.busy = true → s.inLen.toNat ≤ s.params.inCap
  ready : s.busy = true → PhaseReady s
  outDefined : s.done = true → ∀ j < s.outLen.toNat, Memory.read s.outbuf j ≠ none

/-- The next event does not drive the internal queue port, which no host can reach (30_encoding.md R99). -/
def NoQueueDrive (s : State) : Prop := ∀ op arg rest, s.input ≠ .pq op arg :: rest

/-- The core's step comes next: `BUSY = 1`, and the next event is `CORE` or there is none (70_reset_and_hazards.md R272 b; log 1). -/
def CoreSteps (s : State) : Prop := s.busy = true ∧ (s.input = [] ∨ ∃ rest, s.input = .core :: rest)

/-- Command word `w` is performed next: `BUSY = 0`, and the next event is the `REGWR` of it to `CMD`, or its own line (R112, R126). -/
def Commands (w : Word) (s : State) : Prop :=
  s.busy = false ∧ ∃ rest, s.input = .txn 0b001 0 w :: rest ∨ s.input = .cmd w :: rest

/-- `rst` comes next (R260). -/
def Resets (s : State) : Prop := ∃ rest, s.input = .rst :: rest

/-! ### Runs -/

/-- `n` steps of the machine: `Host.Core.run core`, over `step` itself. -/
def run : Nat → State → Host.Outcome State Fault Refusal
  | 0, s => .next s
  | n + 1, s =>
    match step s with
    | .next t => run n t
    | .fault r => .fault r
    | .refused r => .refused r

/-- A host transaction as an event. -/
def txnEvent (x : BitVec 3 × Word × Word) : Event := .txn x.1 x.2.1 x.2.2

/-! ### Launch premises (70_reset_and_hazards.md R276) -/

/-- `InputWritten`: every `INBUF[i]`, `i < IN_LEN`, is defined. -/
def InputWritten (s : State) : Prop := ∀ i < s.inLen.toNat, Memory.read s.inbuf i ≠ none

/-- The state at reset of an instance with the given parameters, with a script of events to come. -/
def bootWith (p : Params) (script : List Event) : State := { State.reset with params := p, input := script }

/-- `START` followed by four core steps, then the rest of the events: one interleaving of an invocation (R272). -/
def launch (s : State) : State := { s with input := .txn 0b001 0 1 :: .core :: .core :: .core :: .core :: s.input }

/-- `START`, then the host's transactions `x₁`, a core step, the transactions `x₂`, a core step, and so on to the fourth core step:
another interleaving of the same invocation (R272). -/
def interleaved (s : State) (x₁ x₂ x₃ x₄ : List (BitVec 3 × Word × Word)) : State :=
  let script : List Event :=
    .txn 0b001 0 1 :: x₁.map txnEvent ++ .core :: x₂.map txnEvent ++ .core :: x₃.map txnEvent ++
      .core :: x₄.map txnEvent ++ .core :: s.input
  { s with input := script }

/-- The outcome of an invocation (R274): `(DONE, FAIL, COND, OUT_LEN)` and the output bytes below `OUT_LEN`. -/
def sameOutcome (s t : State) : Prop :=
  s.done = t.done ∧ s.fail = t.fail ∧ s.cond = t.cond ∧ s.outLen = t.outLen ∧
    ∀ j < s.outLen.toNat, s.outByte j = t.outByte j

end Sys2Proof
end

