-- ==== Sys2Proof/Certificates/Slice0/Obligations.lean ====
section
/-! DEFINITION. The statements about HUFFENC, each from the rules of spec/ its docstring names. Where a statement speaks of an
unspecified value it names the opaque constant of Config, and so holds whatever that value is. -/

open Sys2Proof Sys2Proof.Machine

/-! ### Words, the decoder, the step -/

/-- 30_encoding.md R90, R91, R94, R95, R97, R99: words written out from the tables decode to the instructions they stand for;
the last two through the model's choice of a port for a row's bits (log 2). -/
def Obligations.DecodedWordsOfTheTables : Prop :=
  decode (.htxn 0b000 1 0) = .ok (.regrd 1) ∧
  decode (.htxn 0b001 2 4) = .ok (.regwr 2 4) ∧
  decode (.htxn 0b010 7 0) = .ok (.inrd 7) ∧
  decode (.htxn 0b011 0x0000FFFF 0x0000007E) = .ok (.inwr 0x0000FFFF 0x0000007E) ∧
  decode (.htxn 0b100 2 0) = .ok (.outrd 2) ∧
  decode (.htxn 0b101 0 0xAA) = .ok (.outwr 0 0xAA) ∧
  decode (.htxn 0b110 0 0) = .ok (.rsvd3 false 0 0) ∧
  decode (.htxn 0b111 0 0) = .ok (.rsvd3 true 0 0) ∧
  decode (.cmd 0x00000001) = .ok .start ∧
  decode (.cmd 0x00000011) = .error (.reservedCommand 0x00000011) ∧
  decode (.phase 0b100) = .ok .pPack ∧
  decode (.pqop 0b01 510) = .ok (.pqInsert 510) ∧
  decode (.pqop 0b10 0) = .ok .pqExtract ∧
  decodeTableWord 32 2 = some .clear ∧
  decodeTableWord 8 3 = some (.inwr 0 0)

/-- 30_encoding.md R91, R94, R97, R99: the encoder's words decode back with every operand, and every word that decodes is the encoder's
word up to the operands its format ignores. -/
def Obligations.DecodeAndEncodeAgree : Prop :=
  (∀ i : Instr, i.wellFormed = true → decode (encode i) = .ok i) ∧
  (∀ (e : Encoded) (i : Instr), decode e = .ok i → i.wellFormed = true ∧ decode (encode i) = decode e) ∧
  (∀ (hdr : BitVec 3) (addr wdata : Word) (i : Instr), decode (.htxn hdr addr wdata) = .ok i →
    encode i = .htxn hdr addr wdata ∨ (hdr.getLsbD 0 = false ∧ encode i = .htxn hdr addr 0)) ∧
  (∀ (w : Word) (i : Instr), decode (.cmd w) = .ok i → encode i = .cmd w)

/-- 30_encoding.md R97: the five phase codes, the operation each selects, and the codes never held. -/
def Obligations.PhaseCodesSelectOperations : Prop :=
  (Phase.bits .idle = 0 ∧ decode (.phase 0) = .error .idlePhase) ∧
  (Phase.bits .freq = 1 ∧ decode (.phase 1) = .ok .pFreq) ∧
  (Phase.bits .tree = 2 ∧ decode (.phase 2) = .ok .pTree) ∧
  (Phase.bits .code = 3 ∧ decode (.phase 3) = .ok .pCode) ∧
  (Phase.bits .pack = 4 ∧ decode (.phase 4) = .ok .pPack) ∧
  (∀ c : BitVec 3, 5 ≤ c.toNat → decode (.phase c) = .error .reservedPhase ∧ ∀ p : Phase, p.bits ≠ c)

/-- 70_reset_and_hazards.md R272: a step runs whole the transaction, or the phase, that comes next, and nothing around it; the core
has a step exactly when `BUSY = 1`. The list of events and the idle step are the model's (log 1). -/
def Obligations.StepRunsTheDecodedInstruction : Prop :=
  (∀ (s : State) (e : Encoded) (s' : State) (i : Instr),
    s.fetch = .word e s' → decode e = .ok i → step s = exec i s') ∧
  (∀ (s : State) (hdr : BitVec 3) (addr wdata : Word) (rest : List Event),
    step { s with input := .txn hdr addr wdata :: rest } =
      exec (decodeHeader hdr addr wdata) { s with input := rest }) ∧
  (∀ (s : State) (rest : List Event), s.busy = true →
    (s.phase = .freq → step { s with input := .core :: rest } = exec .pFreq { s with input := rest }) ∧
    (s.phase = .tree → step { s with input := .core :: rest } = exec .pTree { s with input := rest }) ∧
    (s.phase = .code → step { s with input := .core :: rest } = exec .pCode { s with input := rest }) ∧
    (s.phase = .pack → step { s with input := .core :: rest } = exec .pPack { s with input := rest })) ∧
  (∀ (s : State) (rest : List Event), s.busy = false →
    step { s with input := .core :: rest } = .next { s with input := rest }) ∧
  (∀ s : State, s.busy = false → s.input = [] → step s = .next s)

/-- 30_encoding.md R112: a command on its own line is the `REGWR` to `CMD` it expands to, whatever the word; for a
reserved word that is the model's choice (log 16). -/
def Obligations.CommandLineIsItsExpansion : Prop :=
  ∀ (s : State) (w : Word) (rest : List Event),
    step { s with input := .cmd w :: rest } = step { s with input := .txn 0b001 0 w :: rest }

/-! ### Host transactions -/

/-- 40_host_interface.md R121: what every register reads as, `STATUS` bit by bit, and a reserved index. -/
def Obligations.RegisterReadAnswers : Prop :=
  ∀ (s : State) (addr : Word),
    (∀ wdata : Word, decode (.htxn 0b000 addr wdata) = .ok (.regrd addr)) ∧
    (addr = 0 → exec (.regrd addr) s = .next { s with rdata := some 0 }) ∧
    (addr = 1 → ∃ v : Word, exec (.regrd addr) s = .next { s with rdata := some v } ∧
      v.getLsbD 0 = s.busy ∧ v.getLsbD 1 = s.done ∧ v.getLsbD 2 = s.fail ∧ v.getLsbD 3 = false ∧
      v.extractLsb' 4 3 = s.phase.bits ∧ v.getLsbD 7 = false ∧ v.extractLsb' 8 4 = s.cond.bits ∧
      v.getLsbD 12 = s.herrBusy ∧ v.getLsbD 13 = s.herrCmd ∧ v.getLsbD 14 = s.herrAcc ∧ v.extractLsb' 15 17 = 0) ∧
    (addr = 2 → exec (.regrd addr) s = .next { s with rdata := some s.inLen }) ∧
    (addr = 3 → exec (.regrd addr) s = .next { s with rdata := some s.outLen }) ∧
    (4 ≤ addr.toNat → exec (.regrd addr) s =
      .next { s with herrAcc := true, rdata := some (Config.unspecified32 s.draws), draws := s.draws + 1 })

/-- 40_host_interface.md R122, R126: a register write; index 0 decodes its word at once as a command. Here and below `rdata := none` is
30_encoding.md R90, "for a write `rdata` is not produced" (log 14). -/
def Obligations.RegisterWriteStoresOrCommands : Prop :=
  ∀ (s : State) (addr wdata : Word),
    decode (.htxn 0b001 addr wdata) = .ok (.regwr addr wdata) ∧
    (s.busy = false → addr = 2 → exec (.regwr addr wdata) s = .next { s with inLen := wdata, rdata := none }) ∧
    (addr = 0 → wdata = 0 → exec (.regwr addr wdata) s = exec .nop s) ∧
    (addr = 0 → wdata = 1 → exec (.regwr addr wdata) s = exec .start s) ∧
    (addr = 0 → wdata = 2 → exec (.regwr addr wdata) s = exec .clear s) ∧
    (s.busy = false → addr = 0 → 3 ≤ wdata.toNat →
      exec (.regwr addr wdata) s = .next { s with herrCmd := true, rdata := none }) ∧
    (addr = 1 ∨ addr = 3 ∨ 4 ≤ addr.toNat →
      exec (.regwr addr wdata) s = .next { s with herrAcc := true, rdata := none }) ∧
    (s.busy = true → addr = 0 ∨ addr = 2 →
      exec (.regwr addr wdata) s = .next { s with herrBusy := true, rdata := none })

/-- 40_host_interface.md R123: a performed `INWR` defines exactly the byte addressed, `wdata[7:0]`, and nothing else of the machine; the
two refusals. -/
def Obligations.InputByteIsWritten : Prop :=
  ∀ (s : State) (addr wdata : Word),
    decode (.htxn 0b011 addr wdata) = .ok (.inwr addr wdata) ∧
    (addr.toNat < s.params.inCap → s.busy = false →
      ∃ t : State, exec (.inwr addr wdata) s = .next t ∧ t = { s with inbuf := t.inbuf, rdata := none } ∧
        Memory.read t.inbuf addr.toNat = some (wdata.extractLsb' 0 8) ∧
        ∀ a : Nat, a ≠ addr.toNat → Memory.read t.inbuf a = Memory.read s.inbuf a) ∧
    (s.params.inCap ≤ addr.toNat →
      exec (.inwr addr wdata) s = .next { s with herrAcc := true, rdata := none }) ∧
    (addr.toNat < s.params.inCap → s.busy = true →
      exec (.inwr addr wdata) s = .next { s with herrBusy := true, rdata := none })

/-- 40_host_interface.md R124: an output byte below `OUT_LEN`, an unspecified byte at or above it with no flag, and the two refusals. -/
def Obligations.OutputByteIsRead : Prop :=
  ∀ (s : State) (addr : Word),
    (∀ wdata : Word, decode (.htxn 0b100 addr wdata) = .ok (.outrd addr)) ∧
    (addr.toNat < s.params.outCap → s.busy = false → addr.toNat < s.outLen.toNat →
      ∀ b : Byte, Memory.read s.outbuf addr.toNat = some b →
        exec (.outrd addr) s = .next { s with rdata := some (b.zeroExtend 32) }) ∧
    (addr.toNat < s.params.outCap → s.busy = false → s.outLen.toNat ≤ addr.toNat →
      exec (.outrd addr) s = .next { s with
        rdata := some ((Config.unspecified8 s.draws).zeroExtend 32), draws := s.draws + 1 }) ∧
    (s.params.outCap ≤ addr.toNat → exec (.outrd addr) s =
      .next { s with herrAcc := true, rdata := some (Config.unspecified32 s.draws), draws := s.draws + 1 }) ∧
    (addr.toNat < s.params.outCap → s.busy = true → exec (.outrd addr) s =
      .next { s with herrBusy := true, rdata := some (Config.unspecified32 s.draws), draws := s.draws + 1 })

/-- 40_host_interface.md R125: the illegal transactions set `HERR_ACC`, whatever `BUSY` is, and change nothing else; a read answers an
unspecified word. -/
def Obligations.IllegalTransactionsSetOneFlag : Prop :=
  ∀ (s : State) (addr wdata : Word),
    decode (.htxn 0b010 addr wdata) = .ok (.inrd addr) ∧
    decode (.htxn 0b101 addr wdata) = .ok (.outwr addr wdata) ∧
    decode (.htxn 0b110 addr wdata) = .ok (.rsvd3 false addr wdata) ∧
    decode (.htxn 0b111 addr wdata) = .ok (.rsvd3 true addr wdata) ∧
    exec (.inrd addr) s =
      .next { s with herrAcc := true, rdata := some (Config.unspecified32 s.draws), draws := s.draws + 1 } ∧
    exec (.outwr addr wdata) s = .next { s with herrAcc := true, rdata := none } ∧
    exec (.rsvd3 false addr wdata) s =
      .next { s with herrAcc := true, rdata := some (Config.unspecified32 s.draws), draws := s.draws + 1 } ∧
    exec (.rsvd3 true addr wdata) s = .next { s with herrAcc := true, rdata := none }

/-- 40_host_interface.md R120, 60_exceptions.md R236: what each sticky flag is after a transaction; it rises at the one stage that
refuses, and falls only by a performed `CLEAR`. -/
def Obligations.OneFlagPerRefusedTransaction : Prop :=
  ∀ (s t : State) (hdr : BitVec 3) (addr wdata : Word), exec (decodeHeader hdr addr wdata) s = .next t →
    let illegal : Prop := hdr = 0b010 ∨ hdr = 0b101 ∨ hdr = 0b110 ∨ hdr = 0b111 ∨
      ((hdr = 0b000 ∨ hdr = 0b001) ∧ 4 ≤ addr.toNat) ∨ (hdr = 0b001 ∧ (addr = 1 ∨ addr = 3)) ∨
      (hdr = 0b011 ∧ s.params.inCap ≤ addr.toNat) ∨ (hdr = 0b100 ∧ s.params.outCap ≤ addr.toNat)
    let busyRefused : Prop := ¬illegal ∧ s.busy = true ∧ (hdr = 0b001 ∨ hdr = 0b011 ∨ hdr = 0b100)
    let command : Prop := ¬illegal ∧ s.busy = false ∧ hdr = 0b001 ∧ addr = 0
    (t.herrAcc = true ↔ illegal ∨ (s.herrAcc = true ∧ ¬(command ∧ wdata = 2))) ∧
    (t.herrBusy = true ↔ busyRefused ∨ (s.herrBusy = true ∧ ¬(command ∧ wdata = 2))) ∧
    (t.herrCmd = true ↔ (command ∧ 3 ≤ wdata.toNat) ∨ (s.herrCmd = true ∧ ¬(command ∧ wdata = 2))) ∧
    ((illegal ∨ busyRefused) →
      t = { s with herrAcc := t.herrAcc, herrBusy := t.herrBusy, rdata := t.rdata, draws := t.draws })

/-- 20_memory.md R72, 60_exceptions.md R240: while `BUSY = 1` no list of host transactions, of any length, changes anything but the
sticky flags (which only rise) and what the last read answered. -/
def Obligations.HostCannotDisturbAnInvocation : Prop :=
  ∀ (xs : List (BitVec 3 × Word × Word)) (s : State), s.busy = true →
    ∃ t : State, run xs.length { s with input := xs.map txnEvent ++ s.input } = .next t ∧
      t = { s with herrBusy := t.herrBusy, herrAcc := t.herrAcc, rdata := t.rdata, draws := t.draws } ∧
      (s.herrBusy = true → t.herrBusy = true) ∧ (s.herrAcc = true → t.herrAcc = true)

/-! ### Commands -/

/-- 40_host_interface.md R127: `NOP` has no effect when idle, and is refused like every write when busy. -/
def Obligations.NopHasNoEffect : Prop :=
  decode (.cmd 0) = .ok .nop ∧ ∀ s : State,
    (s.busy = false → exec .nop s = .next { s with rdata := none }) ∧
    (s.busy = true → exec .nop s = .next { s with herrBusy := true, rdata := none })

/-- 40_host_interface.md R128: `START` discards the old result and begins an invocation, or fails with `BAD_LENGTH`; busy, it is refused. -/
def Obligations.StartBeginsAnInvocation : Prop :=
  decode (.cmd 1) = .ok .start ∧ ∀ s : State,
    (s.busy = false → s.inLen.toNat ≤ s.params.inCap → exec .start s = .next { s with
      done := false, fail := false, cond := .none, outLen := 0, busy := true, phase := .freq, rdata := none }) ∧
    (s.busy = false → s.params.inCap < s.inLen.toNat → exec .start s = .next { s with
      done := false, fail := true, cond := .badLength, outLen := 0, rdata := none }) ∧
    (s.busy = true → exec .start s = .next { s with herrBusy := true, rdata := none })

/-- 40_host_interface.md R129: `CLEAR` clears the result and the sticky flags, and nothing else; busy, it is refused. -/
def Obligations.ClearAcknowledges : Prop :=
  decode (.cmd 2) = .ok .clear ∧ ∀ s : State,
    (s.busy = false → exec .clear s = .next { s with
      done := false, fail := false, cond := .none, outLen := 0,
      herrBusy := false, herrCmd := false, herrAcc := false, rdata := none }) ∧
    (s.busy = true → exec .clear s = .next { s with herrBusy := true, rdata := none })

/-- 40_host_interface.md R130, 30_encoding.md R95: every command word other than 0, 1, 2 sets `HERR_CMD` alone; busy, it is never
decoded. -/
def Obligations.ReservedCommandsAreRefused : Prop :=
  ∀ (s : State) (w : Word), w ≠ 0 → w ≠ 1 → w ≠ 2 →
    decode (.cmd w) = .error (.reservedCommand w) ∧
    (s.busy = false → exec (.regwr 0 w) s = .next { s with herrCmd := true, rdata := none }) ∧
    (s.busy = true → exec (.regwr 0 w) s = .next { s with herrBusy := true, rdata := none })

/-! ### FrequencyCounter -/

/-- 41_frequency_counter.md R150, R153: from every state `P_FREQ` leaves the frequency table of the input, in order of first occurrence, and
goes to `PHASE = 2`; nothing else changes but `IDX`. -/
def Obligations.FrequencyTableOfTheInput : Prop :=
  ∀ s : State, ∃ t : State, exec .pFreq s = .next t ∧
    t = { s with freq := t.freq, idx := t.idx, phase := .tree } ∧
    (∀ b : Byte, (t.freq.cnt[(symIndex b).val]).toNat = s.inputBytes.count b) ∧
    (∀ b : Byte, b ∈ t.freq.symbols ↔ b ∈ s.inputBytes) ∧
    t.freq.symbols.Pairwise (fun a b => s.inputBytes.idxOf a < s.inputBytes.idxOf b) ∧
    t.freq.symbols.length = t.freq.k.val

/-- 41_frequency_counter.md R154: "table entries sum to input length", no entry is more than it, `K` is at most `min(n, 256)`, and a legal
length is at most `2^24`; R155: `K = 0` if and only if the input is empty. -/
def Obligations.CountsSumToTheLength : Prop :=
  ∀ s t : State, exec .pFreq s = .next t →
    (∀ b : Byte, (t.freq.cnt[(symIndex b).val]).toNat ≤ s.inLen.toNat) ∧
    (s.inLen.toNat ≤ s.params.inCap → s.inLen.toNat ≤ 2 ^ 24) ∧
    ((List.finRange 256).map fun i => (t.freq.cnt[i.val]).toNat).sum = s.inLen.toNat ∧
    t.freq.k.val ≤ min s.inLen.toNat 256 ∧ (t.freq.k.val = 0 ↔ s.inLen = 0)

/-- 41_frequency_counter.md R156: counting the same input from two states, whatever their tables held, leaves the same table. -/
def Obligations.CountingIsIdempotent : Prop :=
  ∀ s₁ s₂ t₁ t₂ : State, s₁.inputBytes = s₂.inputBytes →
    exec .pFreq s₁ = .next t₁ → exec .pFreq s₂ = .next t₂ →
    t₁.freq.cnt = t₂.freq.cnt ∧ t₁.freq.k = t₂.freq.k ∧ t₁.freq.symbols = t₂.freq.symbols

/-! ### PriorityQueue -/

/-- 42_priority_queue.md R164: the appended node moves up its path exactly past the parents whose keys are strictly greater, each of which
moves down one place, in at most `floor(log2(HSIZE))` swaps; nothing else changes. -/
def Obligations.InsertSiftsUpWhileStrictlyLess : Prop :=
  ∀ (s : State) (x : Idx) (h : s.pq.hsize.val < 256),
    ∃ (t : State) (m : Nat), decode (.pqop 0b01 (BitVec.ofNat 9 x.val)) = .ok (.pqInsert (BitVec.ofNat 9 x.val)) ∧
      exec (.pqInsert (BitVec.ofNat 9 x.val)) s = .next t ∧
      t = { s with pq := { s.pq with heap := t.pq.heap, hsize := t.pq.hsize } } ∧
      t.pq.hsize.val = s.pq.hsize.val + 1 ∧
      2 ^ m ≤ t.pq.hsize.val ∧
      let path : Nat → Fin 256 := fun k => heapParent^[k] ⟨s.pq.hsize.val, h⟩
      (∀ k < m, 0 < (path k).val ∧ s.arena.key x < s.arena.key s.pq.heap[(path (k + 1)).val]) ∧
      ((path m).val = 0 ∨ s.arena.key s.pq.heap[(path (m + 1)).val] ≤ s.arena.key x) ∧
      t.pq.heap[(path m).val] = x ∧
      (∀ k < m, t.pq.heap[(path k).val] = s.pq.heap[(path (k + 1)).val]) ∧
      (∀ j : Fin 256, (∀ k ≤ m, path k ≠ j) → t.pq.heap[j.val] = s.pq.heap[j.val])

/-- 42_priority_queue.md R165, R167: an extraction from a heap of two or more returns position 0; the last element goes down from the
root exactly past the candidate children strictly less than it, each of which moves up one place. -/
def Obligations.ExtractSiftsDownWhileStrictlyLess : Prop :=
  ∀ s : State, ∀ n : Fin 256, s.pq.hsize.val = n.val + 1 → 1 ≤ n.val →
    ∃ (t : State) (path : List (Fin 256)) (last : Fin 256), exec .pqExtract s = .next t ∧
      t = { s with pq := t.pq } ∧ t.pq.hsize.val = n.val ∧ t.pq.isNone = false ∧
      t.pq.res.toNat = s.pq.heap[0].val ∧
      path.head? = some 0 ∧ path.getLast? = some last ∧
      path.IsChain (fun i c => Candidate s.arena.key s.pq.heap n.val i c ∧
        s.arena.key s.pq.heap[c.val] < s.arena.key s.pq.heap[n.val] ∧ t.pq.heap[i.val] = s.pq.heap[c.val]) ∧
      t.pq.heap[last.val] = s.pq.heap[n.val] ∧
      (∀ c : Fin 256, Candidate s.arena.key s.pq.heap n.val last c →
        s.arena.key s.pq.heap[n.val] ≤ s.arena.key s.pq.heap[c.val]) ∧
      (∀ j : Fin 256, j ∉ path → t.pq.heap[j.val] = s.pq.heap[j.val])

/-- 42_priority_queue.md R165: an extraction from a heap of one leaves it empty and moves nothing. -/
def Obligations.ExtractOfTheOnlyElement : Prop :=
  ∀ s : State, s.pq.hsize.val = 1 →
    exec .pqExtract s = .next { s with
      pq := { heap := s.pq.heap, hsize := 0, res := BitVec.ofNat 9 s.pq.heap[0].val, isNone := false } }

/-- 42_priority_queue.md R166: an extraction from the empty queue says none, leaves `HEAP` and `HSIZE`, and `PQ_RES` is unspecified. -/
def Obligations.ExtractFromTheEmptyQueue : Prop :=
  ∀ s : State, s.pq.hsize.val = 0 →
    exec .pqExtract s = .next { s with
      pq := { heap := s.pq.heap, hsize := s.pq.hsize, res := Config.unspecified9 s.draws, isNone := true }
      draws := s.draws + 1 }

/-- 42_priority_queue.md R163: the empty heap is in heap order, both operations keep it, and position 0 holds the least key. -/
def Obligations.HeapOrderIsKept : Prop :=
  (∀ s : State, s.pq.hsize.val = 0 → HeapOrder s.arena.key s.pq) ∧
  (∀ (s t : State) (arg : BitVec 9), HeapOrder s.arena.key s.pq → exec (.pqInsert arg) s = .next t →
    HeapOrder t.arena.key t.pq) ∧
  (∀ s t : State, HeapOrder s.arena.key s.pq → exec .pqExtract s = .next t → HeapOrder t.arena.key t.pq) ∧
  (∀ s : State, HeapOrder s.arena.key s.pq → ∀ j : Fin 256, j.val < s.pq.hsize.val →
    s.arena.key s.pq.heap[0] ≤ s.arena.key s.pq.heap[j.val])

/-- 42_priority_queue.md R164, R165: no node is lost or made: an insertion adds its argument, an extraction takes away what it returns. -/
def Obligations.QueueKeepsItsNodes : Prop :=
  (∀ (s t : State) (x : Idx), exec (.pqInsert (BitVec.ofNat 9 x.val)) s = .next t →
    t.pq.items.Perm (x :: s.pq.items)) ∧
  (∀ s t : State, exec .pqExtract s = .next t → t.pq.isNone = false →
    (s.pq.heap[0] :: t.pq.items).Perm s.pq.items)

/-- 42_priority_queue.md R168: successive extractions with no insertion between them return keys in non-decreasing order. -/
def Obligations.ExtractionsAreNonDecreasing : Prop :=
  ∀ (n : Nat) (s : State), HeapOrder s.arena.key s.pq → n ≤ s.pq.hsize.val →
    (extractedKeys n s).length = n ∧ (extractedKeys n s).Pairwise (· ≤ ·)

/-- 42_priority_queue.md R169, 30_encoding.md R101: an insertion into a full heap is refused; an argument that is no arena index is a
fault (the model's stop, log 11). -/
def Obligations.InsertStopsByName : Prop :=
  (∀ (s : State) (x : Idx), s.pq.hsize.val = 256 →
    exec (.pqInsert (BitVec.ofNat 9 x.val)) s = .refused .heapFull) ∧
  (∀ s : State, exec (.pqInsert 511) s = .fault .noSuchNode)

/-! ### TreeBuilder -/

/-- 43_tree_builder.md R185, 60_exceptions.md R227, R232: an empty frequency table raises `EmptyInput`; the result fields are those of
failure entry, and the queue's result is none (`PQ_RES` a free value, log 5). -/
def Obligations.EmptyTableRaisesEmptyInput : Prop :=
  ∀ s : State, s.freq.k.val = 0 →
    exec .pTree s = .next { s with
      arena := { node := s.arena.node, nn := 0 }
      pq := { heap := s.pq.heap, hsize := 0, res := Config.unspecified9 s.draws, isNone := true }
      rootValid := false, draws := s.draws + 1
      outLen := 0, cond := .emptyInput, fail := true, busy := false, phase := .idle }

/-- 43_tree_builder.md R186: with one present symbol the root is its leaf, and no merge takes place. -/
def Obligations.LoneSymbolIsTheRoot : Prop :=
  ∀ s : State, s.freq.k.val = 1 →
    ∃ t : State, exec .pTree s = .next t ∧
      t = { s with arena := t.arena, pq := t.pq, root := 0, rootValid := true, phase := .code } ∧
      t.arena.nn.val = 1 ∧ t.pq.hsize.val = 0 ∧
      t.arena.node[0] = .leaf s.freq.order[0] s.freq.cnt[(symIndex s.freq.order[0]).val]

/-- 43_tree_builder.md R182, R183, R184, R188, R189: with `K ≥ 1` and counts whose sum fits 32 bits, `P_TREE` leaves a tree in the arena:
`2K - 1` nodes, the root last, the leaves at `0 .. K-1` in table order, every frequency the sum of its leaves'. -/
def Obligations.TreeOfTheFrequencyTable : Prop :=
  ∀ s : State, 1 ≤ s.freq.k.val →
    (s.freq.symbols.map fun b => (s.freq.cnt[(symIndex b).val]).toNat).sum < 2 ^ 32 →
    ∃ (t : State) (tree : HuffTree), exec .pTree s = .next t ∧
      t = { s with arena := t.arena, pq := t.pq, root := t.root, rootValid := true, phase := .code } ∧
      t.arena.nn.val + 1 = 2 * s.freq.k.val ∧ t.root.val + 1 = t.arena.nn.val ∧ t.pq.hsize.val = 0 ∧
      (∀ (j : Nat) (hj : j < s.freq.k.val), t.arena.node[j] =
        .leaf s.freq.order[j] s.freq.cnt[(symIndex s.freq.order[j]).val]) ∧
      Holds t.arena.node t.root tree ∧ tree.size = t.arena.nn.val ∧ tree.summed ∧
      tree.leaves.Perm (s.freq.symbols.map fun b => (b, s.freq.cnt[(symIndex b).val]))

/-- 43_tree_builder.md R180, R183: every internal node joins the two nodes of least frequency among those that have no parent when it is
made, the least one left, and its own frequency is their sum. -/
def Obligations.TreeMergesTheTwoLeast : Prop :=
  ∀ s : State, 1 ≤ s.freq.k.val →
    (s.freq.symbols.map fun b => (s.freq.cnt[(symIndex b).val]).toNat).sum < 2 ^ 32 →
    ∃ t : State, exec .pTree s = .next t ∧ ∀ i : Idx, s.freq.k.val ≤ i.val → i.val < t.arena.nn.val →
      ∃ (f : Word) (l r : Idx), t.arena.node[i.val] = .internal f l r ∧ l < i ∧ r < i ∧ l ≠ r ∧
        Unowned t.arena.node i l ∧ Unowned t.arena.node i r ∧
        f.toNat = (t.arena.key l).toNat + (t.arena.key r).toNat ∧ t.arena.key l ≤ t.arena.key r ∧
        ∀ j : Idx, j < i → j ≠ l → j ≠ r → Unowned t.arena.node i j → t.arena.key r ≤ t.arena.key j

/-- 43_tree_builder.md R181 to R184: `P_TREE` is its pseudocode over the queue's instructions: from an empty arena and an empty queue, one
leaf placed per symbol in table order, then, while more than one node is queued, `PQ_EXTRACT` twice (left, then right) and the new node
placed, then the root by one more `PQ_EXTRACT`. No other comparison is made, so ties fall as the queue's rules say (R187). -/
def Obligations.TreeIsBuiltByTheQueue : Prop :=
  ∀ s : State, (s.freq.symbols.map fun b => (s.freq.cnt[(symIndex b).val]).toNat).sum < 2 ^ 32 →
    ∃ (u : Nat → State) (v : State),
      u 0 = { s with arena := { s.arena with nn := 0 }, pq := { s.pq with hsize := 0 }, rootValid := false } ∧
      (∀ (j : Nat) (hj : j < s.freq.k.val),
        placeNode (.leaf s.freq.order[j] s.freq.cnt[(symIndex s.freq.order[j]).val]) (u j) = some (u (j + 1))) ∧
      (∀ j : Nat, j + 1 < s.freq.k.val →
        1 < (u (s.freq.k.val + j)).pq.hsize.val ∧ mergeTwo (u (s.freq.k.val + j)) = some (u (s.freq.k.val + j + 1))) ∧
      (u (2 * s.freq.k.val - 1)).pq.hsize.val ≤ 1 ∧ exec .pqExtract (u (2 * s.freq.k.val - 1)) = .next v ∧
      (v.pq.isNone = true → exec .pTree s =
        .next { v with outLen := 0, cond := .emptyInput, fail := true, busy := false, phase := .idle }) ∧
      (v.pq.isNone = false → ∃ r : Idx, argNode v.pq.res = some r ∧
        exec .pTree s = .next { v with root := r, rootValid := true, phase := .code })

/-! ### CodeTableBuilder -/

/-- 44_code_table_builder.md R197: a lone leaf gets the one-digit code "0", `DEGEN` is set, and the stack is not used. -/
def Obligations.LoneSymbolGetsOneDigit : Prop :=
  ∀ (s : State) (sym : Byte) (f : Word), s.rootValid = true → s.arena.node[s.root.val] = .leaf sym f →
    ∃ t : State, exec .pCode s = .next t ∧
      t = { s with walk := t.walk, degen := true, phase := .pack } ∧
      t.walk.stack = s.walk.stack ∧ t.walk.sp.val = 0 ∧
      t.walk.code[(symIndex sym).val] = some [false] ∧
      ∀ b : Byte, b ≠ sym → t.walk.code[(symIndex b).val] = none

/-- 44_code_table_builder.md R198, R199, R200: on a tree with an internal root every leaf's symbol gets its path, left 0, right 1, and no
other symbol a code; the stack ends empty. -/
def Obligations.CodesAreThePathsOfTheTree : Prop :=
  ∀ (s : State) (f : Word) (l r : HuffTree), s.rootValid = true → Holds s.arena.node s.root (.node f l r) →
    (HuffTree.node f l r).size ≤ 511 → ((HuffTree.node f l r).leaves.map Prod.fst).Nodup →
    ∃ t : State, exec .pCode s = .next t ∧
      t = { s with walk := t.walk, degen := false, phase := .pack } ∧ t.walk.sp.val = 0 ∧
      ∀ (b : Byte) (c : Code), t.walk.code[(symIndex b).val] = some c ↔ (b, c) ∈ (HuffTree.node f l r).codes

/-- 44_code_table_builder.md R202: from every state with a legal length and at least two distinct input bytes, the three phases that build
the code table leave one that is prefix-free and gives every input byte a code. -/
def Obligations.CodeTableIsPrefixFree : Prop :=
  ∀ s : State, s.inLen.toNat ≤ s.params.inCap → (∃ a ∈ s.inputBytes, ∃ b ∈ s.inputBytes, a ≠ b) →
    ∃ t₁ t₂ t₃ : State, exec .pFreq s = .next t₁ ∧ exec .pTree t₁ = .next t₂ ∧ exec .pCode t₂ = .next t₃ ∧
      t₃.phase = .pack ∧ PrefixFree t₃.walk.code ∧ Coded t₃.walk.code s.inputBytes ∧
      ∀ b : Byte, b ∉ s.inputBytes → t₃.walk.code[(symIndex b).val] = none

/-- 10_state.md R28: `P_CODE` with `ROOT_VALID = 0` has no root to read and stops by name (the model's stop, log 11). -/
def Obligations.NoRootIsAFault : Prop :=
  ∀ s : State, s.rootValid = false → exec .pCode s = .fault .rootInvalid

/-! ### BitPacker -/

/-- 30_encoding.md R104, R105, R107, 45_bit_packer.md R215, 40_host_interface.md R132: where every input byte has a code and the output
fits, `P_PACK` leaves the packed stream, most significant bit first, zero-padded, and completes; no byte past `OUT_LEN` is touched. The last `ACC` and `IDX` are
inferred (log 9). -/
def Obligations.PackedOutputOfTheStream : Prop :=
  ∀ s : State, (∀ b ∈ s.inputBytes, s.walk.code[(symIndex b).val] ≠ none) →
    (stream s.walk.code s.inputBytes).length < 2 ^ 32 →
    bytesFor (stream s.walk.code s.inputBytes).length ≤ s.params.outCap →
    ∃ t : State, exec .pPack s = .next t ∧
      t = { s with
        outbuf := t.outbuf
        bits := BitVec.ofNat 32 (stream s.walk.code s.inputBytes).length, acc := 0, idx := s.inLen
        outLen := BitVec.ofNat 32 (((stream s.walk.code s.inputBytes).length + 7) / 8)
        cond := if s.degen then .degenerateAlphabet else .none
        done := true, busy := false, phase := .idle } ∧
      Packed t.outbuf (stream s.walk.code s.inputBytes) ∧
      ∀ a : Nat, bytesFor (stream s.walk.code s.inputBytes).length ≤ a →
        Memory.read t.outbuf a = Memory.read s.outbuf a

/-- 45_bit_packer.md R216, 60_exceptions.md R230, R232: `P_PACK` raises `OutOverflow` if and only if the packed output needs more than
`OUT_CAP` bytes; then nothing is stored at or past `OUT_CAP`. -/
def Obligations.OutputTooLongOverflows : Prop :=
  ∀ s : State, (∀ b ∈ s.inputBytes, s.walk.code[(symIndex b).val] ≠ none) →
    (stream s.walk.code s.inputBytes).length < 2 ^ 32 →
    ∃ t : State, exec .pPack s = .next t ∧
      (t.cond = .outOverflow ↔ s.params.outCap < bytesFor (stream s.walk.code s.inputBytes).length) ∧
      (s.params.outCap < bytesFor (stream s.walk.code s.inputBytes).length →
        t = { s with
          outbuf := t.outbuf, bits := t.bits, acc := t.acc, idx := t.idx
          outLen := 0, cond := .outOverflow, fail := true, busy := false, phase := .idle }) ∧
      ∀ a : Nat, s.params.outCap ≤ a → Memory.read t.outbuf a = Memory.read s.outbuf a

/-- 45_bit_packer.md R219: a lookup that finds `CVALID = 0` is a fault: `P_PACK` never invents digits (its name: log 11). -/
def Obligations.MissingCodeIsAFault : Prop :=
  ∀ (s : State) (before after : List Byte) (b : Byte), s.inputBytes = before ++ b :: after →
    (∀ x ∈ before, s.walk.code[(symIndex x).val] ≠ none) → s.walk.code[(symIndex b).val] = none →
    (stream s.walk.code before).length < 2 ^ 32 →
    (stream s.walk.code before).length / 8 ≤ s.params.outCap →
    exec .pPack s = .fault .codeMissing

/-! ### Failure, completion, reset -/

/-- 60_exceptions.md R226, R232, R233: whenever a core step ends an invocation in a failure, the host-visible state is fully determined: the
condition is that of the phase, `DONE` is 0 as in every state of a running invocation (10_state.md R23), the other result fields,
`IN_LEN`, `INBUF` and the sticky flags are as said, and every byte of `OUTBUF` reads as unspecified (40_host_interface.md R124). -/
def Obligations.FailureIsPrecise : Prop :=
  ∀ (s t : State) (i : Instr), (i = .pFreq ∨ i = .pTree ∨ i = .pCode ∨ i = .pPack) → s.fail = false →
    exec i s = .next t → t.fail = true →
    ((i = .pTree ∧ t.cond = .emptyInput) ∨ (i = .pPack ∧ t.cond = .outOverflow)) ∧
      t.busy = false ∧ t.done = s.done ∧ (Relations s → s.busy = true → t.done = false) ∧ t.outLen = 0 ∧
      (∀ addr : Word, addr.toNat < t.params.outCap → exec (.outrd addr) t = .next { t with
        rdata := some ((Config.unspecified8 t.draws).zeroExtend 32), draws := t.draws + 1 }) ∧
      t.phase = .idle ∧ t.inLen = s.inLen ∧ t.inbuf = s.inbuf ∧
      t.herrBusy = s.herrBusy ∧ t.herrCmd = s.herrCmd ∧ t.herrAcc = s.herrAcc

/-- 20_memory.md R78: no core step writes `IN_LEN`, `INBUF` or a sticky flag, and only `P_PACK` writes `OUTBUF`. -/
def Obligations.CoreKeepsWhatTheHostOwns : Prop :=
  ∀ (s t : State) (i : Instr), (i = .pFreq ∨ i = .pTree ∨ i = .pCode ∨ i = .pPack) → exec i s = .next t →
    t.inLen = s.inLen ∧ t.inbuf = s.inbuf ∧ t.params = s.params ∧ t.rdata = s.rdata ∧ t.input = s.input ∧
      t.herrBusy = s.herrBusy ∧ t.herrCmd = s.herrCmd ∧ t.herrAcc = s.herrAcc ∧ t.epoch = s.epoch ∧
      (i ≠ .pPack → t.outbuf = s.outbuf)

/-- 10_state.md R50, R51, 70_reset_and_hazards.md R260, R262: `rst`, at any time, leaves every register at its reset value and every byte
of both buffers unspecified; so does power-on. That the parameters and the events to come stay is the model's (logs 4 and 8). -/
def Obligations.ResetLeavesTheResetValues : Prop :=
  ∀ (s : State) (rest : List Event), ∃ t : State,
    step { s with input := .rst :: rest } = .next t ∧ t.params = s.params ∧ t.input = rest ∧
    ∀ u : State, (u = t ∨ u = State.reset) →
      u.busy = false ∧ u.done = false ∧ u.fail = false ∧ u.cond = .none ∧ u.herrBusy = false ∧
      u.herrCmd = false ∧ u.herrAcc = false ∧ u.phase = .idle ∧ u.inLen = 0 ∧ u.outLen = 0 ∧ u.status = 0 ∧
      ∀ a : Nat, Memory.read u.inbuf a = none ∧ Memory.read u.outbuf a = none

/-! ### Rules about every step -/

/-- 10_state.md R24: `IN_LEN` changes only by a performed `REGWR` of index 2, to the word written, and by reset. -/
def Obligations.InLenChangesOnlyByItsWrite : Prop :=
  ∀ s t : State, step s = .next t → t.inLen ≠ s.inLen →
    (∃ rest, s.input = .rst :: rest) ∨ (s.busy = false ∧ ∃ rest, s.input = .txn 0b001 2 t.inLen :: rest)

/-- 60_exceptions.md R236, 40_host_interface.md R120: a sticky flag that falls has been cleared by a performed `CLEAR` or by reset. -/
def Obligations.StickyFlagsFallOnlyByClearOrReset : Prop :=
  ∀ s t : State, step s = .next t →
    ((s.herrBusy = true ∧ t.herrBusy = false) ∨ (s.herrCmd = true ∧ t.herrCmd = false) ∨
      (s.herrAcc = true ∧ t.herrAcc = false)) →
    (∃ rest, s.input = .rst :: rest) ∨
      (s.busy = false ∧ ∃ rest, s.input = .txn 0b001 0 2 :: rest ∨ s.input = .cmd 2 :: rest)

/-- 10_state.md R27: the only transitions of `PHASE`, and what makes each: reset, an accepted `START`, or the core's step. The relations of R23 rule out a busy machine at `IDLE`. -/
def Obligations.PhaseTransitions : Prop :=
  ∀ s t : State, Relations s → step s = .next t → t.phase ≠ s.phase →
    (Resets s ∧ t.phase = .idle) ∨
    (Commands 1 s ∧ s.inLen.toNat ≤ s.params.inCap ∧ s.phase = .idle ∧ t.phase = .freq ∧ t.busy = true) ∨
    (CoreSteps s ∧
      ((s.phase = .freq ∧ t.phase = .tree) ∨
        (s.phase = .tree ∧ t.phase = .code) ∨
        (s.phase = .tree ∧ t.phase = .idle ∧ t.fail = true ∧ t.cond = .emptyInput) ∨
        (s.phase = .code ∧ t.phase = .pack) ∨
        (s.phase = .pack ∧ t.phase = .idle ∧ (t.done = true ∨ (t.fail = true ∧ t.cond = .outOverflow)))))

/-- 10_state.md R22, R25, 60_exceptions.md R235: `BUSY`, `DONE`, `FAIL`, `COND` and `OUT_LEN` change only by reset, by a performed `START` or
`CLEAR`, and by the core step that ends an invocation. -/
def Obligations.ResultChangesOnlyByItsWriters : Prop :=
  ∀ s t : State, step s = .next t →
    let ends : Prop := CoreSteps s ∧ t.busy = false ∧
      ((s.phase = .pack ∧ (t.done = true ∨ (t.fail = true ∧ t.cond = .outOverflow))) ∨
        (s.phase = .tree ∧ t.fail = true ∧ t.cond = .emptyInput))
    (t.busy ≠ s.busy → Resets s ∨ (Commands 1 s ∧ t.busy = true) ∨ ends) ∧
    ((t.done ≠ s.done ∨ t.fail ≠ s.fail ∨ t.cond ≠ s.cond ∨ t.outLen ≠ s.outLen) →
      Resets s ∨ Commands 1 s ∨ Commands 2 s ∨ ends)

/-- 60_exceptions.md R235, 70_reset_and_hazards.md R274: a finished result stays, flags, length and output bytes, over events of every kind
and number, until a `START`, a `CLEAR` or reset. -/
def Obligations.FinishedResultStays : Prop :=
  ∀ (xs : List Event) (s t : State), s.busy = false →
    (∀ e ∈ xs, e ≠ .rst ∧ e ≠ .txn 0b001 0 1 ∧ e ≠ .cmd 1 ∧ e ≠ .txn 0b001 0 2 ∧ e ≠ .cmd 2) →
    run xs.length { s with input := xs ++ s.input } = .next t →
    t.busy = false ∧ t.done = s.done ∧ t.fail = s.fail ∧ t.cond = s.cond ∧ t.outLen = s.outLen ∧
      (∀ j : Nat, t.outByte j = s.outByte j) ∧ t.input = s.input

/-- 10_state.md R52: the parameters of an instance never change. -/
def Obligations.ParametersNeverChange : Prop :=
  ∀ s t : State, step s = .next t → t.params = s.params

/-- 10_state.md R33, R34: `INBUF` changes only by a performed `INWR`, in the one byte addressed, or by reset; `OUTBUF` only by the
core's step `P_PACK` or by reset. -/
def Obligations.BuffersChangeOnlyByTheirWriters : Prop :=
  ∀ s t : State, step s = .next t → (∀ rest, s.input ≠ .rst :: rest) →
    ((∀ a : Nat, Memory.read t.inbuf a = Memory.read s.inbuf a) ∨
      (s.busy = false ∧ ∃ (addr wdata : Word) (rest : List Event),
        s.input = .txn 0b011 addr wdata :: rest ∧ addr.toNat < s.params.inCap ∧
        Memory.read t.inbuf addr.toNat = some (wdata.extractLsb' 0 8) ∧
        ∀ a : Nat, a ≠ addr.toNat → Memory.read t.inbuf a = Memory.read s.inbuf a)) ∧
    ((∀ a : Nat, Memory.read t.outbuf a = Memory.read s.outbuf a) ∨
      (CoreSteps s ∧ s.phase = .pack ∧
        ∀ a : Nat, s.params.outCap ≤ a → Memory.read t.outbuf a = Memory.read s.outbuf a))

/-! ### The invariant -/

/-- 10_state.md R23, R50: the machine at reset meets the invariant, for every instance and every list of events to come. -/
def Obligations.ResetMeetsTheInvariant : Prop :=
  Inv State.reset ∧ ∀ (p : Params) (script : List Event), Inv (bootWith p script)

/-- 10_state.md R23, R43, 20_memory.md R76: every step keeps the invariant, from every state that meets it. -/
def Obligations.EveryStepKeepsTheInvariant : Prop :=
  ∀ s t : State, Inv s → step s = .next t → Inv t

/-- 60_exceptions.md R231, 70_reset_and_hazards.md R273: from every state that meets the invariant the machine goes on, whatever the host does
next: no fault, no refusal. -/
def Obligations.TheMachineNeverStops : Prop :=
  ∀ s : State, Inv s → NoQueueDrive s → ∃ t : State, step s = .next t

/-- 10_state.md R23: the relations hold in every state a run reaches from reset, whatever the instance, the host's transactions, the
interleaving and the resets. -/
def Obligations.RelationsHoldInEveryReachableState : Prop :=
  ∀ (p : Params) (script : List Event) (n : Nat) (t : State), run n (bootWith p script) = .next t → Relations t

/-! ### Invocations -/

/-- 40_host_interface.md R131, 70_reset_and_hazards.md R276: the result of an invocation as a function of its input, from every idle state: the
three failures, and otherwise the packed stream of a prefix-free code of the input's bytes. -/
def Obligations.ResultOfAnInvocation : Prop :=
  ∀ s : State, s.busy = false → s.phase = .idle → ∃ t : State, run 5 (launch s) = .next t ∧
    t.busy = false ∧ t.phase = .idle ∧ t.input = s.input ∧ t.inLen = s.inLen ∧ t.inbuf = s.inbuf ∧
    (s.params.inCap < s.inLen.toNat → t.done = false ∧ t.fail = true ∧ t.cond = .badLength ∧ t.outLen = 0) ∧
    (s.inLen = 0 → t.done = false ∧ t.fail = true ∧ t.cond = .emptyInput ∧ t.outLen = 0) ∧
    (s.inLen ≠ 0 → s.inLen.toNat ≤ s.params.inCap →
      Coded t.walk.code s.inputBytes ∧ PrefixFree t.walk.code ∧
      (bytesFor (stream t.walk.code s.inputBytes).length ≤ s.params.outCap →
        t.done = true ∧ t.fail = false ∧
        t.cond = (if t.freq.k.val = 1 then .degenerateAlphabet else .none) ∧
        t.outLen.toNat = bytesFor (stream t.walk.code s.inputBytes).length ∧
        Packed t.outbuf (stream t.walk.code s.inputBytes)) ∧
      (s.params.outCap < bytesFor (stream t.walk.code s.inputBytes).length →
        t.done = false ∧ t.fail = true ∧ t.cond = .outOverflow ∧ t.outLen = 0))

/-- 60_exceptions.md R228, 45_bit_packer.md R220: an input of one distinct byte value ends with `DONE = 1`, `COND = 2` and `ceil(n / 8)` bytes
of zeros, where they fit. -/
def Obligations.DegenerateAlphabetGivesZeros : Prop :=
  ∀ (s : State) (b : Byte), s.busy = false → s.phase = .idle → s.inLen ≠ 0 → s.inLen.toNat ≤ s.params.inCap →
    s.inputBytes = List.replicate s.inLen.toNat b → bytesFor s.inLen.toNat ≤ s.params.outCap →
    ∃ t : State, run 5 (launch s) = .next t ∧ t.done = true ∧ t.fail = false ∧ t.cond = .degenerateAlphabet ∧
      t.outLen.toNat = bytesFor s.inLen.toNat ∧
      ∀ j < bytesFor s.inLen.toNat, Memory.read t.outbuf j = some 0

/-- 00_scope.md R3, R4: the outcome is a function of the parameters and the input alone: two idle machines with the same of both end alike,
whatever else they hold. -/
def Obligations.OutcomeDependsOnTheInputAlone : Prop :=
  ∀ s₁ s₂ : State, s₁.busy = false → s₂.busy = false → s₁.phase = .idle → s₂.phase = .idle →
    s₁.params = s₂.params → s₁.inLen = s₂.inLen → s₁.inputBytes = s₂.inputBytes →
    ∃ t₁ t₂ : State, run 5 (launch s₁) = .next t₁ ∧ run 5 (launch s₂) = .next t₂ ∧ sameOutcome t₁ t₂

/-- 20_memory.md R72, 70_reset_and_hazards.md R272: the host's transactions between the core's steps, whatever they are, change nothing of
the outcome: every interleaving ends alike. -/
def Obligations.EveryInterleavingEndsAlike : Prop :=
  ∀ (s : State) (x₁ x₂ x₃ x₄ : List (BitVec 3 × Word × Word)),
    s.busy = false → s.phase = .idle → s.inLen ≠ 0 → s.inLen.toNat ≤ s.params.inCap →
    ∃ t u : State, run 5 (launch s) = .next t ∧
      run (5 + x₁.length + x₂.length + x₃.length + x₄.length) (interleaved s x₁ x₂ x₃ x₄) = .next u ∧
      sameOutcome t u ∧ u.busy = false ∧ u.inLen = t.inLen ∧ u.inbuf = t.inbuf

/-- 70_reset_and_hazards.md R273: from every busy state that meets the invariant the invocation ends within four core steps, with exactly one
of `DONE` and `FAIL` set; that the core steps when no event is to come is the model's (log 1). -/
def Obligations.InvocationsTerminate : Prop :=
  ∀ s : State, Inv s → s.busy = true → s.input = [] →
    ∃ n ≤ 4, ∃ t : State, run n s = .next t ∧ t.busy = false ∧ (t.done = true ↔ t.fail = false)

/-! ### Record layouts -/

/-- 30_encoding.md R102: an entry of `CODE` written out in its 264 bits has its fields where the layout puts them, and reads back, whatever
fills the unspecified bits of an invalid one. -/
def Obligations.CodeRecordRoundTrip : Prop :=
  ∀ (free : BitVec 263) (c : Option Code), (∀ d, c = some d → d.length ≤ 255) →
    codeOfDump (codeDump free c) = c ∧
    (c = none → (codeDump free c).getLsbD 263 = false) ∧
    ∀ d : Code, c = some d →
      (codeDump free c).getLsbD 263 = true ∧ ((codeDump free c).extractLsb' 255 8).toNat = d.length ∧
      (∀ (j : Nat) (hj : j < d.length), (codeDump free c).getLsbD (254 - j) = d[j]) ∧
      ∀ k : Nat, k < 255 - d.length → (codeDump free c).getLsbD k = false
end

