-- ==== Sys2Proof/Laws/Queue.lean ====
section
/-! SUPPORT. The PriorityQueue: what an insertion and an extraction do, once. -/

namespace Sys2Proof.Machine

variable (key : Idx → Word)

@[simp] theorem heapParent_val (i : Fin 256) : (heapParent i).val = (i.val - 1) / 2 := rfl

/-- Heap order over the first `n` positions of a table. -/
def OrderedBelow (n : Nat) (h : Vector Idx 256) : Prop :=
  ∀ j : Fin 256, 1 ≤ j.val → j.val < n → key h[(heapParent j).val] ≤ key h[j.val]

theorem heapOrder_iff (q : PQueue) : HeapOrder key q ↔ OrderedBelow key q.hsize.val q.heap := Iff.rfl

/-! ### Sifting moves entries about below the end of the heap and loses none -/

theorem siftUp_perm (n : Nat) (h : Vector Idx 256) (i : Fin 256) : (siftUp key n h i).Perm h := by
  induction n generalizing h i with
  | zero => exact .rfl
  | succ n ih =>
    unfold siftUp
    split
    · exact (ih _ _).trans (Vector.swap_perm _ _)
    · exact .rfl

theorem siftUp_above (n : Nat) (h : Vector Idx 256) (i : Fin 256) (j : Nat) (hj : j < 256) (hij : i.val < j) :
    (siftUp key n h i)[j] = h[j] := by
  induction n generalizing h i with
  | zero => rfl
  | succ n ih =>
    unfold siftUp
    split
    · rw [ih _ _ (by simp; omega), Vector.getElem_swap_of_ne] <;> simp <;> omega
    · rfl

/-- The candidate child of a position: a child inside the heap whose key is least among the children. -/
theorem heapChild_some {h : Vector Idx 256} {size : Fin 257} {i c : Fin 256} (hc : heapChild key h size i = some c) :
    c.val < size.val ∧ i.val < c.val ∧ heapParent c = i ∧
      ∀ j : Fin 256, 1 ≤ j.val → j.val < size.val → heapParent j = i → key h[c.val] ≤ key h[j.val] := by
  unfold heapChild at hc
  have two : ∀ j : Fin 256, 1 ≤ j.val → heapParent j = i → j.val = 2 * i.val + 1 ∨ j.val = 2 * i.val + 2 := by
    intro j hj hp
    have := congrArg Fin.val hp
    simp only [heapParent_val] at this
    omega
  split at hc
  · split at hc
    · split at hc
      all_goals
        rename_i hlt
        simp only [Option.some.injEq] at hc
        subst hc
        refine ⟨by simp only; omega, by simp only; omega, by apply Fin.ext; simp only [heapParent_val]; omega, ?_⟩
        intro j hj hjs hp
        rcases two j hj hp with e | e
        all_goals
          simp only [e]
          simp only [BitVec.lt_def, BitVec.le_def] at hlt ⊢
          omega
    · simp only [Option.some.injEq] at hc
      subst hc
      refine ⟨by simp only; omega, by simp only; omega, by apply Fin.ext; simp only [heapParent_val]; omega, ?_⟩
      intro j hj hjs hp
      rcases two j hj hp with e | e
      · simp only [e]; exact BitVec.le_refl _
      · omega
  · simp at hc

theorem heapChild_none {h : Vector Idx 256} {size : Fin 257} {i : Fin 256} (hc : heapChild key h size i = none)
    (j : Fin 256) (h1 : 1 ≤ j.val) (hj : j.val < size.val) : heapParent j ≠ i := by
  intro hp
  have := congrArg Fin.val hp
  simp only [heapParent_val] at this
  unfold heapChild at hc
  split at hc
  · split at hc
    · split at hc <;> simp at hc
    · simp at hc
  · omega

theorem siftDown_perm (size : Fin 257) (n : Nat) (h : Vector Idx 256) (i : Fin 256) :
    (siftDown key size n h i).Perm h := by
  induction n generalizing h i with
  | zero => exact .rfl
  | succ n ih =>
    unfold siftDown
    split
    · exact .rfl
    · split
      · exact (ih _ _).trans (Vector.swap_perm _ _)
      · exact .rfl

theorem siftDown_none {size : Fin 257} {n : Nat} {h : Vector Idx 256} {i : Fin 256}
    (hc : heapChild key h size i = none) : siftDown key size (n + 1) h i = h := by
  rw [siftDown, hc]

theorem siftDown_some {size : Fin 257} {n : Nat} {h : Vector Idx 256} {i c : Fin 256}
    (hc : heapChild key h size i = some c) : siftDown key size (n + 1) h i =
      if key h[c.val] < key h[i.val] then siftDown key size n (h.swap i.val c.val) c else h := by
  rw [siftDown, hc]

theorem siftDown_above (size : Fin 257) (n : Nat) (h : Vector Idx 256) (i : Fin 256) (j : Nat) (hj : j < 256)
    (hi : i.val < size.val) (hs : size.val ≤ j) : (siftDown key size n h i)[j] = h[j] := by
  induction n generalizing h i with
  | zero => rfl
  | succ n ih =>
    cases hc : heapChild key h size i with
    | none => rw [siftDown_none key hc]
    | some c =>
      have hc' := heapChild_some key hc
      rw [siftDown_some key hc]
      split
      · rw [ih _ _ hc'.1, Vector.getElem_swap_of_ne] <;> omega
      · rfl

/-! ### Sifting restores heap order -/

theorem key_congr (h : Vector Idx 256) {a b : Fin 256} (e : a = b) : key h[a.val] = key h[b.val] := by subst e; rfl

theorem word_lt_of_lt_of_le {a b c : Word} (h1 : a < b) (h2 : b ≤ c) : a < c := by
  simp only [BitVec.lt_def, BitVec.le_def] at *; omega

/-- Heap order but for the one position `i`, whose children are not below its parent. -/
def OrderedBut (n : Nat) (i : Fin 256) (h : Vector Idx 256) : Prop :=
  (∀ j : Fin 256, 1 ≤ j.val → j.val < n → j ≠ i → key h[(heapParent j).val] ≤ key h[j.val]) ∧
  (∀ j : Fin 256, 1 ≤ j.val → j.val < n → heapParent j = i → 1 ≤ i.val → key h[(heapParent i).val] ≤ key h[j.val])

theorem siftUp_ordered (size n : Nat) (h : Vector Idx 256) (i : Fin 256) (hn : i.val ≤ n)
    (hi : OrderedBut key size i h) : OrderedBelow key size (siftUp key n h i) := by
  induction n generalizing h i with
  | zero =>
    intro j h1 hj
    exact hi.1 j h1 hj (by rintro rfl; omega)
  | succ n ih =>
    unfold siftUp
    split
    · rename_i hc
      obtain ⟨hpos, hlt⟩ := hc
      apply ih _ _ (by simp; omega)
      have hpi : (heapParent i).val < i.val := by simp; omega
      have sw : ∀ k : Fin 256, (h.swap i.val (heapParent i).val)[k.val] =
          if k = i then h[(heapParent i).val] else if k = heapParent i then h[i.val] else h[k.val] := by
        intro k
        rw [Vector.getElem_swap]
        simp only [Fin.ext_iff]
      constructor
      · intro j h1 hj hne
        rw [sw, sw]
        by_cases hji : j = i
        · subst hji
          have : heapParent j ≠ j := by intro e; rw [e] at hpi; omega
          simp only [this, if_true, if_false]
          exact BitVec.le_of_lt hlt
        · simp only [hji, hne, if_false]
          split
          · rename_i hp
            exact hi.2 j h1 hj hp hpos
          · split
            · rename_i _ hp
              exact BitVec.le_of_lt (word_lt_of_lt_of_le hlt (by rw [← key_congr key h hp]; exact hi.1 j h1 hj hji))
            · exact hi.1 j h1 hj hji
      · intro j h1 hj hp hpp
        rw [sw, sw]
        have hgp : (heapParent (heapParent i)).val < (heapParent i).val := by simp at hpp ⊢; omega
        have e1 : heapParent (heapParent i) ≠ i := by intro e; rw [e] at hgp; omega
        have e2 : heapParent (heapParent i) ≠ heapParent i := by intro e; rw [e] at hgp; omega
        have e3 : j ≠ heapParent i := by
          intro e
          have := congrArg Fin.val hp
          rw [e] at this
          omega
        have base : key h[(heapParent (heapParent i)).val] ≤ key h[(heapParent i).val] := by
          apply hi.1 (heapParent i) hpp (by
            have := congrArg Fin.val hp; simp only [heapParent_val] at this ⊢; omega)
          intro e; rw [e] at hpi; omega
        simp only [e1, e2, e3, if_false]
        split
        · exact base
        · rename_i hji
          refine BitVec.le_trans base ?_
          rw [← key_congr key h hp]
          exact hi.1 j h1 hj hji
    · rename_i hc
      intro j h1 hj
      by_cases hji : j = i
      · subst hji
        simp only [not_and, BitVec.not_lt] at hc
        exact hc (by omega)
      · exact hi.1 j h1 hj hji

/-- Heap order but for the children of position `i`, which are not below `i`'s parent. -/
def OrderedButBelow (n : Nat) (i : Fin 256) (h : Vector Idx 256) : Prop :=
  (∀ j : Fin 256, 1 ≤ j.val → j.val < n → heapParent j ≠ i → key h[(heapParent j).val] ≤ key h[j.val]) ∧
  (∀ j : Fin 256, 1 ≤ j.val → j.val < n → heapParent j = i → 1 ≤ i.val → key h[(heapParent i).val] ≤ key h[j.val])

theorem siftDown_ordered (size : Fin 257) (n : Nat) (h : Vector Idx 256) (i : Fin 256) (hn : size.val ≤ i.val + n)
    (his : i.val < size.val) (hi : OrderedButBelow key size.val i h) :
    OrderedBelow key size.val (siftDown key size n h i) := by
  induction n generalizing h i with
  | zero => omega
  | succ n ih =>
    unfold siftDown
    split
    · rename_i hc
      intro j h1 hj
      exact hi.1 j h1 hj (heapChild_none key hc j h1 hj)
    · rename_i c hc
      obtain ⟨hcs, hic, hpc, hmin⟩ := heapChild_some key hc
      split
      · rename_i hlt
        apply ih _ _ (by omega) hcs
        have sw : ∀ k : Fin 256, (h.swap i.val c.val)[k.val] =
            if k = i then h[c.val] else if k = c then h[i.val] else h[k.val] := by
          intro k
          rw [Vector.getElem_swap]
          simp only [Fin.ext_iff]
        have hci : c ≠ i := by rintro rfl; omega
        constructor
        · intro j h1 hj hne
          rw [sw, sw]
          by_cases hjc : j = c
          · subst hjc
            simp only [hpc, hci, if_true, if_false]
            exact BitVec.le_of_lt hlt
          · by_cases hji : j = i
            · subst hji
              have hp : heapParent j ≠ j := by
                intro e; have := congrArg Fin.val e; simp at this; omega
              simp only [hp, hne, if_true, if_false]
              exact hi.2 c (by omega) hcs hpc h1
            · simp only [hjc, hji, hne, if_false]
              split
              · rename_i hp
                exact hmin j h1 hj hp
              · exact hi.1 j h1 hj ‹_›
        · intro j h1 hj hp hc1
          rw [sw, sw]
          have hjc : j ≠ c := by
            intro e; have := congrArg Fin.val hp; rw [e] at this; simp at this; omega
          have hji : j ≠ i := by
            intro e; have := congrArg Fin.val hp; rw [e] at this; simp at this; omega
          simp only [hpc, hjc, hji, if_true, if_false]
          have : heapParent j ≠ i := by rw [hp]; exact hci
          have := hi.1 j h1 hj this
          rwa [key_congr key h hp] at this
      · rename_i hlt
        intro j h1 hj
        by_cases hp : heapParent j = i
        · rw [key_congr key h hp]
          simp only [BitVec.not_lt] at hlt
          exact BitVec.le_trans hlt (hmin j h1 hj hp)
        · exact hi.1 j h1 hj hp

/-- In an ordered table the first entry is least. -/
theorem OrderedBelow.root_least {n : Nat} {h : Vector Idx 256} (ho : OrderedBelow key n h) (j : Nat) (hj : j < 256)
    (hjn : j < n) : key h[0] ≤ key h[j] := by
  induction j using Nat.strongRecOn with
  | ind j ih =>
    by_cases h0 : j = 0
    · subst h0; exact BitVec.le_refl _
    · have hp : (j - 1) / 2 < j := by omega
      exact BitVec.le_trans (ih _ hp (by omega) (by omega)) (ho ⟨j, hj⟩ (by simp; omega) hjn)

/-! ### The two operations -/

/-- Tables that agree from position `n` on and hold the same entries hold the same entries below `n`. -/
theorem take_perm_of_perm {h g : Vector Idx 256} (n : Nat) (hp : h.Perm g)
    (hab : ∀ (j : Nat) (hj : j < 256), n ≤ j → h[j] = g[j]) :
    (h.toList.take n).Perm (g.toList.take n) := by
  have hd : h.toList.drop n = g.toList.drop n := by
    apply List.ext_getElem (by simp)
    intro j h1 h2
    simp only [List.getElem_drop, Vector.getElem_toList]
    simp at h1
    exact hab _ (by omega) (by omega)
  have hl : h.toList.Perm g.toList := by
    exact Vector.Perm.toList hp
  have : (h.toList.take n ++ h.toList.drop n).Perm (g.toList.take n ++ h.toList.drop n) := by
    rw [List.take_append_drop, hd, List.take_append_drop]; exact hl
  exact (List.perm_append_right_iff _).1 this

theorem PQueue.items_length (q : PQueue) : q.items.length = q.hsize.val := by
  simp [PQueue.items]; omega

/-- What an insertion does (42_priority_queue.md R164), where there is room. -/
theorem PQueue.insert_spec (x : Idx) (q : PQueue) (h : q.hsize.val < 256) :
    ∃ q', q.insert key x = some q' ∧ q'.hsize.val = q.hsize.val + 1 ∧ q'.res = q.res ∧ q'.isNone = q.isNone ∧
      q'.items.Perm (x :: q.items) ∧ (HeapOrder key q → HeapOrder key q') ∧
      ∀ (j : Nat) (hj : j < 256), q.hsize.val < j → q'.heap[j] = q.heap[j] := by
  unfold PQueue.insert
  rw [dif_pos h]
  refine ⟨_, rfl, rfl, rfl, rfl, ?_, ?_, ?_⟩
  · have hp := take_perm_of_perm (h := siftUp key q.hsize.val (q.heap.set q.hsize.val x h) ⟨q.hsize.val, h⟩)
      (g := q.heap.set q.hsize.val x h) (q.hsize.val + 1) (siftUp_perm key _ _ _)
      (fun j hj hjn => siftUp_above key _ _ _ j hj (by simp; omega))
    refine List.Perm.trans hp ?_
    simp only [PQueue.items]
    rw [List.take_add_one]
    have e1 : (q.heap.set q.hsize.val x h).toList.take q.hsize.val = q.heap.toList.take q.hsize.val := by
      simp [Vector.toList_set, List.take_set_of_le]
    have e2 : (q.heap.set q.hsize.val x h).toList[q.hsize.val]? = some x := by
      simp [Vector.toList_set, h]
    rw [e1, e2]
    simp
  · intro ho
    have ho' := (heapOrder_iff key q).1 ho
    rw [heapOrder_iff]
    refine siftUp_ordered key (q.hsize.val + 1) q.hsize.val _ ⟨q.hsize.val, h⟩ (Nat.le_refl _) ?_
    constructor
    · intro j h1 hj hne
      have hne' : q.hsize.val ≠ j.val := fun e => hne (Fin.ext e.symm)
      have hlt : j.val < q.hsize.val := by simp at hj; omega
      have hpne : q.hsize.val ≠ (heapParent j).val := by simp; omega
      rw [Vector.getElem_set_ne _ _ hne', Vector.getElem_set_ne _ _ hpne]
      exact ho' j h1 hlt
    · intro j h1 hj hp
      have := congrArg Fin.val hp
      simp at this hj
      omega
  · intro j hj hlt
    simp only
    rw [siftUp_above key _ _ _ j hj (by simpa using hlt), Vector.getElem_set_ne _ _ (by omega)]

/-- An insertion into a full heap is turned away (R169). -/
theorem PQueue.insert_full (x : Idx) (q : PQueue) (h : q.hsize.val = 256) : q.insert key x = none := by
  unfold PQueue.insert
  rw [dif_neg (by omega)]

/-- An extraction from the empty queue (R166). -/
theorem PQueue.extract_empty (draw : BitVec 9) (q : PQueue) (h : q.hsize.val = 0) :
    q.extract key draw = (none, { q with res := draw, isNone := true }) := by
  unfold PQueue.extract
  rw [dif_pos h]

theorem removeRoot_above (n : Fin 256) (h : Vector Idx 256) (j : Nat) (hj : j < 256) (hn : n.val ≤ j) :
    (removeRoot key n h)[j] = h[j] := by
  unfold removeRoot
  split
  · rename_i hpos
    rw [siftDown_above key _ _ _ _ j hj hpos hn, Vector.getElem_set_ne _ _ (by omega)]
  · rfl

/-- The table's first entry apart, the entries below its end are the ones that stay. -/
theorem removeRoot_perm (n : Fin 256) (h : Vector Idx 256) :
    (h[0] :: (removeRoot key n h).toList.take n.val).Perm (h.toList.take (n.val + 1)) := by
  have hlist : h.toList = h[0] :: h.toList.drop 1 := by
    apply List.ext_getElem
    · simp
    · intro j h1 h2
      cases j with
      | zero => simp
      | succ j => simp
  unfold removeRoot
  split
  · rename_i hpos
    have hp := take_perm_of_perm (h := siftDown key ⟨n.val, by omega⟩ n.val (h.set 0 h[n.val]) 0)
      (g := h.set 0 h[n.val]) n.val (siftDown_perm key _ _ _ _)
      (fun j hj hjn => siftDown_above key _ _ _ _ j hj hpos hjn)
    refine (hp.cons _).trans ?_
    have hset : (h.set 0 h[n.val]).toList = h[n.val] :: h.toList.drop 1 := by
      rw [Vector.toList_set]
      conv_lhs => rw [hlist]
      rfl
    obtain ⟨m, hm⟩ : ∃ m, n.val = m + 1 := ⟨n.val - 1, by omega⟩
    have hlast : h.toList.take (n.val + 1) = h.toList.take n.val ++ [h[n.val]] := by
      rw [List.take_add_one]; simp
    rw [hlast, hset]
    conv_rhs => rw [hlist]
    have t1 : ∀ (a : Idx) (l : List Idx), (a :: l).take n.val = a :: l.take m := fun a l => by rw [hm, List.take_succ_cons]
    rw [t1, t1, List.cons_append]
    exact (List.perm_append_singleton _ _).symm.cons _
  · rename_i hpos
    have h0 : n.val = 0 := by omega
    rw [h0, hlist]
    simp

theorem removeRoot_ordered (n : Fin 256) (h : Vector Idx 256) (ho : OrderedBelow key (n.val + 1) h) :
    OrderedBelow key n.val (removeRoot key n h) := by
  unfold removeRoot
  split
  · rename_i hpos
    refine siftDown_ordered key ⟨n.val, by omega⟩ n.val _ 0 (by simp) hpos ⟨?_, ?_⟩
    · intro j h1 hj hne
      have hp : (heapParent j).val ≠ 0 := fun e => hne (Fin.ext e)
      rw [Vector.getElem_set_ne _ _ (by omega), Vector.getElem_set_ne _ _ (by omega)]
      exact ho j h1 (Nat.lt_succ_of_lt hj)
    · intro j h1 hj hp h0
      exact absurd h0 (by simp)
  · intro j h1 hj
    omega

/-- What an extraction does (R165), where there is something to extract. -/
theorem PQueue.extract_spec (draw : BitVec 9) (q : PQueue) (h : q.hsize.val ≠ 0) :
    ∃ q', q.extract key draw = (some q.heap[0], q') ∧ q'.hsize.val = q.hsize.val - 1 ∧ q'.res = nodeBits q.heap[0] ∧
      q'.isNone = false ∧ (q.heap[0] :: q'.items).Perm q.items ∧ (HeapOrder key q → HeapOrder key q') ∧
      ∀ (j : Nat) (hj : j < 256), q.hsize.val ≤ j + 1 → q'.heap[j] = q.heap[j] := by
  have hb := q.hsize.isLt
  have hn : q.hsize.val - 1 + 1 = q.hsize.val := by omega
  unfold PQueue.extract
  rw [dif_neg h]
  refine ⟨_, rfl, rfl, rfl, rfl, ?_, ?_, ?_⟩
  · have := removeRoot_perm key ⟨q.hsize.val - 1, by omega⟩ q.heap
    simp only [hn] at this
    exact this
  · intro ho
    have ho' : OrderedBelow key (q.hsize.val - 1 + 1) q.heap := by rw [hn]; exact ho
    exact removeRoot_ordered key ⟨q.hsize.val - 1, by omega⟩ q.heap ho'
  · intro j hj hle
    exact removeRoot_above key ⟨q.hsize.val - 1, by omega⟩ q.heap j hj (by simp only; omega)

/-- The node an extraction returns is least (R163). -/
theorem PQueue.root_least (q : PQueue) (ho : HeapOrder key q) (y : Idx) (hy : y ∈ q.items) :
    key q.heap[0] ≤ key y := by
  obtain ⟨j, hj, rfl⟩ := List.mem_iff_getElem.1 hy
  rw [PQueue.items_length] at hj
  have hb := q.hsize.isLt
  simp only [PQueue.items, List.getElem_take, Vector.getElem_toList]
  exact OrderedBelow.root_least key ((heapOrder_iff key q).1 ho) j (by omega) hj

/-- The path of a sift-up halves: after `k` places above the root, the position is at most one `2 ^ k`-th of where it began (R164, R170). -/
theorem heapParent_iterate_bound (i : Fin 256) (k : Nat) (h : ∀ j < k, 0 < (heapParent^[j] i).val) :
    2 ^ k * ((heapParent^[k] i).val + 1) ≤ i.val + 1 := by
  induction k with
  | zero => simp
  | succ k ih =>
    have hp := h k (Nat.lt_succ_self k)
    have := ih fun j hj => h j (Nat.lt_succ_of_lt hj)
    rw [Function.iterate_succ_apply']
    have e : 2 * ((heapParent (heapParent^[k] i)).val + 1) ≤ (heapParent^[k] i).val + 1 := by
      simp only [heapParent]; omega
    calc _ = 2 ^ k * (2 * ((heapParent (heapParent^[k] i)).val + 1)) := by ring
      _ ≤ _ := (Nat.mul_le_mul_left _ e).trans this

end Sys2Proof.Machine
end

