-- ==== Sys2Proof/Laws/Tables.lean ====
section
/-! SUPPORT. What one operation of each unit does to its tables: counting a byte, adding a node, visiting a node, emitting a
digit. -/

namespace Sys2Proof.Machine

/-! ### The FrequencyCounter -/

theorem symIndex_inj {a b : Byte} (h : (symIndex a).val = (symIndex b).val) : a = b := BitVec.eq_of_toNat_eq h

/-- Counting a byte adds one to its count and leaves every other count (41_frequency_counter.md R152). -/
theorem FreqTable.count_cnt (t : FreqTable) (b c : Byte) :
    (t.count b).cnt[(symIndex c).val] =
      if c = b then t.cnt[(symIndex c).val] + 1 else t.cnt[(symIndex c).val] := by
  have key : ∀ u : FreqTable, (u.bump b).cnt[(symIndex c).val] =
      if c = b then u.cnt[(symIndex c).val] + 1 else u.cnt[(symIndex c).val] := by
    intro u
    simp only [FreqTable.bump, Vector.getElem_set]
    split
    · rename_i h; have := symIndex_inj h; subst this; simp
    · rename_i h; rw [if_neg]; rintro rfl; exact h rfl
  have hi : (t.insert b).cnt = t.cnt := by unfold FreqTable.insert; split <;> rfl
  unfold FreqTable.count
  split
  · rw [key, hi]
  · rw [key]

@[simp] theorem FreqTable.bump_symbols (t : FreqTable) (b : Byte) : (t.bump b).symbols = t.symbols := rfl

/-- Inserting a symbol appends it to the table's order (10_state.md R41). -/
theorem FreqTable.insert_symbols (t : FreqTable) (b : Byte) (h : t.k.val < 256) :
    (t.insert b).symbols = t.symbols ++ [b] := by
  simp only [FreqTable.insert, dif_pos h, FreqTable.symbols]
  rw [List.take_add_one]
  simp [Vector.toList_set, List.take_set_of_le, h]

/-- A byte counted before leaves the order alone; a new one is appended (R152). -/
theorem FreqTable.count_symbols (t : FreqTable) (b : Byte) (h : t.cnt[(symIndex b).val] = 0 → t.k.val < 256) :
    (t.count b).symbols = if t.cnt[(symIndex b).val] = 0 then t.symbols ++ [b] else t.symbols := by
  unfold FreqTable.count
  split
  · rename_i h0
    rw [FreqTable.bump_symbols, FreqTable.insert_symbols _ _ (h h0)]
  · rw [FreqTable.bump_symbols]

@[simp] theorem FreqTable.symbols_length (t : FreqTable) : t.symbols.length = t.k.val := by
  simp [FreqTable.symbols]; omega

@[simp] theorem FreqTable.init_symbols (t : FreqTable) : t.init.symbols = [] := by
  simp [FreqTable.symbols, FreqTable.init]

@[simp] theorem FreqTable.init_cnt (t : FreqTable) (i : Nat) (h : i < 256) : t.init.cnt[i] = 0 := by
  simp [FreqTable.init]

/-! ### The TreeBuilder -/

/-- What adding a node does (43_tree_builder.md R182, R183), where both tables have room: the node stands at `NN`, the queue gains
that index, and nothing below `NN` changes. -/
theorem Builder.add_spec (n : Node) (b : Builder) (hn : b.arena.nn.val < 511) (hq : b.pq.hsize.val < 256) :
    ∃ b', b.add n = .ok b' ∧ b'.arena.nn.val = b.arena.nn.val + 1 ∧ b'.pq.hsize.val = b.pq.hsize.val + 1 ∧
      b'.arena.node = b.arena.node.set b.arena.nn.val n hn ∧
      b'.pq.res = b.pq.res ∧ b'.pq.isNone = b.pq.isNone ∧
      b'.pq.items.Perm (⟨b.arena.nn.val, hn⟩ :: b.pq.items) ∧
      (HeapOrder b'.arena.key b.pq → HeapOrder b'.arena.key b'.pq) := by
  unfold Builder.add
  rw [dif_pos hn]
  obtain ⟨q, hi, h1, h2, h3, h4, h5, -⟩ :=
    PQueue.insert_spec (Arena.key ⟨b.arena.node.set b.arena.nn.val n hn, ⟨b.arena.nn.val + 1, by omega⟩⟩)
      ⟨b.arena.nn.val, hn⟩ b.pq hq
  simp only [hi]
  exact ⟨_, rfl, rfl, h1, rfl, h2, h3, h4, h5⟩

/-- What taking a node off the queue does inside the merge loop (R183). -/
theorem Builder.take_spec (b : Builder) (h : b.pq.hsize.val ≠ 0) :
    ∃ b', b.take = .ok (b.pq.heap[0], b') ∧ b'.arena = b.arena ∧ b'.pq.hsize.val = b.pq.hsize.val - 1 ∧
      b'.pq.isNone = false ∧ (b.pq.heap[0] :: b'.pq.items).Perm b.pq.items ∧
      (HeapOrder b.arena.key b.pq → HeapOrder b.arena.key b'.pq) := by
  obtain ⟨q, he, h1, -, h2, h3, h4, -⟩ := PQueue.extract_spec b.arena.key 0 b.pq h
  unfold Builder.take
  rw [he]
  exact ⟨_, rfl, rfl, h1, h2, h3, h4⟩

/-! ### The CodeTableBuilder -/

/-- The live entries of the stack, the top last (10_state.md R47). -/
def Walk.live (w : Walk) : List StackEntry := w.stack.toList.take w.sp.val

@[simp] theorem Walk.live_length (w : Walk) : w.live.length = w.sp.val := by
  simp [Walk.live]; omega

/-- A push inside the bounds (44_code_table_builder.md R201). -/
theorem Walk.push_spec (i : Idx) (c : Code) (w : Walk) (h : w.sp.val < 256) (hc : c.length ≤ 255) :
    ∃ w', w.push i c = .ok w' ∧ w'.sp.val = w.sp.val + 1 ∧ w'.code = w.code ∧
      w'.live = w.live ++ [{ snode := i, digits := c }] := by
  unfold Walk.push
  rw [dif_pos h, if_pos (by simpa [Config.maxCodeLen] using hc)]
  refine ⟨_, rfl, rfl, rfl, ?_⟩
  simp only [Walk.live]
  rw [List.take_add_one]
  simp [Vector.toList_set, List.take_set_of_le, h]

/-- The top of the stack, and what is below it. -/
theorem Walk.live_pop (w : Walk) (h : 0 < w.sp.val) :
    w.live = (Walk.live { w with sp := ⟨w.sp.val - 1, by omega⟩ }) ++ [w.stack[w.sp.val - 1]] := by
  have : w.sp.val = (w.sp.val - 1) + 1 := by omega
  simp only [Walk.live]
  conv_lhs => rw [this, List.take_add_one]
  simp [show w.sp.val - 1 < 256 by omega]

@[simp] theorem Walk.record_live (w : Walk) (s : Byte) (c : Code) : (w.record s c).live = w.live := rfl

@[simp] theorem Walk.record_sp (w : Walk) (s : Byte) (c : Code) : (w.record s c).sp = w.sp := rfl

/-- Recording a code changes one entry. -/
theorem Walk.record_code (w : Walk) (s : Byte) (c : Code) (b : Byte) :
    (w.record s c).code[(symIndex b).val] = if b = s then some c else w.code[(symIndex b).val] := by
  simp only [Walk.record, Vector.getElem_set]
  split
  · rename_i h; rw [if_pos (symIndex_inj h).symm]
  · rename_i h; rw [if_neg]; rintro rfl; exact h rfl

/-! ### The BitPacker -/

/-- A finished byte is stored below `OUT_CAP` (45_bit_packer.md R212, R214). -/
theorem Packer.store_ok {outCap j : Nat} (h : j < outCap) (p : Packer) :
    p.store outCap j = .ok { p with out := Memory.write p.out j p.acc, acc := 0 } := by
  simp [Packer.store, Nat.not_le.2 h]

/-- A store at or past `OUT_CAP` raises `OutOverflow` (R216). -/
theorem Packer.store_overflow {outCap j : Nat} (h : outCap ≤ j) (p : Packer) :
    p.store outCap j = .error (.overflow p) := by simp [Packer.store, h]

/-- `digitMask i` is the byte whose only bit is bit `7 - (i mod 8)` (30_encoding.md R104). -/
theorem getLsbD_digitMask (i k : Nat) : (digitMask i).getLsbD k = decide (k = 7 - i % 8) := by
  unfold digitMask
  rw [BitVec.getLsbD_shiftLeft]
  by_cases h : k = 7 - i % 8
  · subst h; simp; omega
  · simp only [h, decide_false, BitVec.getLsbD_one]
    simp
    omega

/-- A digit inside a byte: only `T` and `ACC` change (R212). -/
theorem Packer.emit_inside (outCap : Nat) (d : Bool) (p : Packer) (hw : p.bits.toNat + 1 < 2 ^ 32)
    (h8 : (p.bits.toNat + 1) % 8 ≠ 0) :
    p.emit outCap d = .ok { p with
      acc := if d then p.acc ||| digitMask p.bits.toNat else p.acc, bits := p.bits + 1 } := by
  simp only [Packer.emit, if_pos hw, if_neg h8]

/-- The digit that fills a byte (R212). -/
theorem Packer.emit_full (outCap : Nat) (d : Bool) (p : Packer) (hw : p.bits.toNat + 1 < 2 ^ 32)
    (h8 : (p.bits.toNat + 1) % 8 = 0) (hc : (p.bits.toNat + 1) / 8 - 1 < outCap) :
    p.emit outCap d = .ok { p with
      acc := 0, bits := p.bits + 1,
      out := Memory.write p.out ((p.bits.toNat + 1) / 8 - 1)
        (if d then p.acc ||| digitMask p.bits.toNat else p.acc) } := by
  simp only [Packer.emit, if_pos hw, if_pos h8, Packer.store_ok hc]

end Sys2Proof.Machine
end

