-- ==== Sys2Proof/Laws/Trees.lean ====
section
/-! SUPPORT. Trees as values, and what the building of `P_TREE` leaves: a tree of the frequency table. -/

namespace Sys2Proof

open Sys2Proof.Machine

/-! ### Trees as values -/

theorem HuffTree.leaves_pos (t : HuffTree) : 0 < t.leaves.length := by
  induction t with
  | leaf => simp [HuffTree.leaves]
  | node f l r ihl ihr => simp [HuffTree.leaves]; omega

/-- A tree of `n` leaves has `2n - 1` nodes (43_tree_builder.md R189). -/
theorem HuffTree.size_leaves (t : HuffTree) : t.size + 1 = 2 * t.leaves.length := by
  induction t with
  | leaf => simp [HuffTree.leaves, HuffTree.size]
  | node f l r ihl ihr => simp [HuffTree.leaves, HuffTree.size]; omega

theorem HuffTree.codes_symbols (t : HuffTree) : t.codes.map Prod.fst = t.leaves.map Prod.fst := by
  induction t with
  | leaf => simp [HuffTree.leaves, HuffTree.codes]
  | node f l r ihl ihr => simp [HuffTree.leaves, HuffTree.codes, Function.comp_def, ← ihl, ← ihr]

/-- No code is as long as the tree has leaves (44_code_table_builder.md R201). -/
theorem HuffTree.codes_length {t : HuffTree} {b : Byte} {c : Code} (h : (b, c) ∈ t.codes) :
    c.length + 1 ≤ t.leaves.length := by
  induction t generalizing c with
  | leaf s f =>
    simp only [HuffTree.codes, List.mem_singleton, Prod.mk.injEq] at h
    simp [h.2, HuffTree.leaves]
  | node f l r ihl ihr =>
    have pl := l.leaves_pos
    have pr := r.leaves_pos
    simp only [HuffTree.codes, List.mem_append, List.mem_map] at h
    rcases h with ⟨⟨b', d⟩, hm, he⟩ | ⟨⟨b', d⟩, hm, he⟩
    · simp only [Prod.mk.injEq] at he
      obtain ⟨rfl, rfl⟩ := he
      have := ihl hm
      simp [HuffTree.leaves]; omega
    · simp only [Prod.mk.injEq] at he
      obtain ⟨rfl, rfl⟩ := he
      have := ihr hm
      simp [HuffTree.leaves]; omega

/-- Of two paths to leaves of one tree, one is a prefix of the other only if they are the same leaf (44_code_table_builder.md R202). -/
theorem HuffTree.codes_prefix {t : HuffTree} {a b : Byte} {c d : Code} (ha : (a, c) ∈ t.codes) (hb : (b, d) ∈ t.codes)
    (h : c <+: d) : a = b := by
  induction t generalizing c d with
  | leaf s f =>
    simp only [HuffTree.codes, List.mem_singleton, Prod.mk.injEq] at ha hb
    rw [ha.1, hb.1]
  | node f l r ihl ihr =>
    simp only [HuffTree.codes, List.mem_append, List.mem_map] at ha hb
    rcases ha with ⟨⟨a', c'⟩, hma, hea⟩ | ⟨⟨a', c'⟩, hma, hea⟩ <;>
    rcases hb with ⟨⟨b', d'⟩, hmb, heb⟩ | ⟨⟨b', d'⟩, hmb, heb⟩ <;>
    simp only [Prod.mk.injEq] at hea heb <;>
    obtain ⟨rfl, rfl⟩ := hea <;> obtain ⟨rfl, rfl⟩ := heb <;>
    simp only [List.cons_prefix_cons, Bool.false_eq_true, Bool.true_eq_false, false_and, true_and] at h
    · exact ihl hma hmb h
    · exact ihr hma hmb h

/-! ### Trees of the arena -/

theorem Holds.key {a : Arena} {i : Idx} {t : HuffTree} (h : Holds a.node i t) : a.key i = t.freq := by
  cases t with
  | leaf s f =>
    have e : a.node[i.val] = .leaf s f := h
    simp only [Arena.key, e]; rfl
  | node f l r =>
    obtain ⟨li, ri, e, -⟩ := h
    simp only [Arena.key, e]; rfl

/-- A tree below an entry does not see what is written there. -/
theorem Holds.set {node : Vector Node 511} {n : Nat} (hn : n < 511) (x : Node) {i : Idx} {t : HuffTree} (hi : i.val < n)
    (h : Holds node i t) : Holds (node.set n x hn) i t := by
  induction t generalizing i with
  | leaf s f =>
    have e : node[i.val] = .leaf s f := h
    show (node.set n x hn)[i.val] = _
    rw [Vector.getElem_set_ne _ _ (by omega), e]
  | node f l r ihl ihr =>
    obtain ⟨li, ri, e, h1, h2, h3, h4⟩ := h
    have h1' : li.val < i.val := h1
    have h2' : ri.val < i.val := h2
    exact ⟨li, ri, by rw [Vector.getElem_set_ne _ _ (by omega), e], h1, h2, ihl (by omega) h3, ihr (by omega) h4⟩

/-- What `P_TREE` has while it builds: a forest `F` whose roots are queued, holding the leaves `L`. -/
structure Forest (L : List (Byte × Word)) (F : List (Idx × HuffTree)) (b : Builder) : Prop where
  queued : b.pq.items.Perm (F.map Prod.fst)
  holds : ∀ x ∈ F, Holds b.arena.node x.1 x.2 ∧ x.2.summed ∧ x.1.val < b.arena.nn.val
  leaves : (F.flatMap fun x => x.2.leaves).Perm L
  size : (F.map fun x => x.2.size).sum = b.arena.nn.val
  total : (F.map fun x => x.2.freq.toNat).sum = (L.map fun x => x.2.toNat).sum
  nodes : b.arena.nn.val + b.pq.hsize.val = 2 * L.length
  seeds : ∀ (j : Nat) (hj : j < L.length) (h511 : j < 511), j < b.arena.nn.val →
    b.arena.node[j] = .leaf L[j].1 L[j].2
  last : b.pq.hsize.val = 1 → b.pq.heap[0].val + 1 = b.arena.nn.val

theorem Machine.PQueue.items_one {q : PQueue} (h : q.hsize.val = 1) : q.items = [q.heap[0]] := by
  simp only [PQueue.items, h]
  apply List.ext_getElem
  · simp
  · intro i h1 h2
    simp at h2
    subst h2
    simp

/-- Taking a node off a forest's queue takes a tree off the forest. -/
theorem Machine.Builder.take_forest {F : List (Idx × HuffTree)} {b : Builder} (h : b.pq.hsize.val ≠ 0)
    (hq : b.pq.items.Perm (F.map Prod.fst)) :
    ∃ (b' : Builder) (t : HuffTree) (F' : List (Idx × HuffTree)), b.take = .ok (b.pq.heap[0], b') ∧ b'.arena = b.arena ∧
      b'.pq.hsize.val = b.pq.hsize.val - 1 ∧ F.Perm ((b.pq.heap[0], t) :: F') ∧
      b'.pq.items.Perm (F'.map Prod.fst) ∧ b'.pq.isNone = false ∧
      (HeapOrder b.arena.key b.pq → HeapOrder b.arena.key b'.pq) := by
  obtain ⟨b', h1, h2, h3, h3', h4, h5⟩ := Builder.take_spec b h
  have hm : b.pq.heap[0] ∈ F.map Prod.fst := (hq.symm.trans h4.symm).symm.subset List.mem_cons_self
  obtain ⟨⟨i, t⟩, hx, hi⟩ := List.mem_map.1 hm
  simp only at hi
  subst hi
  obtain ⟨s, u, rfl⟩ := List.append_of_mem hx
  have hp : (s ++ (b.pq.heap[0], t) :: u).Perm ((b.pq.heap[0], t) :: (s ++ u)) := List.perm_middle
  refine ⟨b', t, s ++ u, h1, h2, h3, hp, ?_, h3', h5⟩
  have := h4.trans (hq.trans (hp.map Prod.fst))
  rw [List.map_cons] at this
  exact this.cons_inv

theorem Forest.length {L F b} (h : Forest L F b) : F.length = b.pq.hsize.val := by
  have := h.queued.length_eq
  rw [PQueue.items_length, List.length_map] at this
  exact this.symm

/-- One round of the merge loop (43_tree_builder.md R183) on a forest of two or more trees. -/
theorem Forest.mergeOnce {L F b} (h : Forest L F b) (h2 : 1 < b.pq.hsize.val) (hL : L.length ≤ 256)
    (hfull : L.length ≤ b.arena.nn.val)
    (hsum : (L.map fun x => x.2.toNat).sum < 2 ^ 32) :
    ∃ b' F', b.mergeOnce = .ok b' ∧ Forest L F' b' ∧ b'.pq.hsize.val + 1 = b.pq.hsize.val ∧
      b'.arena.nn.val = b.arena.nn.val + 1 := by
  obtain ⟨b1, l, F1, e1, a1, z1, p1, q1, -⟩ := Builder.take_forest (by omega) h.queued
  obtain ⟨b2, r, F2, e2, a2, z2, p2, q2, -⟩ := Builder.take_forest (b := b1) (by omega) q1
  have p12 : F.Perm ((b.pq.heap[0], l) :: (b1.pq.heap[0], r) :: F2) := p1.trans (p2.cons _)
  have ha : b2.arena = b.arena := a2.trans a1
  obtain ⟨hl, sl, ll⟩ := h.holds _ (p12.symm.subset List.mem_cons_self)
  obtain ⟨hr, sr, lr⟩ := h.holds _ (p12.symm.subset (List.mem_cons_of_mem _ List.mem_cons_self))
  simp only at ll lr
  have kl : b2.arena.key b.pq.heap[0] = l.freq := by rw [ha]; exact hl.key
  have kr : b2.arena.key b1.pq.heap[0] = r.freq := by rw [ha]; exact hr.key
  have htot := (p12.map fun x => x.2.freq.toNat).sum_nat
  rw [h.total] at htot
  simp only [List.map_cons, List.sum_cons] at htot
  have hnodes := h.nodes
  have hfit : l.freq.toNat + r.freq.toNat < 2 ^ 32 := by omega
  have hadd : (l.freq + r.freq).toNat = l.freq.toNat + r.freq.toNat := by
    rw [BitVec.toNat_add, Nat.mod_eq_of_lt hfit]
  have hnn : b2.arena.nn.val = b.arena.nn.val := by rw [ha]
  have hnode : b2.arena.node = b.arena.node := by rw [ha]
  obtain ⟨b', e, n1, z', nd, -, -, q', -⟩ :=
    Builder.add_spec (.internal (l.freq + r.freq) b.pq.heap[0] b1.pq.heap[0]) b2 (by omega) (by omega)
  have hE : b.mergeOnce = .ok b' := by
    unfold Builder.mergeOnce
    rw [e1]
    simp only
    rw [e2]
    simp only
    rw [kl, kr, if_pos hfit]
    exact e
  have hq' := q'.trans (q2.cons ⟨b2.arena.nn.val, by omega⟩)
  refine ⟨b', (⟨b2.arena.nn.val, by omega⟩, .node (l.freq + r.freq) l r) :: F2, hE, ?_, by omega, by omega⟩
  refine ⟨hq', ?_, ?_, ?_, ?_, by omega, ?_, ?_⟩
  · intro x hx
    rcases List.mem_cons.1 hx with rfl | hx
    · refine ⟨⟨b.pq.heap[0], b1.pq.heap[0], ?_, ?_, ?_, ?_, ?_⟩, ⟨hadd, sl, sr⟩, ?_⟩
      · rw [nd]; simp
      · show b.pq.heap[0].val < b2.arena.nn.val; omega
      · show b1.pq.heap[0].val < b2.arena.nn.val; omega
      · rw [nd]; exact Holds.set _ _ (by omega) (by rw [hnode]; exact hl)
      · rw [nd]; exact Holds.set _ _ (by omega) (by rw [hnode]; exact hr)
      · simp only; omega
    · obtain ⟨h1, h2, h3⟩ := h.holds _ (p12.symm.subset (List.mem_cons_of_mem _ (List.mem_cons_of_mem _ hx)))
      refine ⟨?_, h2, by omega⟩
      rw [nd]; exact Holds.set _ _ (by omega) (by rw [hnode]; exact h1)
  · refine List.Perm.trans ?_ h.leaves
    have := (p12.flatMap_right fun x => x.2.leaves).symm
    simpa [HuffTree.leaves] using this
  · have := (p12.map fun x => x.2.size).sum_nat
    rw [h.size] at this
    simp only [List.map_cons, List.sum_cons, HuffTree.size] at this ⊢
    omega
  · rw [htot]
    have hf : ∀ f l r, (HuffTree.node f l r).freq = f := fun _ _ _ => rfl
    simp only [List.map_cons, List.sum_cons, hf, hadd]
    omega
  · intro j hj h511 hlt
    have h1 := h.seeds j hj h511 (by omega)
    have e' : b'.arena.node[j] = b.arena.node[j] := by
      simp only [nd]
      rw [Vector.getElem_set_ne _ _ (by omega)]
      simp only [hnode]
    rw [e', h1]
  · intro hone
    have := PQueue.items_one hone
    have hlen : F2.length = 0 := by
      have := p12.length_eq
      rw [h.length] at this
      simp at this
      omega
    rw [List.length_eq_zero_iff.1 hlen, this] at hq'
    have := List.perm_singleton.1 hq'
    simp only [List.cons.injEq, and_true] at this
    rw [this]
    simp only
    omega

theorem Forest.merge {L F b} (n : Nat) (h : Forest L F b) (hn : b.pq.hsize.val ≤ n + 1) (h1 : 1 ≤ b.pq.hsize.val)
    (hL : L.length ≤ 256)
    (hfull : L.length ≤ b.arena.nn.val)
    (hsum : (L.map fun x => x.2.toNat).sum < 2 ^ 32) :
    ∃ b' F', Builder.merge n b = .ok b' ∧ Forest L F' b' ∧ b'.pq.hsize.val = 1 := by
  induction n generalizing b F with
  | zero => exact ⟨b, F, rfl, h, by omega⟩
  | succ n ih =>
    unfold Builder.merge
    split
    · rename_i h2
      obtain ⟨b', F', e, h', z, nn⟩ := h.mergeOnce h2 hL hfull hsum
      rw [e]
      exact ih h' (by omega) (by omega) (by omega)
    · exact ⟨b, F, rfl, h, by omega⟩

/-- Seeding one more leaf (43_tree_builder.md R182). -/
theorem Forest.seedOne {L F b} (h : Forest L F b) (hn : b.arena.nn.val = L.length) (hL : L.length < 256) (s : Byte) (f : Word) :
    ∃ b' F', b.add (.leaf s f) = .ok b' ∧ Forest (L ++ [(s, f)]) F' b' ∧ b'.arena.nn.val = L.length + 1 := by
  have hnodes := h.nodes
  obtain ⟨b', e, n1, z', nd, -, -, q', -⟩ := Builder.add_spec (.leaf s f) b (by omega) (by omega)
  have hq' := q'.trans (h.queued.cons ⟨b.arena.nn.val, by omega⟩)
  refine ⟨b', (⟨b.arena.nn.val, by omega⟩, .leaf s f) :: F, e, ?_, by omega⟩
  refine ⟨hq', ?_, ?_, ?_, ?_, ?_, ?_, ?_⟩
  · intro x hx
    rcases List.mem_cons.1 hx with rfl | hx
    · refine ⟨?_, trivial, by simp only; omega⟩
      show b'.arena.node[b.arena.nn.val] = _
      rw [nd]; simp
    · obtain ⟨h1, h2, h3⟩ := h.holds _ hx
      refine ⟨?_, h2, by omega⟩
      rw [nd]; exact Holds.set _ _ h3 h1
  · have := (h.leaves.cons (s, f)).trans (List.perm_append_singleton (s, f) L).symm
    simpa [HuffTree.leaves] using this
  · have := h.size
    simp only [List.map_cons, List.sum_cons, HuffTree.size]
    omega
  · have := h.total
    have hf : ∀ s f, (HuffTree.leaf s f).freq = f := fun _ _ => rfl
    simp only [List.map_cons, List.sum_cons, hf, List.map_append, List.sum_append, List.map_nil, List.sum_nil]
    omega
  · simp; omega
  · intro j hj h511 hlt
    simp only [nd]
    rw [Vector.getElem_set]
    split
    · rename_i ej
      have : j = L.length := by omega
      subst this
      simp
    · rename_i ej
      have hj' : j < L.length := by omega
      rw [h.seeds j hj' h511 (by omega)]
      simp [List.getElem_append_left hj']
  · intro hone
    have hlen : F = [] := by
      have := h.length
      rw [← List.length_eq_zero_iff]; omega
    rw [hlen, PQueue.items_one hone] at hq'
    have := List.perm_singleton.1 hq'
    simp only [List.cons.injEq, and_true] at this
    rw [this]
    simp only
    omega

theorem Forest.seed {cnt : Vector Word 256} (syms : List Byte) {L F b} (h : Forest L F b) (hn : b.arena.nn.val = L.length)
    (hL : L.length + syms.length ≤ 256) :
    ∃ b' F', Builder.seed cnt syms b = .ok b' ∧
      Forest (L ++ syms.map fun s => (s, cnt[(symIndex s).val])) F' b' ∧
      b'.arena.nn.val = L.length + syms.length := by
  induction syms generalizing L F b with
  | nil => exact ⟨b, F, rfl, by simpa using h, by simpa using hn⟩
  | cons s syms ih =>
    simp only [List.length_cons] at hL
    obtain ⟨b', F', e, h', n'⟩ := h.seedOne hn (by omega) s cnt[(symIndex s).val]
    obtain ⟨b'', F'', e', h'', n''⟩ := ih h' (by simp [n']) (by simp; omega)
    refine ⟨b'', F'', ?_, by simpa using h'', ?_⟩
    · unfold Builder.seed; rw [e]; exact e'
    · simp at n'' ⊢; omega

theorem Forest.init (a : Arena) (q : PQueue) : Forest [] [] (Builder.init a q) := by
  refine ⟨?_, by simp, .rfl, rfl, rfl, rfl, by simp, ?_⟩
  · simp [PQueue.items, Builder.init]
  · intro h; simp [Builder.init] at h

/-- What building does (43_tree_builder.md R181 to R183, R188, R189) for a table of at least one symbol, whose counts add up to 32
bits: one node stays queued, the last one made, and it is the root of a tree of the table. -/
theorem Machine.Builder.build_spec (t : FreqTable) (a : Arena) (q : PQueue) (hk : 1 ≤ t.k.val)
    (hsum : (t.symbols.map fun b => (t.cnt[(symIndex b).val]).toNat).sum < 2 ^ 32) :
    ∃ (b : Builder) (tree : HuffTree), Builder.build t a q = .ok b ∧ b.pq.hsize.val = 1 ∧
      b.arena.nn.val + 1 = 2 * t.k.val ∧ b.pq.heap[0].val + 1 = b.arena.nn.val ∧
      (∀ (j : Nat) (hj : j < t.k.val), b.arena.node[j] = .leaf t.order[j] t.cnt[(symIndex t.order[j]).val]) ∧
      Holds b.arena.node b.pq.heap[0] tree ∧ tree.size = b.arena.nn.val ∧ tree.summed ∧
      tree.leaves.Perm (t.symbols.map fun s => (s, t.cnt[(symIndex s).val])) := by
  have hlen := t.symbols_length
  have hb := t.k.isLt
  obtain ⟨b1, F1, e1, f1, n1⟩ := Forest.seed (cnt := t.cnt) t.symbols (Forest.init a q) rfl (by simp [hlen]; omega)
  have hn1 := f1.nodes
  simp only [List.nil_append, List.length_map, List.length_nil, Nat.zero_add] at hn1 n1 f1
  obtain ⟨b2, F2, e2, f2, z2⟩ := Forest.merge b1.pq.hsize.val f1 (by omega) (by omega) (by simp; omega) (by simp; omega)
    (by simpa [Function.comp_def] using hsum)
  have hn2 := f2.nodes
  simp only [List.length_map] at hn2
  have hF := f2.length
  rw [z2] at hF
  obtain ⟨⟨i, tree⟩, rfl⟩ := List.length_eq_one_iff.1 hF
  have hq := f2.queued
  rw [PQueue.items_one z2] at hq
  have hi : b2.pq.heap[0] = i := by
    have := List.perm_singleton.1 hq
    simpa using this
  obtain ⟨hh, hs, -⟩ := f2.holds _ List.mem_cons_self
  refine ⟨b2, tree, ?_, z2, by omega, f2.last z2, ?_, ?_, ?_, hs, ?_⟩
  · unfold Builder.build; rw [e1]; exact e2
  · intro j hj
    have := f2.seeds j (by simp; omega) (by omega) (by omega)
    rw [this]
    simp [FreqTable.symbols]
  · rw [hi]; exact hh
  · simpa using f2.size
  · simpa using f2.leaves

end Sys2Proof
end

