-- ==== Sys2Proof/Laws/Alike.lean ====
section
/-! SUPPORT. What `P_TREE` builds does not depend on what the arena and the queue held before. -/

namespace Sys2Proof

open Sys2Proof.Machine

/-- Two tables of a heap that look alike below `n`, under two keys that agree on what stands there. -/
structure SameBelow (key key' : Idx → Word) (n : Nat) (h h' : Vector Idx 256) : Prop where
  entry : ∀ j : Fin 256, j.val < n → h[j.val] = h'[j.val]
  key : ∀ j : Fin 256, j.val < n → key h[j.val] = key' h[j.val]

theorem SameBelow.swap {key key' n h h'} (s : SameBelow key key' n h h') (i k : Fin 256) (hi : i.val < n) (hk : k.val < n) :
    SameBelow key key' n (h.swap i.val k.val) (h'.swap i.val k.val) := by
  have e : ∀ (g : Vector Idx 256) (j : Fin 256), (g.swap i.val k.val)[j.val] =
      if j = i then g[k.val] else if j = k then g[i.val] else g[j.val] := by
    intro g j
    rw [Vector.getElem_swap]
    simp only [Fin.ext_iff]
  constructor
  · intro j hj
    rw [e, e]
    split
    · exact s.entry k hk
    · split
      · exact s.entry i hi
      · exact s.entry j hj
  · intro j hj
    rw [e]
    split
    · exact s.key k hk
    · split
      · exact s.key i hi
      · exact s.key j hj

/-- Sifting up looks at no position past the one it starts from. -/
theorem SameBelow.siftUp {key key' : Idx → Word} {h h' : Vector Idx 256} {size : Nat} (n : Nat) (i : Fin 256) (hi : i.val < size)
    (s : SameBelow key key' size h h') : SameBelow key key' size (siftUp key n h i) (siftUp key' n h' i) := by
  induction n generalizing h h' i with
  | zero => exact s
  | succ n ih =>
    have hp : (heapParent i).val < size := by simp; omega
    have e1 := s.entry i hi
    have e2 := s.entry (heapParent i) hp
    have k1 := s.key i hi
    have k2 := s.key (heapParent i) hp
    rw [Machine.siftUp, Machine.siftUp]
    rw [← e1, ← e2, ← k1, ← k2]
    split
    · exact ih _ hp (s.swap i (heapParent i) hi hp)
    · exact s

theorem SameBelow.heapChild {key key' : Idx → Word} {h h' : Vector Idx 256} {size : Fin 257} (i : Fin 256)
    (s : SameBelow key key' size.val h h') : heapChild key h size i = heapChild key' h' size i := by
  unfold Machine.heapChild
  split
  · rename_i hl
    split
    · rename_i hr
      have e1 := s.entry ⟨2 * i.val + 1, by omega⟩ hl
      have e2 := s.entry ⟨2 * i.val + 2, by omega⟩ hr
      have k1 := s.key ⟨2 * i.val + 1, by omega⟩ hl
      have k2 := s.key ⟨2 * i.val + 2, by omega⟩ hr
      simp only at e1 e2 k1 k2
      rw [← e1, ← e2, ← k1, ← k2]
    · rfl
  · rfl

/-- Sifting down looks at no position past the end of the heap. -/
theorem SameBelow.siftDown {key key' : Idx → Word} {h h' : Vector Idx 256} {size : Fin 257} (n : Nat) (i : Fin 256)
    (hi : i.val < size.val) (s : SameBelow key key' size.val h h') :
    SameBelow key key' size.val (siftDown key size n h i) (siftDown key' size n h' i) := by
  induction n generalizing h h' i with
  | zero => exact s
  | succ n ih =>
    have hc := s.heapChild i
    cases e : Machine.heapChild key h size i with
    | none =>
      rw [siftDown_none key e, siftDown_none key' (hc ▸ e)]
      exact s
    | some c =>
      have hcs : c.val < size.val := (heapChild_some key e).1
      rw [siftDown_some key e, siftDown_some key' (hc ▸ e)]
      rw [← s.entry c hcs, ← s.entry i hi, ← s.key c hcs, ← s.key i hi]
      split
      · exact ih c hcs (s.swap i c hi hcs)
      · exact s

/-- Two builders that look alike: the same sizes, the same live nodes, the same live queue entries, which are live nodes. -/
structure Alike (b b' : Builder) : Prop where
  nn : b.arena.nn.val = b'.arena.nn.val
  hsize : b.pq.hsize.val = b'.pq.hsize.val
  node : ∀ (j : Nat) (hj : j < 511), j < b.arena.nn.val → b.arena.node[j] = b'.arena.node[j]
  entry : ∀ j : Fin 256, j.val < b.pq.hsize.val → b.pq.heap[j.val] = b'.pq.heap[j.val]
  live : ∀ j : Fin 256, j.val < b.pq.hsize.val → b.pq.heap[j.val].val < b.arena.nn.val

theorem Alike.key {b b' : Builder} (s : Alike b b') {i : Idx} (hi : i.val < b.arena.nn.val) :
    b.arena.key i = b'.arena.key i := by
  unfold Arena.key; rw [s.node i.val i.isLt hi]

theorem Alike.same {b b' : Builder} (s : Alike b b') :
    SameBelow b.arena.key b'.arena.key b.pq.hsize.val b.pq.heap b'.pq.heap :=
  ⟨s.entry, fun j hj => s.key (s.live j hj)⟩

theorem mem_items {q : PQueue} {x : Idx} : x ∈ q.items ↔ ∃ j : Fin 256, j.val < q.hsize.val ∧ q.heap[j.val] = x := by
  have hb := q.hsize.isLt
  rw [List.mem_iff_getElem]
  constructor
  · rintro ⟨j, hj, e⟩
    rw [PQueue.items_length] at hj
    refine ⟨⟨j, by omega⟩, hj, ?_⟩
    rw [← e]; simp [PQueue.items]
  · rintro ⟨j, hj, e⟩
    refine ⟨j.val, by rw [PQueue.items_length]; exact hj, ?_⟩
    rw [← e]; simp [PQueue.items]

/-- Adding the same node keeps builders alike. -/
theorem Alike.add {b b' : Builder} (s : Alike b b') (n : Node) (hn : b.arena.nn.val < 511) (hq : b.pq.hsize.val < 256) :
    ∃ c c', b.add n = .ok c ∧ b'.add n = .ok c' ∧ Alike c c' ∧ c.arena.nn.val = b.arena.nn.val + 1 ∧
      c.pq.hsize.val = b.pq.hsize.val + 1 := by
  have hn' : b'.arena.nn.val < 511 := by rw [← s.nn]; exact hn
  have hq' : b'.pq.hsize.val < 256 := by rw [← s.hsize]; exact hq
  let a : Arena := { node := b.arena.node.set b.arena.nn.val n hn, nn := ⟨b.arena.nn.val + 1, by omega⟩ }
  let a' : Arena := { node := b'.arena.node.set b'.arena.nn.val n hn', nn := ⟨b'.arena.nn.val + 1, by omega⟩ }
  have hnode : ∀ (j : Nat) (hj : j < 511), j < b.arena.nn.val + 1 → a.node[j] = a'.node[j] := by
    intro j hj hlt
    simp only [a, a', Vector.getElem_set, ← s.nn]
    split
    · rfl
    · exact s.node j hj (by omega)
  have hkey : ∀ i : Idx, i.val < b.arena.nn.val + 1 → a.key i = a'.key i := by
    intro i hi; unfold Arena.key; rw [hnode i.val i.isLt hi]
  have hx : (⟨b.arena.nn.val, hn⟩ : Idx) = ⟨b'.arena.nn.val, hn'⟩ := Fin.ext s.nn
  have hset : SameBelow a.key a'.key (b.pq.hsize.val + 1)
      (b.pq.heap.set b.pq.hsize.val ⟨b.arena.nn.val, hn⟩ hq) (b'.pq.heap.set b'.pq.hsize.val ⟨b'.arena.nn.val, hn'⟩ hq') := by
    have e : ∀ j : Fin 256, j.val < b.pq.hsize.val + 1 →
        (b.pq.heap.set b.pq.hsize.val ⟨b.arena.nn.val, hn⟩ hq)[j.val] =
          (b'.pq.heap.set b'.pq.hsize.val ⟨b'.arena.nn.val, hn'⟩ hq')[j.val] ∧
        ((b.pq.heap.set b.pq.hsize.val ⟨b.arena.nn.val, hn⟩ hq)[j.val]).val < b.arena.nn.val + 1 := by
      intro j hj
      simp only [Vector.getElem_set, ← s.hsize, hx]
      split
      · exact ⟨rfl, by have := s.nn; simp only; omega⟩
      · exact ⟨s.entry j (by omega), by have := s.live j (by omega); omega⟩
    exact ⟨fun j hj => (e j hj).1, fun j hj => hkey _ (e j hj).2⟩
  have hup := hset.siftUp b.pq.hsize.val ⟨b.pq.hsize.val, hq⟩ (by simp only; omega)
  obtain ⟨q, hi, z, -, -, hp, -, -⟩ := PQueue.insert_spec a.key ⟨b.arena.nn.val, hn⟩ b.pq hq
  obtain ⟨q', hi', z', -, -, -, -, -⟩ := PQueue.insert_spec a'.key ⟨b'.arena.nn.val, hn'⟩ b'.pq hq'
  have hb : b.add n = .ok { arena := a, pq := q } := by
    unfold Builder.add; rw [dif_pos hn]; show (match b.pq.insert a.key ⟨b.arena.nn.val, hn⟩ with | some q => Except.ok _ | none => _) = _
    rw [hi]
  have hb' : b'.add n = .ok { arena := a', pq := q' } := by
    unfold Builder.add; rw [dif_pos hn']; show (match b'.pq.insert a'.key ⟨b'.arena.nn.val, hn'⟩ with | some q => Except.ok _ | none => _) = _
    rw [hi']
  have hh : q.heap = siftUp a.key b.pq.hsize.val (b.pq.heap.set b.pq.hsize.val ⟨b.arena.nn.val, hn⟩ hq) ⟨b.pq.hsize.val, hq⟩ := by
    unfold PQueue.insert at hi; rw [dif_pos hq] at hi; rw [← Option.some.inj hi]
  have hh' : q'.heap = siftUp a'.key b'.pq.hsize.val (b'.pq.heap.set b'.pq.hsize.val ⟨b'.arena.nn.val, hn'⟩ hq') ⟨b'.pq.hsize.val, hq'⟩ := by
    unfold PQueue.insert at hi'; rw [dif_pos hq'] at hi'; rw [← Option.some.inj hi']
  refine ⟨_, _, hb, hb', ⟨?_, ?_, hnode, ?_, ?_⟩, rfl, z⟩
  · show b.arena.nn.val + 1 = b'.arena.nn.val + 1; rw [s.nn]
  · show q.hsize.val = q'.hsize.val; rw [z, z', s.hsize]
  · intro j hj
    have hj' : j.val < b.pq.hsize.val + 1 := by rw [← z]; exact hj
    have := hup.entry j hj'
    show q.heap[j.val] = q'.heap[j.val]
    simp only [hh, hh']
    rw [this]
    simp only [s.hsize]
  · intro j hj
    show q.heap[j.val].val < b.arena.nn.val + 1
    have hm : q.heap[j.val] ∈ q.items := mem_items.2 ⟨j, hj, rfl⟩
    rcases List.mem_cons.1 (hp.subset hm) with e | e
    · rw [e]; simp
    · obtain ⟨k, hk, e⟩ := mem_items.1 e
      have := s.live k hk
      rw [e] at this; omega

/-- Taking a node keeps builders alike, and takes the same node. -/
theorem Alike.take {b b' : Builder} (s : Alike b b') (h : b.pq.hsize.val ≠ 0) :
    b.pq.heap[0] = b'.pq.heap[0] ∧
    ∃ c c', b.take = .ok (b.pq.heap[0], c) ∧ b'.take = .ok (b'.pq.heap[0], c') ∧ Alike c c' ∧ c.arena = b.arena ∧
      c'.arena = b'.arena ∧ c.pq.hsize.val + 1 = b.pq.hsize.val := by
  have h' : b'.pq.hsize.val ≠ 0 := by rw [← s.hsize]; exact h
  have hb := b.pq.hsize.isLt
  obtain ⟨q, e, z, -, -, hp, -, -⟩ := PQueue.extract_spec b.arena.key 0 b.pq h
  obtain ⟨q', e', z', -, -, -, -, -⟩ := PQueue.extract_spec b'.arena.key 0 b'.pq h'
  have hh : q.heap = removeRoot b.arena.key ⟨b.pq.hsize.val - 1, by omega⟩ b.pq.heap := by
    unfold PQueue.extract at e; rw [dif_neg h] at e; exact congrArg PQueue.heap (Prod.mk.inj e).2.symm
  have hh' : q'.heap = removeRoot b'.arena.key ⟨b'.pq.hsize.val - 1, by omega⟩ b'.pq.heap := by
    unfold PQueue.extract at e'; rw [dif_neg h'] at e'; exact congrArg PQueue.heap (Prod.mk.inj e').2.symm
  have h0 := s.entry 0 (by simp only [Fin.val_zero]; omega)
  have hrem : ∀ j : Fin 256, j.val < b.pq.hsize.val - 1 →
      (removeRoot b.arena.key ⟨b.pq.hsize.val - 1, by omega⟩ b.pq.heap)[j.val] =
        (removeRoot b'.arena.key ⟨b.pq.hsize.val - 1, by omega⟩ b'.pq.heap)[j.val] := by
    intro j hj
    have hset : SameBelow b.arena.key b'.arena.key (b.pq.hsize.val - 1)
        (b.pq.heap.set 0 b.pq.heap[b.pq.hsize.val - 1]) (b'.pq.heap.set 0 b'.pq.heap[b.pq.hsize.val - 1]) := by
      have hl := s.same.entry ⟨b.pq.hsize.val - 1, by omega⟩ (by simp only; omega)
      have kl := s.same.key ⟨b.pq.hsize.val - 1, by omega⟩ (by simp only; omega)
      simp only at hl kl
      constructor
      · intro k hk
        simp only [Vector.getElem_set]
        split
        · exact hl
        · exact s.same.entry k (by omega)
      · intro k hk
        simp only [Vector.getElem_set]
        split
        · exact kl
        · exact s.same.key k (by omega)
    unfold removeRoot
    rw [if_pos (by simp only; omega), if_pos (by simp only; omega)]
    exact (SameBelow.siftDown (size := ⟨b.pq.hsize.val - 1, by omega⟩) _ 0 (by simp only [Fin.val_zero]; omega) hset).entry j hj
  refine ⟨h0, { b with pq := q }, { b' with pq := q' }, ?_, ?_, ⟨s.nn, ?_, s.node, ?_, ?_⟩, rfl, rfl, ?_⟩
  · unfold Builder.take; rw [e]
  · unfold Builder.take; rw [e']
  · show q.hsize.val = q'.hsize.val; rw [z, z', s.hsize]
  · intro j hj
    have hj' : j.val < b.pq.hsize.val - 1 := by rw [← z]; exact hj
    show q.heap[j.val] = q'.heap[j.val]
    simp only [hh, hh']
    rw [hrem j hj']
    simp only [s.hsize]
  · intro j hj
    have hm : q.heap[j.val] ∈ q.items := mem_items.2 ⟨j, hj, rfl⟩
    obtain ⟨k, hk, e2⟩ := mem_items.1 (hp.subset (List.mem_cons_of_mem _ hm))
    show q.heap[j.val].val < b.arena.nn.val
    rw [← e2]; exact s.live k hk
  · show q.hsize.val + 1 = _; omega

theorem Alike.mergeOnce {b b' : Builder} (s : Alike b b') (h : 1 < b.pq.hsize.val) (hn : b.arena.nn.val < 511) {c : Builder}
    (hc : b.mergeOnce = .ok c) : ∃ c', b'.mergeOnce = .ok c' ∧ Alike c c' := by
  obtain ⟨e0, b1, b1', t1, t1', s1, a1, a1', z1⟩ := s.take (by omega)
  obtain ⟨e1, b2, b2', t2, t2', s2, a2, a2', z2⟩ := s1.take (by omega)
  have l0 : b.pq.heap[0].val < b2.arena.nn.val := by
    rw [a2, a1]; exact s.live 0 (by simp only [Fin.val_zero]; omega)
  have l1 : b1.pq.heap[0].val < b2.arena.nn.val := by
    rw [a2]; exact s1.live 0 (by simp only [Fin.val_zero]; omega)
  have nn : b2.arena.nn.val = b.arena.nn.val := by rw [a2, a1]
  unfold Builder.mergeOnce at hc ⊢
  rw [t1] at hc; simp only at hc; rw [t2] at hc; simp only at hc
  rw [t1']; simp only; rw [t2']; simp only
  rw [← e0, ← e1, ← s2.key l0, ← s2.key l1]
  split at hc
  · rename_i hfit
    obtain ⟨d, d', f, f', sd, -⟩ := s2.add (.internal (b2.arena.key b.pq.heap[0] + b2.arena.key b1.pq.heap[0]) b.pq.heap[0] b1.pq.heap[0])
      (by omega) (by omega)
    rw [f] at hc
    rw [if_pos hfit]
    cases hc
    exact ⟨d', f', sd⟩
  · cases hc

theorem add_room {b c : Builder} {n : Node} (h : b.add n = .ok c) : b.arena.nn.val < 511 ∧ b.pq.hsize.val < 256 := by
  unfold Builder.add at h
  split at h
  · rename_i hn
    refine ⟨hn, ?_⟩
    by_contra hq
    have hb := b.pq.hsize.isLt
    simp only [PQueue.insert_full _ _ b.pq (show b.pq.hsize.val = 256 by omega)] at h
    cases h
  · cases h

theorem mergeOnce_room {b c : Builder} (h1 : 1 < b.pq.hsize.val) (h : b.mergeOnce = .ok c) : b.arena.nn.val < 511 := by
  obtain ⟨b1, t1, a1, z1, -⟩ := Builder.take_spec b (by omega)
  obtain ⟨b2, t2, a2, z2, -⟩ := Builder.take_spec b1 (by omega)
  unfold Builder.mergeOnce at h
  rw [t1] at h; simp only at h; rw [t2] at h; simp only at h
  split at h
  · have := (add_room h).1
    rw [a2, a1] at this; exact this
  · cases h

theorem Alike.seed {b b' : Builder} (s : Alike b b') (cnt : Vector Word 256) (syms : List Byte) {c : Builder}
    (h : Builder.seed cnt syms b = .ok c) : ∃ c', Builder.seed cnt syms b' = .ok c' ∧ Alike c c' := by
  induction syms generalizing b b' with
  | nil => cases h; exact ⟨b', rfl, s⟩
  | cons x syms ih =>
    unfold Builder.seed at h ⊢
    cases e : b.add (.leaf x cnt[(symIndex x).val]) with
    | error f => rw [e] at h; cases h
    | ok d =>
      obtain ⟨hn, hq⟩ := add_room e
      obtain ⟨d1, d', e1, e', sd, -⟩ := s.add (.leaf x cnt[(symIndex x).val]) hn hq
      rw [e] at e1; cases e1
      rw [e] at h; rw [e']
      exact ih sd h

theorem Alike.merge {b b' : Builder} (s : Alike b b') (n : Nat) {c : Builder}
    (h : Builder.merge n b = .ok c) : ∃ c', Builder.merge n b' = .ok c' ∧ Alike c c' := by
  induction n generalizing b b' with
  | zero => cases h; exact ⟨b', rfl, s⟩
  | succ n ih =>
    unfold Builder.merge at h ⊢
    rw [← s.hsize]
    split at h
    · rename_i h1
      rw [if_pos h1]
      cases e : b.mergeOnce with
      | error f => rw [e] at h; cases h
      | ok d =>
        obtain ⟨d', e', sd⟩ := s.mergeOnce h1 (mergeOnce_room h1 e) e
        rw [e] at h; rw [e']
        exact ih sd h
    · rename_i h1
      rw [if_neg h1]
      cases h; exact ⟨b', rfl, s⟩

/-- Building from the same symbols and counts gives builders that look alike, whatever stood in the arena and the queue before
(43_tree_builder.md R181 clears sizes only; 10_state.md R48). -/
theorem Alike.build {t t' : FreqTable} (hs : t.symbols = t'.symbols) (hc : t.cnt = t'.cnt) (a a' : Arena) (q q' : PQueue)
    {c : Builder} (h : Builder.build t a q = .ok c) : ∃ c', Builder.build t' a' q' = .ok c' ∧ Alike c c' := by
  have s : Alike (Builder.init a q) (Builder.init a' q') :=
    ⟨rfl, rfl, fun j hj h => by simp [Builder.init] at h, fun j h => by simp [Builder.init] at h,
      fun j h => by simp [Builder.init] at h⟩
  unfold Builder.build at h ⊢
  rw [← hs, ← hc]
  cases e : Builder.seed t.cnt t.symbols (Builder.init a q) with
  | error f => rw [e] at h; cases h
  | ok d =>
    obtain ⟨d', e', sd⟩ := s.seed t.cnt t.symbols e
    rw [e] at h; rw [e']
    simp only at h ⊢
    rw [← sd.hsize]
    exact sd.merge _ h

/-- Builders that look alike hold the same trees. -/
theorem Alike.holds {b b' : Builder} (s : Alike b b') {i : Idx} {t : HuffTree} (hi : i.val < b.arena.nn.val)
    (h : Holds b.arena.node i t) : Holds b'.arena.node i t := by
  induction t generalizing i with
  | leaf x f =>
    have e : b.arena.node[i.val] = .leaf x f := h
    show b'.arena.node[i.val] = _
    rw [← s.node i.val i.isLt hi, e]
  | node f l r ihl ihr =>
    obtain ⟨li, ri, e, h1, h2, h3, h4⟩ := h
    have h1' : li.val < i.val := h1
    have h2' : ri.val < i.val := h2
    exact ⟨li, ri, by rw [← s.node i.val i.isLt hi, e], h1, h2, ihl (by omega) h3, ihr (by omega) h4⟩

end Sys2Proof
end

