-- ==== Sys2Proof/Laws/CodeWalk.lean ====
section
/-! SUPPORT. What the walk of `P_CODE` leaves: every leaf of the tree with its path. -/

namespace Sys2Proof

open Sys2Proof.Machine

/-- The symbols a list of pending subtrees still has to record. -/
def pendingSymbols (pend : List (StackEntry × HuffTree)) : List Byte := pend.flatMap fun x => x.2.leaves.map Prod.fst

/-- What the walk does from any stack of pending subtrees (44_code_table_builder.md R198, R200, R203). -/
theorem Machine.Walk.run_spec (node : Vector Node 511) (n : Nat) (w : Walk) (pend : List (StackEntry × HuffTree))
    (hlive : w.live = pend.map Prod.fst)
    (hholds : ∀ x ∈ pend, Holds node x.1.snode x.2 ∧ x.1.digits.length + x.2.leaves.length ≤ 256)
    (hstack : (pend.map fun x => x.2.leaves.length).sum ≤ 256)
    (hfuel : (pend.map fun x => x.2.size).sum ≤ n)
    (hnodup : (pendingSymbols pend).Nodup)
    (hnew : ∀ b ∈ pendingSymbols pend, w.code[(symIndex b).val] = none) :
    ∃ w', Walk.run node n w = .ok w' ∧ w'.sp.val = 0 ∧
      ∀ (b : Byte) (c : Code), w'.code[(symIndex b).val] = some c ↔
        w.code[(symIndex b).val] = some c ∨ ∃ x ∈ pend, ∃ d, (b, d) ∈ x.2.codes ∧ c = x.1.digits ++ d := by
  induction n generalizing w pend with
  | zero =>
    have hp : pend = [] := by
      cases pend with
      | nil => rfl
      | cons x l =>
        have : 0 < x.2.size := by cases x.2 <;> simp [HuffTree.size]
        simp at hfuel
        omega
    subst hp
    have h0 : w.sp.val = 0 := by rw [← Walk.live_length, hlive]; rfl
    exact ⟨w, by simp [Walk.run, h0], h0, by simp⟩
  | succ n ih =>
    rcases List.eq_nil_or_concat pend with rfl | ⟨rest, ⟨e, t⟩, rfl⟩
    · have h0 : w.sp.val = 0 := by rw [← Walk.live_length, hlive]; rfl
      exact ⟨w, by simp [Walk.run, h0], h0, by simp⟩
    simp only [List.concat_eq_append] at *
    have hsp : w.sp.val = rest.length + 1 := by rw [← Walk.live_length, hlive]; simp
    have hpos : 0 < w.sp.val := by omega
    have hpop := Walk.live_pop w hpos
    rw [hlive, List.map_append, List.map_cons, List.map_nil] at hpop
    obtain ⟨hrest, htop⟩ := List.append_inj' hpop rfl
    have htop : w.stack[w.sp.val - 1] = e := by simpa using htop.symm
    obtain ⟨ht, hd⟩ := hholds (e, t) (by simp)
    have hholds' : ∀ x ∈ rest, Holds node x.1.snode x.2 ∧ x.1.digits.length + x.2.leaves.length ≤ 256 :=
      fun x hx => hholds x (by simp [hx])
    simp only [pendingSymbols, List.flatMap_append, List.flatMap_cons, List.flatMap_nil, List.append_nil] at hnodup hnew
    simp only [List.map_append, List.sum_append, List.map_cons, List.map_nil, List.sum_cons, List.sum_nil] at hstack hfuel
    simp only at ht hd
    cases t with
    | leaf s f =>
      have hs : node[e.snode.val] = .leaf s f := ht
      let w1 : Walk := { w with sp := ⟨w.sp.val - 1, by omega⟩ }
      have hv : w.visit node hpos = .ok (w1.record s e.digits) := by
        unfold Walk.visit; simp only [htop, hs]; rfl
      have hdis := List.nodup_append.1 hnodup
      obtain ⟨w', h1, h2, h3⟩ := ih (w1.record s e.digits) rest hrest.symm hholds' (by omega)
        (by simp only [HuffTree.size] at hfuel; omega) hdis.1
        (fun b hb => by
          rw [Walk.record_code, if_neg]
          · exact hnew b (by simp only [List.mem_append]; exact .inl hb)
          · rintro rfl
            exact hdis.2.2 b hb b (by simp [HuffTree.leaves]) rfl)
      refine ⟨w', ?_, h2, fun b c => ?_⟩
      · unfold Walk.run; rw [dif_pos hpos, hv]; exact h1
      · rw [h3, Walk.record_code]
        have hw1 : w1.code = w.code := rfl
        rw [hw1]
        have hn : w.code[(symIndex s).val] = none := hnew s (by simp [HuffTree.leaves])
        constructor
        · rintro (h | ⟨x, hx, d, hdd, hc⟩)
          · split at h
            · rename_i hb; subst hb
              refine .inr ⟨(e, .leaf b f), by simp, [], by simp [HuffTree.codes], ?_⟩
              simpa using h.symm
            · exact .inl h
          · exact .inr ⟨x, by simp [hx], d, hdd, hc⟩
        · rintro (h | ⟨x, hx, d, hdd, hc⟩)
          · left
            rw [if_neg]
            · exact h
            · rintro rfl; rw [hn] at h; cases h
          · rcases List.mem_append.1 hx with hx | hx
            · exact .inr ⟨x, hx, d, hdd, hc⟩
            · obtain rfl := List.mem_singleton.1 hx
              simp only [HuffTree.codes, List.mem_singleton, Prod.mk.injEq] at hdd
              obtain ⟨rfl, rfl⟩ := hdd
              left
              rw [if_pos rfl, hc]; simp
    | node f l r =>
      obtain ⟨li, ri, hs, -, -, hl, hr⟩ := ht
      have posl := l.leaves_pos
      have posr := r.leaves_pos
      simp only [HuffTree.leaves, List.length_append] at hd hstack
      have hrl : rest.length ≤ (rest.map fun x => x.2.leaves.length).sum := by
        clear * -
        induction rest with
        | nil => simp
        | cons x rest ih => have := x.2.leaves_pos; simp; omega
      let w1 : Walk := { w with sp := ⟨w.sp.val - 1, by omega⟩ }
      have hw1 : w1.sp.val = rest.length := by simp only [w1]; omega
      obtain ⟨w2, p1, p2, p3, p4⟩ := Walk.push_spec ri (e.digits ++ [true]) w1 (by omega) (by simp; omega)
      obtain ⟨w3, q1, q2, q3, q4⟩ := Walk.push_spec li (e.digits ++ [false]) w2 (by omega) (by simp; omega)
      have hv : w.visit node hpos = .ok w3 := by
        unfold Walk.visit; simp only [htop, hs]
        show (match w1.push ri (e.digits ++ [true]) with
          | .ok w2 => w2.push li (e.digits ++ [false])
          | .error f => .error f) = _
        rw [p1]; exact q1
      have hsyms : (pendingSymbols (rest ++ [({ snode := ri, digits := e.digits ++ [true] }, r),
          ({ snode := li, digits := e.digits ++ [false] }, l)])).Perm
          (rest.flatMap (fun x => x.2.leaves.map Prod.fst) ++ (HuffTree.node f l r).leaves.map Prod.fst) := by
        simp only [pendingSymbols, List.flatMap_append, List.flatMap_cons, List.flatMap_nil, List.append_nil, HuffTree.leaves,
          List.map_append]
        exact List.perm_append_comm.append_left _
      obtain ⟨w', h1, h2, h3⟩ := ih w3 (rest ++ [({ snode := ri, digits := e.digits ++ [true] }, r),
          ({ snode := li, digits := e.digits ++ [false] }, l)])
        (by rw [q4, p4, show w1.live = rest.map Prod.fst from hrest.symm]; simp)
        (by
          intro x hx
          simp only [List.mem_append, List.mem_cons, List.not_mem_nil, or_false] at hx
          rcases hx with hx | rfl | rfl
          · exact hholds' x hx
          · exact ⟨hr, by simp; omega⟩
          · exact ⟨hl, by simp; omega⟩)
        (by simp; omega)
        (by simp only [HuffTree.size] at hfuel; simp; omega)
        (hsyms.nodup_iff.2 hnodup)
        (by
          intro b hb
          rw [q3, p3]
          exact hnew b (hsyms.subset hb))
      refine ⟨w', ?_, h2, fun b c => ?_⟩
      · unfold Walk.run; rw [dif_pos hpos, hv]; exact h1
      · rw [h3, q3, p3]
        show w.code[(symIndex b).val] = some c ∨ _ ↔ _
        simp only [List.mem_append, List.mem_cons, List.not_mem_nil, or_false]
        constructor
        · rintro (h | ⟨x, hx | rfl | rfl, d, hdd, hc⟩)
          · exact .inl h
          · exact .inr ⟨x, .inl hx, d, hdd, hc⟩
          · exact .inr ⟨(e, .node f l r), .inr rfl, true :: d, by simp [HuffTree.codes, hdd], by simpa using hc⟩
          · exact .inr ⟨(e, .node f l r), .inr rfl, false :: d, by simp [HuffTree.codes, hdd], by simpa using hc⟩
        · rintro (h | ⟨x, hx | rfl, d, hdd, hc⟩)
          · exact .inl h
          · exact .inr ⟨x, .inl hx, d, hdd, hc⟩
          · simp only [HuffTree.codes, List.mem_append, List.mem_map] at hdd
            rcases hdd with ⟨⟨b', d'⟩, hm, he⟩ | ⟨⟨b', d'⟩, hm, he⟩
            · simp only [Prod.mk.injEq] at he
              obtain ⟨rfl, rfl⟩ := he
              exact .inr ⟨_, .inr (.inr rfl), d', hm, by simpa using hc⟩
            · simp only [Prod.mk.injEq] at he
              obtain ⟨rfl, rfl⟩ := he
              exact .inr ⟨_, .inr (.inl rfl), d', hm, by simpa using hc⟩

/-- What the walk of a whole tree does (44_code_table_builder.md R196, R198). -/
theorem Machine.Walk.from_spec (node : Vector Node 511) (root : Idx) (t : HuffTree) (w : Walk) (ht : Holds node root t)
    (hsize : t.size ≤ 511) (hnodup : (t.leaves.map Prod.fst).Nodup) :
    ∃ w', Walk.from node root w = .ok w' ∧ w'.sp.val = 0 ∧
      ∀ (b : Byte) (c : Code), w'.code[(symIndex b).val] = some c ↔ (b, c) ∈ t.codes := by
  have hz := t.size_leaves
  obtain ⟨w1, p1, p2, p3, p4⟩ := Walk.push_spec root [] w.init (by simp [Walk.init]) (by simp)
  have hl : w.init.live = [] := by simp [Walk.live, Walk.init]
  have hc : ∀ b : Byte, w1.code[(symIndex b).val] = none := by intro b; rw [p3]; simp [Walk.init]
  obtain ⟨w', h1, h2, h3⟩ := Walk.run_spec node Config.maxNodes w1 [({ snode := root, digits := [] }, t)]
    (by rw [p4, hl]; rfl) (by intro x hx; obtain rfl := List.mem_singleton.1 hx; exact ⟨ht, by simp; omega⟩)
    (by simp; omega) (by simpa [Config.maxNodes] using hsize) (by simpa [pendingSymbols] using hnodup)
    (fun b _ => hc b)
  refine ⟨w', ?_, h2, fun b c => ?_⟩
  · unfold Walk.from; rw [p1]; exact h1
  · rw [h3, hc]
    simp

end Sys2Proof
end

