-- ==== Sys2Proof/Laws/Counting.lean ====
section
/-! SUPPORT. What the scan of `P_FREQ` leaves: the frequency table of the bytes counted. -/

namespace Sys2Proof

open Sys2Proof.Machine

theorem CountsOf.nodup {t : FreqTable} {l : List Byte} (h : CountsOf t l) : t.symbols.Nodup :=
  h.order.imp fun hab => by rintro rfl; exact Nat.lt_irrefl _ hab

theorem CountsOf.room {t : FreqTable} {l : List Byte} (h : CountsOf t l) {b : Byte} (hb : b ∉ l) : t.k.val < 256 := by
  have hn : (b :: t.symbols).Nodup := List.nodup_cons.2 ⟨fun hm => hb ((h.present b).1 hm), h.nodup⟩
  have hc := hn.length_le_card
  have e : Fintype.card (BitVec 8) = 256 := by
    rw [Fintype.card_congr (⟨BitVec.toFin, BitVec.ofFin, fun _ => rfl, fun _ => rfl⟩ : BitVec 8 ≃ Fin (2 ^ 8)), Fintype.card_fin]
    rfl
  rw [List.length_cons, FreqTable.symbols_length, e] at hc
  omega

/-- Counting one more byte. -/
theorem CountsOf.count {t : FreqTable} {l : List Byte} (h : CountsOf t l) (b : Byte) (hl : l.length + 1 < 2 ^ 32) :
    CountsOf (t.count b) (l ++ [b]) := by
  have hz : t.cnt[(symIndex b).val] = 0 ↔ b ∉ l := by
    rw [← List.count_eq_zero, ← h.cnt b]
    constructor
    · intro e; rw [e]; rfl
    · intro e; exact BitVec.eq_of_toNat_eq e
  have hs := t.count_symbols b fun h0 => h.room (hz.1 h0)
  have hidx : ∀ a ∈ l, (l ++ [b]).idxOf a = l.idxOf a := fun a ha => List.idxOf_append_of_mem ha
  refine ⟨fun c => ?_, fun c => ?_, ?_⟩
  · rw [FreqTable.count_cnt, List.count_append]
    have := List.count_le_length (a := c) (l := l)
    split
    · rename_i e; subst e
      rw [BitVec.toNat_add, h.cnt c]
      simp
      omega
    · rename_i e
      rw [h.cnt c]
      simp [Ne.symm e]
  · rw [hs]
    split
    · simp [h.present c]
    · rename_i e
      have : b ∈ l := by by_contra hb; exact e (hz.2 hb)
      rw [h.present c]; simp; rintro rfl; exact this
  · rw [hs]
    have hold : t.symbols.Pairwise fun a c => (l ++ [b]).idxOf a < (l ++ [b]).idxOf c := by
      refine h.order.imp_of_mem fun ha hc hac => ?_
      rw [hidx _ ((h.present _).1 ha), hidx _ ((h.present _).1 hc)]
      exact hac
    split
    · rename_i e
      refine List.pairwise_append.2 ⟨hold, List.pairwise_singleton _ _, fun a ha c hc => ?_⟩
      have hb := hz.1 e
      have ha := (h.present _).1 ha
      obtain rfl := List.mem_singleton.1 hc
      rw [hidx a ha, List.idxOf_append_of_notMem hb]
      have := List.idxOf_lt_length_iff.2 ha
      omega
    · exact hold

/-- The scan (41_frequency_counter.md R151, R152): the table of the bytes counted. -/
theorem countsOf_scan (t : FreqTable) (l : List Byte) (hl : l.length < 2 ^ 32) :
    CountsOf (l.foldl FreqTable.count t.init) l := by
  suffices ∀ (suf pre : List Byte) (u : FreqTable), CountsOf u pre → (pre ++ suf).length < 2 ^ 32 →
      CountsOf (suf.foldl FreqTable.count u) (pre ++ suf) from
    this l [] t.init ⟨fun b => by simp, fun b => by simp, by simp⟩ hl
  intro suf
  induction suf with
  | nil => intro pre u h _; simpa using h
  | cons b suf ih =>
    intro pre u h hlen
    have hlen' : pre.length + 1 + suf.length < 2 ^ 32 := by simp at hlen; omega
    have := ih (pre ++ [b]) (u.count b) (h.count b (by omega)) (by simp; omega)
    simpa using this

end Sys2Proof
end

