-- ==== Sys2Proof/Laws/State.lean ====
section
/-! SUPPORT. One lemma per field per named update of the state, each true by definition, so that no proof unfolds an update. -/

namespace Sys2Proof.Machine

variable (s : State)

/-! ### `State.answer` -/
@[simp] theorem State.answer_params (v : Word) : (s.answer v).params = s.params := rfl
@[simp] theorem State.answer_busy (v : Word) : (s.answer v).busy = s.busy := rfl
@[simp] theorem State.answer_done (v : Word) : (s.answer v).done = s.done := rfl
@[simp] theorem State.answer_fail (v : Word) : (s.answer v).fail = s.fail := rfl
@[simp] theorem State.answer_phase (v : Word) : (s.answer v).phase = s.phase := rfl
@[simp] theorem State.answer_cond (v : Word) : (s.answer v).cond = s.cond := rfl
@[simp] theorem State.answer_herrBusy (v : Word) : (s.answer v).herrBusy = s.herrBusy := rfl
@[simp] theorem State.answer_herrCmd (v : Word) : (s.answer v).herrCmd = s.herrCmd := rfl
@[simp] theorem State.answer_herrAcc (v : Word) : (s.answer v).herrAcc = s.herrAcc := rfl
@[simp] theorem State.answer_inLen (v : Word) : (s.answer v).inLen = s.inLen := rfl
@[simp] theorem State.answer_outLen (v : Word) : (s.answer v).outLen = s.outLen := rfl
@[simp] theorem State.answer_inbuf (v : Word) : (s.answer v).inbuf = s.inbuf := rfl
@[simp] theorem State.answer_outbuf (v : Word) : (s.answer v).outbuf = s.outbuf := rfl
@[simp] theorem State.answer_freq (v : Word) : (s.answer v).freq = s.freq := rfl
@[simp] theorem State.answer_arena (v : Word) : (s.answer v).arena = s.arena := rfl
@[simp] theorem State.answer_root (v : Word) : (s.answer v).root = s.root := rfl
@[simp] theorem State.answer_rootValid (v : Word) : (s.answer v).rootValid = s.rootValid := rfl
@[simp] theorem State.answer_pq (v : Word) : (s.answer v).pq = s.pq := rfl
@[simp] theorem State.answer_walk (v : Word) : (s.answer v).walk = s.walk := rfl
@[simp] theorem State.answer_degen (v : Word) : (s.answer v).degen = s.degen := rfl
@[simp] theorem State.answer_bits (v : Word) : (s.answer v).bits = s.bits := rfl
@[simp] theorem State.answer_acc (v : Word) : (s.answer v).acc = s.acc := rfl
@[simp] theorem State.answer_idx (v : Word) : (s.answer v).idx = s.idx := rfl
@[simp] theorem State.answer_rdata (v : Word) : (s.answer v).rdata = some v := rfl
@[simp] theorem State.answer_input (v : Word) : (s.answer v).input = s.input := rfl
@[simp] theorem State.answer_draws (v : Word) : (s.answer v).draws = s.draws := rfl
@[simp] theorem State.answer_epoch (v : Word) : (s.answer v).epoch = s.epoch := rfl

/-! ### `State.noAnswer` -/
@[simp] theorem State.noAnswer_params : (s.noAnswer).params = s.params := rfl
@[simp] theorem State.noAnswer_busy : (s.noAnswer).busy = s.busy := rfl
@[simp] theorem State.noAnswer_done : (s.noAnswer).done = s.done := rfl
@[simp] theorem State.noAnswer_fail : (s.noAnswer).fail = s.fail := rfl
@[simp] theorem State.noAnswer_phase : (s.noAnswer).phase = s.phase := rfl
@[simp] theorem State.noAnswer_cond : (s.noAnswer).cond = s.cond := rfl
@[simp] theorem State.noAnswer_herrBusy : (s.noAnswer).herrBusy = s.herrBusy := rfl
@[simp] theorem State.noAnswer_herrCmd : (s.noAnswer).herrCmd = s.herrCmd := rfl
@[simp] theorem State.noAnswer_herrAcc : (s.noAnswer).herrAcc = s.herrAcc := rfl
@[simp] theorem State.noAnswer_inLen : (s.noAnswer).inLen = s.inLen := rfl
@[simp] theorem State.noAnswer_outLen : (s.noAnswer).outLen = s.outLen := rfl
@[simp] theorem State.noAnswer_inbuf : (s.noAnswer).inbuf = s.inbuf := rfl
@[simp] theorem State.noAnswer_outbuf : (s.noAnswer).outbuf = s.outbuf := rfl
@[simp] theorem State.noAnswer_freq : (s.noAnswer).freq = s.freq := rfl
@[simp] theorem State.noAnswer_arena : (s.noAnswer).arena = s.arena := rfl
@[simp] theorem State.noAnswer_root : (s.noAnswer).root = s.root := rfl
@[simp] theorem State.noAnswer_rootValid : (s.noAnswer).rootValid = s.rootValid := rfl
@[simp] theorem State.noAnswer_pq : (s.noAnswer).pq = s.pq := rfl
@[simp] theorem State.noAnswer_walk : (s.noAnswer).walk = s.walk := rfl
@[simp] theorem State.noAnswer_degen : (s.noAnswer).degen = s.degen := rfl
@[simp] theorem State.noAnswer_bits : (s.noAnswer).bits = s.bits := rfl
@[simp] theorem State.noAnswer_acc : (s.noAnswer).acc = s.acc := rfl
@[simp] theorem State.noAnswer_idx : (s.noAnswer).idx = s.idx := rfl
@[simp] theorem State.noAnswer_rdata : (s.noAnswer).rdata = none := rfl
@[simp] theorem State.noAnswer_input : (s.noAnswer).input = s.input := rfl
@[simp] theorem State.noAnswer_draws : (s.noAnswer).draws = s.draws := rfl
@[simp] theorem State.noAnswer_epoch : (s.noAnswer).epoch = s.epoch := rfl

/-! ### `State.answerUnspecified` -/
@[simp] theorem State.answerUnspecified_params : (s.answerUnspecified).params = s.params := rfl
@[simp] theorem State.answerUnspecified_busy : (s.answerUnspecified).busy = s.busy := rfl
@[simp] theorem State.answerUnspecified_done : (s.answerUnspecified).done = s.done := rfl
@[simp] theorem State.answerUnspecified_fail : (s.answerUnspecified).fail = s.fail := rfl
@[simp] theorem State.answerUnspecified_phase : (s.answerUnspecified).phase = s.phase := rfl
@[simp] theorem State.answerUnspecified_cond : (s.answerUnspecified).cond = s.cond := rfl
@[simp] theorem State.answerUnspecified_herrBusy : (s.answerUnspecified).herrBusy = s.herrBusy := rfl
@[simp] theorem State.answerUnspecified_herrCmd : (s.answerUnspecified).herrCmd = s.herrCmd := rfl
@[simp] theorem State.answerUnspecified_herrAcc : (s.answerUnspecified).herrAcc = s.herrAcc := rfl
@[simp] theorem State.answerUnspecified_inLen : (s.answerUnspecified).inLen = s.inLen := rfl
@[simp] theorem State.answerUnspecified_outLen : (s.answerUnspecified).outLen = s.outLen := rfl
@[simp] theorem State.answerUnspecified_inbuf : (s.answerUnspecified).inbuf = s.inbuf := rfl
@[simp] theorem State.answerUnspecified_outbuf : (s.answerUnspecified).outbuf = s.outbuf := rfl
@[simp] theorem State.answerUnspecified_freq : (s.answerUnspecified).freq = s.freq := rfl
@[simp] theorem State.answerUnspecified_arena : (s.answerUnspecified).arena = s.arena := rfl
@[simp] theorem State.answerUnspecified_root : (s.answerUnspecified).root = s.root := rfl
@[simp] theorem State.answerUnspecified_rootValid : (s.answerUnspecified).rootValid = s.rootValid := rfl
@[simp] theorem State.answerUnspecified_pq : (s.answerUnspecified).pq = s.pq := rfl
@[simp] theorem State.answerUnspecified_walk : (s.answerUnspecified).walk = s.walk := rfl
@[simp] theorem State.answerUnspecified_degen : (s.answerUnspecified).degen = s.degen := rfl
@[simp] theorem State.answerUnspecified_bits : (s.answerUnspecified).bits = s.bits := rfl
@[simp] theorem State.answerUnspecified_acc : (s.answerUnspecified).acc = s.acc := rfl
@[simp] theorem State.answerUnspecified_idx : (s.answerUnspecified).idx = s.idx := rfl
@[simp] theorem State.answerUnspecified_rdata : (s.answerUnspecified).rdata = some (Config.unspecified32 s.draws) := rfl
@[simp] theorem State.answerUnspecified_input : (s.answerUnspecified).input = s.input := rfl
@[simp] theorem State.answerUnspecified_draws : (s.answerUnspecified).draws = s.draws + 1 := rfl
@[simp] theorem State.answerUnspecified_epoch : (s.answerUnspecified).epoch = s.epoch := rfl

/-! ### `State.answerUnspecifiedByte` -/
@[simp] theorem State.answerUnspecifiedByte_params : (s.answerUnspecifiedByte).params = s.params := rfl
@[simp] theorem State.answerUnspecifiedByte_busy : (s.answerUnspecifiedByte).busy = s.busy := rfl
@[simp] theorem State.answerUnspecifiedByte_done : (s.answerUnspecifiedByte).done = s.done := rfl
@[simp] theorem State.answerUnspecifiedByte_fail : (s.answerUnspecifiedByte).fail = s.fail := rfl
@[simp] theorem State.answerUnspecifiedByte_phase : (s.answerUnspecifiedByte).phase = s.phase := rfl
@[simp] theorem State.answerUnspecifiedByte_cond : (s.answerUnspecifiedByte).cond = s.cond := rfl
@[simp] theorem State.answerUnspecifiedByte_herrBusy : (s.answerUnspecifiedByte).herrBusy = s.herrBusy := rfl
@[simp] theorem State.answerUnspecifiedByte_herrCmd : (s.answerUnspecifiedByte).herrCmd = s.herrCmd := rfl
@[simp] theorem State.answerUnspecifiedByte_herrAcc : (s.answerUnspecifiedByte).herrAcc = s.herrAcc := rfl
@[simp] theorem State.answerUnspecifiedByte_inLen : (s.answerUnspecifiedByte).inLen = s.inLen := rfl
@[simp] theorem State.answerUnspecifiedByte_outLen : (s.answerUnspecifiedByte).outLen = s.outLen := rfl
@[simp] theorem State.answerUnspecifiedByte_inbuf : (s.answerUnspecifiedByte).inbuf = s.inbuf := rfl
@[simp] theorem State.answerUnspecifiedByte_outbuf : (s.answerUnspecifiedByte).outbuf = s.outbuf := rfl
@[simp] theorem State.answerUnspecifiedByte_freq : (s.answerUnspecifiedByte).freq = s.freq := rfl
@[simp] theorem State.answerUnspecifiedByte_arena : (s.answerUnspecifiedByte).arena = s.arena := rfl
@[simp] theorem State.answerUnspecifiedByte_root : (s.answerUnspecifiedByte).root = s.root := rfl
@[simp] theorem State.answerUnspecifiedByte_rootValid : (s.answerUnspecifiedByte).rootValid = s.rootValid := rfl
@[simp] theorem State.answerUnspecifiedByte_pq : (s.answerUnspecifiedByte).pq = s.pq := rfl
@[simp] theorem State.answerUnspecifiedByte_walk : (s.answerUnspecifiedByte).walk = s.walk := rfl
@[simp] theorem State.answerUnspecifiedByte_degen : (s.answerUnspecifiedByte).degen = s.degen := rfl
@[simp] theorem State.answerUnspecifiedByte_bits : (s.answerUnspecifiedByte).bits = s.bits := rfl
@[simp] theorem State.answerUnspecifiedByte_acc : (s.answerUnspecifiedByte).acc = s.acc := rfl
@[simp] theorem State.answerUnspecifiedByte_idx : (s.answerUnspecifiedByte).idx = s.idx := rfl
@[simp] theorem State.answerUnspecifiedByte_rdata : (s.answerUnspecifiedByte).rdata = some (zextByte (Config.unspecified8 s.draws)) := rfl
@[simp] theorem State.answerUnspecifiedByte_input : (s.answerUnspecifiedByte).input = s.input := rfl
@[simp] theorem State.answerUnspecifiedByte_draws : (s.answerUnspecifiedByte).draws = s.draws + 1 := rfl
@[simp] theorem State.answerUnspecifiedByte_epoch : (s.answerUnspecifiedByte).epoch = s.epoch := rfl

/-! ### `State.clearResult` -/
@[simp] theorem State.clearResult_params : (s.clearResult).params = s.params := rfl
@[simp] theorem State.clearResult_busy : (s.clearResult).busy = s.busy := rfl
@[simp] theorem State.clearResult_done : (s.clearResult).done = false := rfl
@[simp] theorem State.clearResult_fail : (s.clearResult).fail = false := rfl
@[simp] theorem State.clearResult_phase : (s.clearResult).phase = s.phase := rfl
@[simp] theorem State.clearResult_cond : (s.clearResult).cond = .none := rfl
@[simp] theorem State.clearResult_herrBusy : (s.clearResult).herrBusy = s.herrBusy := rfl
@[simp] theorem State.clearResult_herrCmd : (s.clearResult).herrCmd = s.herrCmd := rfl
@[simp] theorem State.clearResult_herrAcc : (s.clearResult).herrAcc = s.herrAcc := rfl
@[simp] theorem State.clearResult_inLen : (s.clearResult).inLen = s.inLen := rfl
@[simp] theorem State.clearResult_outLen : (s.clearResult).outLen = 0 := rfl
@[simp] theorem State.clearResult_inbuf : (s.clearResult).inbuf = s.inbuf := rfl
@[simp] theorem State.clearResult_outbuf : (s.clearResult).outbuf = s.outbuf := rfl
@[simp] theorem State.clearResult_freq : (s.clearResult).freq = s.freq := rfl
@[simp] theorem State.clearResult_arena : (s.clearResult).arena = s.arena := rfl
@[simp] theorem State.clearResult_root : (s.clearResult).root = s.root := rfl
@[simp] theorem State.clearResult_rootValid : (s.clearResult).rootValid = s.rootValid := rfl
@[simp] theorem State.clearResult_pq : (s.clearResult).pq = s.pq := rfl
@[simp] theorem State.clearResult_walk : (s.clearResult).walk = s.walk := rfl
@[simp] theorem State.clearResult_degen : (s.clearResult).degen = s.degen := rfl
@[simp] theorem State.clearResult_bits : (s.clearResult).bits = s.bits := rfl
@[simp] theorem State.clearResult_acc : (s.clearResult).acc = s.acc := rfl
@[simp] theorem State.clearResult_idx : (s.clearResult).idx = s.idx := rfl
@[simp] theorem State.clearResult_rdata : (s.clearResult).rdata = s.rdata := rfl
@[simp] theorem State.clearResult_input : (s.clearResult).input = s.input := rfl
@[simp] theorem State.clearResult_draws : (s.clearResult).draws = s.draws := rfl
@[simp] theorem State.clearResult_epoch : (s.clearResult).epoch = s.epoch := rfl

/-! ### `State.cmdClear` -/
@[simp] theorem State.cmdClear_params : (s.cmdClear).params = s.params := rfl
@[simp] theorem State.cmdClear_busy : (s.cmdClear).busy = s.busy := rfl
@[simp] theorem State.cmdClear_done : (s.cmdClear).done = false := rfl
@[simp] theorem State.cmdClear_fail : (s.cmdClear).fail = false := rfl
@[simp] theorem State.cmdClear_phase : (s.cmdClear).phase = s.phase := rfl
@[simp] theorem State.cmdClear_cond : (s.cmdClear).cond = .none := rfl
@[simp] theorem State.cmdClear_herrBusy : (s.cmdClear).herrBusy = false := rfl
@[simp] theorem State.cmdClear_herrCmd : (s.cmdClear).herrCmd = false := rfl
@[simp] theorem State.cmdClear_herrAcc : (s.cmdClear).herrAcc = false := rfl
@[simp] theorem State.cmdClear_inLen : (s.cmdClear).inLen = s.inLen := rfl
@[simp] theorem State.cmdClear_outLen : (s.cmdClear).outLen = 0 := rfl
@[simp] theorem State.cmdClear_inbuf : (s.cmdClear).inbuf = s.inbuf := rfl
@[simp] theorem State.cmdClear_outbuf : (s.cmdClear).outbuf = s.outbuf := rfl
@[simp] theorem State.cmdClear_freq : (s.cmdClear).freq = s.freq := rfl
@[simp] theorem State.cmdClear_arena : (s.cmdClear).arena = s.arena := rfl
@[simp] theorem State.cmdClear_root : (s.cmdClear).root = s.root := rfl
@[simp] theorem State.cmdClear_rootValid : (s.cmdClear).rootValid = s.rootValid := rfl
@[simp] theorem State.cmdClear_pq : (s.cmdClear).pq = s.pq := rfl
@[simp] theorem State.cmdClear_walk : (s.cmdClear).walk = s.walk := rfl
@[simp] theorem State.cmdClear_degen : (s.cmdClear).degen = s.degen := rfl
@[simp] theorem State.cmdClear_bits : (s.cmdClear).bits = s.bits := rfl
@[simp] theorem State.cmdClear_acc : (s.cmdClear).acc = s.acc := rfl
@[simp] theorem State.cmdClear_idx : (s.cmdClear).idx = s.idx := rfl
@[simp] theorem State.cmdClear_rdata : (s.cmdClear).rdata = s.rdata := rfl
@[simp] theorem State.cmdClear_input : (s.cmdClear).input = s.input := rfl
@[simp] theorem State.cmdClear_draws : (s.cmdClear).draws = s.draws := rfl
@[simp] theorem State.cmdClear_epoch : (s.cmdClear).epoch = s.epoch := rfl

/-! ### `State.cmdReserved` -/
@[simp] theorem State.cmdReserved_params : (s.cmdReserved).params = s.params := rfl
@[simp] theorem State.cmdReserved_busy : (s.cmdReserved).busy = s.busy := rfl
@[simp] theorem State.cmdReserved_done : (s.cmdReserved).done = s.done := rfl
@[simp] theorem State.cmdReserved_fail : (s.cmdReserved).fail = s.fail := rfl
@[simp] theorem State.cmdReserved_phase : (s.cmdReserved).phase = s.phase := rfl
@[simp] theorem State.cmdReserved_cond : (s.cmdReserved).cond = s.cond := rfl
@[simp] theorem State.cmdReserved_herrBusy : (s.cmdReserved).herrBusy = s.herrBusy := rfl
@[simp] theorem State.cmdReserved_herrCmd : (s.cmdReserved).herrCmd = true := rfl
@[simp] theorem State.cmdReserved_herrAcc : (s.cmdReserved).herrAcc = s.herrAcc := rfl
@[simp] theorem State.cmdReserved_inLen : (s.cmdReserved).inLen = s.inLen := rfl
@[simp] theorem State.cmdReserved_outLen : (s.cmdReserved).outLen = s.outLen := rfl
@[simp] theorem State.cmdReserved_inbuf : (s.cmdReserved).inbuf = s.inbuf := rfl
@[simp] theorem State.cmdReserved_outbuf : (s.cmdReserved).outbuf = s.outbuf := rfl
@[simp] theorem State.cmdReserved_freq : (s.cmdReserved).freq = s.freq := rfl
@[simp] theorem State.cmdReserved_arena : (s.cmdReserved).arena = s.arena := rfl
@[simp] theorem State.cmdReserved_root : (s.cmdReserved).root = s.root := rfl
@[simp] theorem State.cmdReserved_rootValid : (s.cmdReserved).rootValid = s.rootValid := rfl
@[simp] theorem State.cmdReserved_pq : (s.cmdReserved).pq = s.pq := rfl
@[simp] theorem State.cmdReserved_walk : (s.cmdReserved).walk = s.walk := rfl
@[simp] theorem State.cmdReserved_degen : (s.cmdReserved).degen = s.degen := rfl
@[simp] theorem State.cmdReserved_bits : (s.cmdReserved).bits = s.bits := rfl
@[simp] theorem State.cmdReserved_acc : (s.cmdReserved).acc = s.acc := rfl
@[simp] theorem State.cmdReserved_idx : (s.cmdReserved).idx = s.idx := rfl
@[simp] theorem State.cmdReserved_rdata : (s.cmdReserved).rdata = s.rdata := rfl
@[simp] theorem State.cmdReserved_input : (s.cmdReserved).input = s.input := rfl
@[simp] theorem State.cmdReserved_draws : (s.cmdReserved).draws = s.draws := rfl
@[simp] theorem State.cmdReserved_epoch : (s.cmdReserved).epoch = s.epoch := rfl

/-! ### `State.enterFailure` -/
@[simp] theorem State.enterFailure_params (f : Failure) : (s.enterFailure f).params = s.params := rfl
@[simp] theorem State.enterFailure_busy (f : Failure) : (s.enterFailure f).busy = false := rfl
@[simp] theorem State.enterFailure_done (f : Failure) : (s.enterFailure f).done = s.done := rfl
@[simp] theorem State.enterFailure_fail (f : Failure) : (s.enterFailure f).fail = true := rfl
@[simp] theorem State.enterFailure_phase (f : Failure) : (s.enterFailure f).phase = .idle := rfl
@[simp] theorem State.enterFailure_cond (f : Failure) : (s.enterFailure f).cond = f.cond := rfl
@[simp] theorem State.enterFailure_herrBusy (f : Failure) : (s.enterFailure f).herrBusy = s.herrBusy := rfl
@[simp] theorem State.enterFailure_herrCmd (f : Failure) : (s.enterFailure f).herrCmd = s.herrCmd := rfl
@[simp] theorem State.enterFailure_herrAcc (f : Failure) : (s.enterFailure f).herrAcc = s.herrAcc := rfl
@[simp] theorem State.enterFailure_inLen (f : Failure) : (s.enterFailure f).inLen = s.inLen := rfl
@[simp] theorem State.enterFailure_outLen (f : Failure) : (s.enterFailure f).outLen = 0 := rfl
@[simp] theorem State.enterFailure_inbuf (f : Failure) : (s.enterFailure f).inbuf = s.inbuf := rfl
@[simp] theorem State.enterFailure_outbuf (f : Failure) : (s.enterFailure f).outbuf = s.outbuf := rfl
@[simp] theorem State.enterFailure_freq (f : Failure) : (s.enterFailure f).freq = s.freq := rfl
@[simp] theorem State.enterFailure_arena (f : Failure) : (s.enterFailure f).arena = s.arena := rfl
@[simp] theorem State.enterFailure_root (f : Failure) : (s.enterFailure f).root = s.root := rfl
@[simp] theorem State.enterFailure_rootValid (f : Failure) : (s.enterFailure f).rootValid = s.rootValid := rfl
@[simp] theorem State.enterFailure_pq (f : Failure) : (s.enterFailure f).pq = s.pq := rfl
@[simp] theorem State.enterFailure_walk (f : Failure) : (s.enterFailure f).walk = s.walk := rfl
@[simp] theorem State.enterFailure_degen (f : Failure) : (s.enterFailure f).degen = s.degen := rfl
@[simp] theorem State.enterFailure_bits (f : Failure) : (s.enterFailure f).bits = s.bits := rfl
@[simp] theorem State.enterFailure_acc (f : Failure) : (s.enterFailure f).acc = s.acc := rfl
@[simp] theorem State.enterFailure_idx (f : Failure) : (s.enterFailure f).idx = s.idx := rfl
@[simp] theorem State.enterFailure_rdata (f : Failure) : (s.enterFailure f).rdata = s.rdata := rfl
@[simp] theorem State.enterFailure_input (f : Failure) : (s.enterFailure f).input = s.input := rfl
@[simp] theorem State.enterFailure_draws (f : Failure) : (s.enterFailure f).draws = s.draws := rfl
@[simp] theorem State.enterFailure_epoch (f : Failure) : (s.enterFailure f).epoch = s.epoch := rfl

/-! ### `State.complete` -/
@[simp] theorem State.complete_params : (s.complete).params = s.params := rfl
@[simp] theorem State.complete_busy : (s.complete).busy = false := rfl
@[simp] theorem State.complete_done : (s.complete).done = true := rfl
@[simp] theorem State.complete_fail : (s.complete).fail = s.fail := rfl
@[simp] theorem State.complete_phase : (s.complete).phase = .idle := rfl
@[simp] theorem State.complete_cond : (s.complete).cond = if s.degen then .degenerateAlphabet else .none := rfl
@[simp] theorem State.complete_herrBusy : (s.complete).herrBusy = s.herrBusy := rfl
@[simp] theorem State.complete_herrCmd : (s.complete).herrCmd = s.herrCmd := rfl
@[simp] theorem State.complete_herrAcc : (s.complete).herrAcc = s.herrAcc := rfl
@[simp] theorem State.complete_inLen : (s.complete).inLen = s.inLen := rfl
@[simp] theorem State.complete_outLen : (s.complete).outLen = BitVec.ofNat 32 (bytesFor s.bits.toNat) := rfl
@[simp] theorem State.complete_inbuf : (s.complete).inbuf = s.inbuf := rfl
@[simp] theorem State.complete_outbuf : (s.complete).outbuf = s.outbuf := rfl
@[simp] theorem State.complete_freq : (s.complete).freq = s.freq := rfl
@[simp] theorem State.complete_arena : (s.complete).arena = s.arena := rfl
@[simp] theorem State.complete_root : (s.complete).root = s.root := rfl
@[simp] theorem State.complete_rootValid : (s.complete).rootValid = s.rootValid := rfl
@[simp] theorem State.complete_pq : (s.complete).pq = s.pq := rfl
@[simp] theorem State.complete_walk : (s.complete).walk = s.walk := rfl
@[simp] theorem State.complete_degen : (s.complete).degen = s.degen := rfl
@[simp] theorem State.complete_bits : (s.complete).bits = s.bits := rfl
@[simp] theorem State.complete_acc : (s.complete).acc = s.acc := rfl
@[simp] theorem State.complete_idx : (s.complete).idx = s.idx := rfl
@[simp] theorem State.complete_rdata : (s.complete).rdata = s.rdata := rfl
@[simp] theorem State.complete_input : (s.complete).input = s.input := rfl
@[simp] theorem State.complete_draws : (s.complete).draws = s.draws := rfl
@[simp] theorem State.complete_epoch : (s.complete).epoch = s.epoch := rfl

/-! ### `State.withPacker` -/
@[simp] theorem State.withPacker_params (p : Packer) : (s.withPacker p).params = s.params := rfl
@[simp] theorem State.withPacker_busy (p : Packer) : (s.withPacker p).busy = s.busy := rfl
@[simp] theorem State.withPacker_done (p : Packer) : (s.withPacker p).done = s.done := rfl
@[simp] theorem State.withPacker_fail (p : Packer) : (s.withPacker p).fail = s.fail := rfl
@[simp] theorem State.withPacker_phase (p : Packer) : (s.withPacker p).phase = s.phase := rfl
@[simp] theorem State.withPacker_cond (p : Packer) : (s.withPacker p).cond = s.cond := rfl
@[simp] theorem State.withPacker_herrBusy (p : Packer) : (s.withPacker p).herrBusy = s.herrBusy := rfl
@[simp] theorem State.withPacker_herrCmd (p : Packer) : (s.withPacker p).herrCmd = s.herrCmd := rfl
@[simp] theorem State.withPacker_herrAcc (p : Packer) : (s.withPacker p).herrAcc = s.herrAcc := rfl
@[simp] theorem State.withPacker_inLen (p : Packer) : (s.withPacker p).inLen = s.inLen := rfl
@[simp] theorem State.withPacker_outLen (p : Packer) : (s.withPacker p).outLen = s.outLen := rfl
@[simp] theorem State.withPacker_inbuf (p : Packer) : (s.withPacker p).inbuf = s.inbuf := rfl
@[simp] theorem State.withPacker_outbuf (p : Packer) : (s.withPacker p).outbuf = p.out := rfl
@[simp] theorem State.withPacker_freq (p : Packer) : (s.withPacker p).freq = s.freq := rfl
@[simp] theorem State.withPacker_arena (p : Packer) : (s.withPacker p).arena = s.arena := rfl
@[simp] theorem State.withPacker_root (p : Packer) : (s.withPacker p).root = s.root := rfl
@[simp] theorem State.withPacker_rootValid (p : Packer) : (s.withPacker p).rootValid = s.rootValid := rfl
@[simp] theorem State.withPacker_pq (p : Packer) : (s.withPacker p).pq = s.pq := rfl
@[simp] theorem State.withPacker_walk (p : Packer) : (s.withPacker p).walk = s.walk := rfl
@[simp] theorem State.withPacker_degen (p : Packer) : (s.withPacker p).degen = s.degen := rfl
@[simp] theorem State.withPacker_bits (p : Packer) : (s.withPacker p).bits = p.bits := rfl
@[simp] theorem State.withPacker_acc (p : Packer) : (s.withPacker p).acc = p.acc := rfl
@[simp] theorem State.withPacker_idx (p : Packer) : (s.withPacker p).idx = p.idx := rfl
@[simp] theorem State.withPacker_rdata (p : Packer) : (s.withPacker p).rdata = s.rdata := rfl
@[simp] theorem State.withPacker_input (p : Packer) : (s.withPacker p).input = s.input := rfl
@[simp] theorem State.withPacker_draws (p : Packer) : (s.withPacker p).draws = s.draws := rfl
@[simp] theorem State.withPacker_epoch (p : Packer) : (s.withPacker p).epoch = s.epoch := rfl

/-! ### `State.assertReset`: everything but the parameters, the events, the draws and the epoch is as at reset -/
@[simp] theorem State.assertReset_params : s.assertReset.params = s.params := rfl
@[simp] theorem State.assertReset_busy : s.assertReset.busy = State.reset.busy := rfl
@[simp] theorem State.assertReset_done : s.assertReset.done = State.reset.done := rfl
@[simp] theorem State.assertReset_fail : s.assertReset.fail = State.reset.fail := rfl
@[simp] theorem State.assertReset_phase : s.assertReset.phase = State.reset.phase := rfl
@[simp] theorem State.assertReset_cond : s.assertReset.cond = State.reset.cond := rfl
@[simp] theorem State.assertReset_herrBusy : s.assertReset.herrBusy = State.reset.herrBusy := rfl
@[simp] theorem State.assertReset_herrCmd : s.assertReset.herrCmd = State.reset.herrCmd := rfl
@[simp] theorem State.assertReset_herrAcc : s.assertReset.herrAcc = State.reset.herrAcc := rfl
@[simp] theorem State.assertReset_inLen : s.assertReset.inLen = State.reset.inLen := rfl
@[simp] theorem State.assertReset_outLen : s.assertReset.outLen = State.reset.outLen := rfl
@[simp] theorem State.assertReset_inbuf : s.assertReset.inbuf = State.reset.inbuf := rfl
@[simp] theorem State.assertReset_outbuf : s.assertReset.outbuf = State.reset.outbuf := rfl
@[simp] theorem State.assertReset_freq : s.assertReset.freq = State.reset.freq := rfl
@[simp] theorem State.assertReset_arena : s.assertReset.arena = State.reset.arena := rfl
@[simp] theorem State.assertReset_root : s.assertReset.root = State.reset.root := rfl
@[simp] theorem State.assertReset_rootValid : s.assertReset.rootValid = State.reset.rootValid := rfl
@[simp] theorem State.assertReset_pq : s.assertReset.pq = State.reset.pq := rfl
@[simp] theorem State.assertReset_walk : s.assertReset.walk = State.reset.walk := rfl
@[simp] theorem State.assertReset_degen : s.assertReset.degen = State.reset.degen := rfl
@[simp] theorem State.assertReset_bits : s.assertReset.bits = State.reset.bits := rfl
@[simp] theorem State.assertReset_acc : s.assertReset.acc = State.reset.acc := rfl
@[simp] theorem State.assertReset_idx : s.assertReset.idx = State.reset.idx := rfl
@[simp] theorem State.assertReset_rdata : s.assertReset.rdata = State.reset.rdata := rfl
@[simp] theorem State.assertReset_input : s.assertReset.input = s.input := rfl
@[simp] theorem State.assertReset_draws : s.assertReset.draws = s.draws := rfl
@[simp] theorem State.assertReset_epoch : s.assertReset.epoch = s.epoch + 1 := rfl

/-! ### The refusals of R120 -/
@[simp] theorem State.refuseAccess_params (hdr : BitVec 3) : (s.refuseAccess hdr).params = s.params := by
  unfold State.refuseAccess State.refusedAnswer; split <;> rfl
@[simp] theorem State.refuseAccess_busy (hdr : BitVec 3) : (s.refuseAccess hdr).busy = s.busy := by
  unfold State.refuseAccess State.refusedAnswer; split <;> rfl
@[simp] theorem State.refuseAccess_done (hdr : BitVec 3) : (s.refuseAccess hdr).done = s.done := by
  unfold State.refuseAccess State.refusedAnswer; split <;> rfl
@[simp] theorem State.refuseAccess_fail (hdr : BitVec 3) : (s.refuseAccess hdr).fail = s.fail := by
  unfold State.refuseAccess State.refusedAnswer; split <;> rfl
@[simp] theorem State.refuseAccess_phase (hdr : BitVec 3) : (s.refuseAccess hdr).phase = s.phase := by
  unfold State.refuseAccess State.refusedAnswer; split <;> rfl
@[simp] theorem State.refuseAccess_cond (hdr : BitVec 3) : (s.refuseAccess hdr).cond = s.cond := by
  unfold State.refuseAccess State.refusedAnswer; split <;> rfl
@[simp] theorem State.refuseAccess_herrBusy (hdr : BitVec 3) : (s.refuseAccess hdr).herrBusy = s.herrBusy := by
  unfold State.refuseAccess State.refusedAnswer; split <;> rfl
@[simp] theorem State.refuseAccess_herrCmd (hdr : BitVec 3) : (s.refuseAccess hdr).herrCmd = s.herrCmd := by
  unfold State.refuseAccess State.refusedAnswer; split <;> rfl
@[simp] theorem State.refuseAccess_herrAcc (hdr : BitVec 3) : (s.refuseAccess hdr).herrAcc = true := by
  unfold State.refuseAccess State.refusedAnswer; split <;> rfl
@[simp] theorem State.refuseAccess_inLen (hdr : BitVec 3) : (s.refuseAccess hdr).inLen = s.inLen := by
  unfold State.refuseAccess State.refusedAnswer; split <;> rfl
@[simp] theorem State.refuseAccess_outLen (hdr : BitVec 3) : (s.refuseAccess hdr).outLen = s.outLen := by
  unfold State.refuseAccess State.refusedAnswer; split <;> rfl
@[simp] theorem State.refuseAccess_inbuf (hdr : BitVec 3) : (s.refuseAccess hdr).inbuf = s.inbuf := by
  unfold State.refuseAccess State.refusedAnswer; split <;> rfl
@[simp] theorem State.refuseAccess_outbuf (hdr : BitVec 3) : (s.refuseAccess hdr).outbuf = s.outbuf := by
  unfold State.refuseAccess State.refusedAnswer; split <;> rfl
@[simp] theorem State.refuseAccess_freq (hdr : BitVec 3) : (s.refuseAccess hdr).freq = s.freq := by
  unfold State.refuseAccess State.refusedAnswer; split <;> rfl
@[simp] theorem State.refuseAccess_arena (hdr : BitVec 3) : (s.refuseAccess hdr).arena = s.arena := by
  unfold State.refuseAccess State.refusedAnswer; split <;> rfl
@[simp] theorem State.refuseAccess_root (hdr : BitVec 3) : (s.refuseAccess hdr).root = s.root := by
  unfold State.refuseAccess State.refusedAnswer; split <;> rfl
@[simp] theorem State.refuseAccess_rootValid (hdr : BitVec 3) : (s.refuseAccess hdr).rootValid = s.rootValid := by
  unfold State.refuseAccess State.refusedAnswer; split <;> rfl
@[simp] theorem State.refuseAccess_pq (hdr : BitVec 3) : (s.refuseAccess hdr).pq = s.pq := by
  unfold State.refuseAccess State.refusedAnswer; split <;> rfl
@[simp] theorem State.refuseAccess_walk (hdr : BitVec 3) : (s.refuseAccess hdr).walk = s.walk := by
  unfold State.refuseAccess State.refusedAnswer; split <;> rfl
@[simp] theorem State.refuseAccess_degen (hdr : BitVec 3) : (s.refuseAccess hdr).degen = s.degen := by
  unfold State.refuseAccess State.refusedAnswer; split <;> rfl
@[simp] theorem State.refuseAccess_bits (hdr : BitVec 3) : (s.refuseAccess hdr).bits = s.bits := by
  unfold State.refuseAccess State.refusedAnswer; split <;> rfl
@[simp] theorem State.refuseAccess_acc (hdr : BitVec 3) : (s.refuseAccess hdr).acc = s.acc := by
  unfold State.refuseAccess State.refusedAnswer; split <;> rfl
@[simp] theorem State.refuseAccess_idx (hdr : BitVec 3) : (s.refuseAccess hdr).idx = s.idx := by
  unfold State.refuseAccess State.refusedAnswer; split <;> rfl
@[simp] theorem State.refuseAccess_input (hdr : BitVec 3) : (s.refuseAccess hdr).input = s.input := by
  unfold State.refuseAccess State.refusedAnswer; split <;> rfl
@[simp] theorem State.refuseAccess_epoch (hdr : BitVec 3) : (s.refuseAccess hdr).epoch = s.epoch := by
  unfold State.refuseAccess State.refusedAnswer; split <;> rfl
@[simp] theorem State.refuseBusy_params (hdr : BitVec 3) : (s.refuseBusy hdr).params = s.params := by
  unfold State.refuseBusy State.refusedAnswer; split <;> rfl
@[simp] theorem State.refuseBusy_busy (hdr : BitVec 3) : (s.refuseBusy hdr).busy = s.busy := by
  unfold State.refuseBusy State.refusedAnswer; split <;> rfl
@[simp] theorem State.refuseBusy_done (hdr : BitVec 3) : (s.refuseBusy hdr).done = s.done := by
  unfold State.refuseBusy State.refusedAnswer; split <;> rfl
@[simp] theorem State.refuseBusy_fail (hdr : BitVec 3) : (s.refuseBusy hdr).fail = s.fail := by
  unfold State.refuseBusy State.refusedAnswer; split <;> rfl
@[simp] theorem State.refuseBusy_phase (hdr : BitVec 3) : (s.refuseBusy hdr).phase = s.phase := by
  unfold State.refuseBusy State.refusedAnswer; split <;> rfl
@[simp] theorem State.refuseBusy_cond (hdr : BitVec 3) : (s.refuseBusy hdr).cond = s.cond := by
  unfold State.refuseBusy State.refusedAnswer; split <;> rfl
@[simp] theorem State.refuseBusy_herrBusy (hdr : BitVec 3) : (s.refuseBusy hdr).herrBusy = true := by
  unfold State.refuseBusy State.refusedAnswer; split <;> rfl
@[simp] theorem State.refuseBusy_herrCmd (hdr : BitVec 3) : (s.refuseBusy hdr).herrCmd = s.herrCmd := by
  unfold State.refuseBusy State.refusedAnswer; split <;> rfl
@[simp] theorem State.refuseBusy_herrAcc (hdr : BitVec 3) : (s.refuseBusy hdr).herrAcc = s.herrAcc := by
  unfold State.refuseBusy State.refusedAnswer; split <;> rfl
@[simp] theorem State.refuseBusy_inLen (hdr : BitVec 3) : (s.refuseBusy hdr).inLen = s.inLen := by
  unfold State.refuseBusy State.refusedAnswer; split <;> rfl
@[simp] theorem State.refuseBusy_outLen (hdr : BitVec 3) : (s.refuseBusy hdr).outLen = s.outLen := by
  unfold State.refuseBusy State.refusedAnswer; split <;> rfl
@[simp] theorem State.refuseBusy_inbuf (hdr : BitVec 3) : (s.refuseBusy hdr).inbuf = s.inbuf := by
  unfold State.refuseBusy State.refusedAnswer; split <;> rfl
@[simp] theorem State.refuseBusy_outbuf (hdr : BitVec 3) : (s.refuseBusy hdr).outbuf = s.outbuf := by
  unfold State.refuseBusy State.refusedAnswer; split <;> rfl
@[simp] theorem State.refuseBusy_freq (hdr : BitVec 3) : (s.refuseBusy hdr).freq = s.freq := by
  unfold State.refuseBusy State.refusedAnswer; split <;> rfl
@[simp] theorem State.refuseBusy_arena (hdr : BitVec 3) : (s.refuseBusy hdr).arena = s.arena := by
  unfold State.refuseBusy State.refusedAnswer; split <;> rfl
@[simp] theorem State.refuseBusy_root (hdr : BitVec 3) : (s.refuseBusy hdr).root = s.root := by
  unfold State.refuseBusy State.refusedAnswer; split <;> rfl
@[simp] theorem State.refuseBusy_rootValid (hdr : BitVec 3) : (s.refuseBusy hdr).rootValid = s.rootValid := by
  unfold State.refuseBusy State.refusedAnswer; split <;> rfl
@[simp] theorem State.refuseBusy_pq (hdr : BitVec 3) : (s.refuseBusy hdr).pq = s.pq := by
  unfold State.refuseBusy State.refusedAnswer; split <;> rfl
@[simp] theorem State.refuseBusy_walk (hdr : BitVec 3) : (s.refuseBusy hdr).walk = s.walk := by
  unfold State.refuseBusy State.refusedAnswer; split <;> rfl
@[simp] theorem State.refuseBusy_degen (hdr : BitVec 3) : (s.refuseBusy hdr).degen = s.degen := by
  unfold State.refuseBusy State.refusedAnswer; split <;> rfl
@[simp] theorem State.refuseBusy_bits (hdr : BitVec 3) : (s.refuseBusy hdr).bits = s.bits := by
  unfold State.refuseBusy State.refusedAnswer; split <;> rfl
@[simp] theorem State.refuseBusy_acc (hdr : BitVec 3) : (s.refuseBusy hdr).acc = s.acc := by
  unfold State.refuseBusy State.refusedAnswer; split <;> rfl
@[simp] theorem State.refuseBusy_idx (hdr : BitVec 3) : (s.refuseBusy hdr).idx = s.idx := by
  unfold State.refuseBusy State.refusedAnswer; split <;> rfl
@[simp] theorem State.refuseBusy_input (hdr : BitVec 3) : (s.refuseBusy hdr).input = s.input := by
  unfold State.refuseBusy State.refusedAnswer; split <;> rfl
@[simp] theorem State.refuseBusy_epoch (hdr : BitVec 3) : (s.refuseBusy hdr).epoch = s.epoch := by
  unfold State.refuseBusy State.refusedAnswer; split <;> rfl

end Sys2Proof.Machine
end

