-- ==== Sys2Proof/Laws/HostPort.lean ====
section
/-! SUPPORT. The stages of a transaction and the commands, once: which stage refuses, and what each refusal and each command is. -/

namespace Sys2Proof.Machine

/-! ### Stage 1, header by header (40_host_interface.md R120) -/

@[simp] theorem accessIllegal_regrd (p : Params) (a : Word) : accessIllegal p 0#3 a = decide (4 ≤ a.toNat) := by
  simp [accessIllegal]

@[simp] theorem accessIllegal_regwr (p : Params) (a : Word) :
    accessIllegal p 1#3 a = decide (4 ≤ a.toNat ∨ a = 1#32 ∨ a = 3#32) := by
  simp [accessIllegal, Bool.beq_eq_decide_eq]

@[simp] theorem accessIllegal_inrd (p : Params) (a : Word) : accessIllegal p 2#3 a = true := by simp [accessIllegal]

@[simp] theorem accessIllegal_inwr (p : Params) (a : Word) :
    accessIllegal p 3#3 a = decide (p.inCap ≤ a.toNat) := by simp [accessIllegal]

@[simp] theorem accessIllegal_outrd (p : Params) (a : Word) :
    accessIllegal p 4#3 a = decide (p.outCap ≤ a.toNat) := by simp [accessIllegal]

@[simp] theorem accessIllegal_outwr (p : Params) (a : Word) : accessIllegal p 5#3 a = true := by simp [accessIllegal]

@[simp] theorem accessIllegal_rsvd3_read (p : Params) (a : Word) : accessIllegal p 6#3 a = true := by
  simp [accessIllegal]

@[simp] theorem accessIllegal_rsvd3_write (p : Params) (a : Word) : accessIllegal p 7#3 a = true := by
  simp [accessIllegal]

/-! ### Stage 2, header by header -/

@[simp] theorem refusedWhileBusy_regrd : refusedWhileBusy 0#3 = false := rfl

@[simp] theorem refusedWhileBusy_regwr : refusedWhileBusy 1#3 = true := rfl

@[simp] theorem refusedWhileBusy_inwr : refusedWhileBusy 3#3 = true := rfl

@[simp] theorem refusedWhileBusy_outrd : refusedWhileBusy 4#3 = true := rfl

/-! ### The three stages -/

variable {hdr : BitVec 3} {addr : Word} {perform : State → State} {s : State}

/-- Refused at stage 1. -/
theorem State.transact_illegal (h : accessIllegal s.params hdr addr = true) :
    s.transact hdr addr perform = s.refuseAccess hdr := by simp [State.transact, h]

/-- Refused at stage 2. -/
theorem State.transact_busy (h : accessIllegal s.params hdr addr = false) (hb : s.busy = true)
    (hh : refusedWhileBusy hdr = true) : s.transact hdr addr perform = s.refuseBusy hdr := by
  simp [State.transact, h, hb, hh]

/-- Performed, because the machine is idle. -/
theorem State.transact_idle (h : accessIllegal s.params hdr addr = false) (hb : s.busy = false) :
    s.transact hdr addr perform = perform s := by simp [State.transact, h, hb]

/-- Performed, because stage 2 never refuses it. -/
theorem State.transact_always (h : accessIllegal s.params hdr addr = false) (hh : refusedWhileBusy hdr = false) :
    s.transact hdr addr perform = perform s := by simp [State.transact, h, hh]

/-- A transaction does one of three things. -/
theorem State.transact_cases :
    (accessIllegal s.params hdr addr = true ∧ s.transact hdr addr perform = s.refuseAccess hdr) ∨
    (accessIllegal s.params hdr addr = false ∧ s.busy = true ∧ refusedWhileBusy hdr = true ∧
      s.transact hdr addr perform = s.refuseBusy hdr) ∨
    (accessIllegal s.params hdr addr = false ∧ (s.busy = false ∨ refusedWhileBusy hdr = false) ∧
      s.transact hdr addr perform = perform s) := by
  unfold State.transact
  cases h1 : accessIllegal s.params hdr addr <;> cases h2 : s.busy <;> cases h3 : refusedWhileBusy hdr <;> simp

theorem State.refuseAccess_read (h : isRead hdr = true) :
    s.refuseAccess hdr = { s with rdata := some (Config.unspecified32 s.draws), draws := s.draws + 1, herrAcc := true } := by
  simp [State.refuseAccess, State.refusedAnswer, h, State.answerUnspecified]

theorem State.refuseAccess_write (h : isRead hdr = false) :
    s.refuseAccess hdr = { s with rdata := none, herrAcc := true } := by
  simp [State.refuseAccess, State.refusedAnswer, h, State.noAnswer]

theorem State.refuseBusy_read (h : isRead hdr = true) :
    s.refuseBusy hdr = { s with rdata := some (Config.unspecified32 s.draws), draws := s.draws + 1, herrBusy := true } := by
  simp [State.refuseBusy, State.refusedAnswer, h, State.answerUnspecified]

theorem State.refuseBusy_write (h : isRead hdr = false) :
    s.refuseBusy hdr = { s with rdata := none, herrBusy := true } := by
  simp [State.refuseBusy, State.refusedAnswer, h, State.noAnswer]

/-! ### The commands (R126 to R130) -/

@[simp] theorem State.command_nop : s.command 0#32 = s := rfl

@[simp] theorem State.command_start : s.command 1#32 = s.cmdStart := rfl

@[simp] theorem State.command_clear : s.command 2#32 = s.cmdClear := rfl

theorem State.command_reserved {w : Word} (h0 : w ≠ 0#32) (h1 : w ≠ 1#32) (h2 : w ≠ 2#32) :
    s.command w = s.cmdReserved := by
  simp [State.command, decodeCommand, h0, h1, h2]

theorem State.command_cases (w : Word) (s : State) :
    (w = 0#32 ∧ s.command w = s) ∨ (w = 1#32 ∧ s.command w = s.cmdStart) ∨ (w = 2#32 ∧ s.command w = s.cmdClear) ∨
      (w ≠ 0#32 ∧ w ≠ 1#32 ∧ w ≠ 2#32 ∧ s.command w = s.cmdReserved) := by
  by_cases h0 : w = 0#32
  · subst h0; simp
  · by_cases h1 : w = 1#32
    · subst h1; simp
    · by_cases h2 : w = 2#32
      · subst h2; simp
      · simp [h0, h1, h2, State.command_reserved h0 h1 h2]

theorem State.cmdStart_illegal (h : s.params.inCap < s.inLen.toNat) :
    s.cmdStart = { s.clearResult with fail := true, cond := .badLength } := by simp [State.cmdStart, h]

theorem State.cmdStart_legal (h : s.inLen.toNat ≤ s.params.inCap) :
    s.cmdStart = { s.clearResult with busy := true, phase := .freq } := by
  simp [State.cmdStart, Nat.not_lt.2 h]

end Sys2Proof.Machine
end

