-- ==== Sys2Proof/Laws/Memory.lean ====
section
/-! SUPPORT. The buffers: a read after a write, and that every write keeps the canonical form. -/

namespace Sys2Proof.Machine

@[simp] theorem Memory.read_nil (a : Nat) : Memory.read [] a = none := rfl

theorem Memory.read_cons (b : Nat) (v : Byte) (m : Memory) (a : Nat) :
    Memory.read ((b, v) :: m) a = if a = b then some v else Memory.read m a := rfl

/-- A read after a write: the byte written at its address, every other address as before. -/
theorem Memory.read_write (m : Memory) (a : Nat) (v : Byte) (x : Nat) :
    Memory.read (Memory.write m a v) x = if x = a then some v else Memory.read m x := by
  induction m with
  | nil => simp [Memory.write, Memory.read_cons]
  | cons c m ih =>
    obtain ⟨b, w⟩ := c
    unfold Memory.write
    split
    · simp only [Memory.read_cons]
    · split
      · rename_i h; subst h
        simp only [Memory.read_cons]
        split <;> simp_all
      · simp only [Memory.read_cons, ih]
        split <;> split <;> simp_all

@[simp] theorem Memory.read_write_same (m : Memory) (a : Nat) (v : Byte) :
    Memory.read (Memory.write m a v) a = some v := by simp [Memory.read_write]

theorem Memory.read_write_other {m : Memory} {a : Nat} {v : Byte} {x : Nat} (h : x ≠ a) :
    Memory.read (Memory.write m a v) x = Memory.read m x := by simp [Memory.read_write, h]

/-- What a write lists: the new cell and cells that stood there before. -/
theorem Memory.mem_write {m : Memory} {a : Nat} {v : Byte} {c : Host.Cell} (h : c ∈ Memory.write m a v) :
    c = (a, v) ∨ c ∈ m := by
  induction m with
  | nil => simpa [Memory.write] using h
  | cons d m ih =>
    obtain ⟨b, w⟩ := d
    unfold Memory.write at h
    split at h
    · simpa using h
    · split at h
      · simp only [List.mem_cons] at h ⊢; tauto
      · simp only [List.mem_cons] at h ⊢
        rcases h with h | h
        · exact .inr (.inl h)
        · rcases ih h with h | h
          · exact .inl h
          · exact .inr (.inr h)

theorem Memory.wf_nil : Memory.wf [] := List.Pairwise.nil

/-- Every write keeps the canonical form. -/
theorem Memory.wf_write {m : Memory} (h : Memory.wf m) (a : Nat) (v : Byte) : Memory.wf (Memory.write m a v) := by
  induction m with
  | nil => simp [Memory.write, Memory.wf]
  | cons d m ih =>
    obtain ⟨b, w⟩ := d
    have h' := List.pairwise_cons.1 h
    unfold Memory.write
    split
    · refine List.pairwise_cons.2 ⟨?_, h⟩
      intro x hx
      simp only [List.map_cons, List.mem_cons] at hx
      rcases hx with rfl | hx
      · assumption
      · exact Nat.lt_trans ‹a < b› (h'.1 x hx)
    · split
      · rename_i h2; subst h2; exact h
      · refine List.pairwise_cons.2 ⟨?_, ih h'.2⟩
        intro x hx
        obtain ⟨c, hc, rfl⟩ := List.mem_map.1 hx
        rcases Memory.mem_write hc with rfl | hc
        · show b < a
          omega
        · exact h'.1 _ (List.mem_map_of_mem hc)

theorem Memory.within_nil (cap : Nat) : Memory.within cap [] := by simp

/-- A write below the capacity stays inside it. -/
theorem Memory.within_write {cap : Nat} {m : Memory} (h : Memory.within cap m) {a : Nat} (ha : a < cap) (v : Byte) :
    Memory.within cap (Memory.write m a v) := by
  intro c hc
  rcases Memory.mem_write hc with rfl | hc
  · exact ha
  · exact h c hc

/-- Both buffers are in canonical form at reset. -/
theorem State.reset_buffers_wf : Memory.wf State.reset.inbuf ∧ Memory.wf State.reset.outbuf :=
  ⟨List.Pairwise.nil, List.Pairwise.nil⟩

/-- In canonical form a memory is determined by what it reads as: equal memories are equal data. -/
theorem Memory.read_eq_some_iff {m : Memory} (h : Memory.wf m) (a : Nat) (v : Byte) :
    Memory.read m a = some v ↔ (a, v) ∈ m := by
  induction m with
  | nil => simp
  | cons d m ih =>
    obtain ⟨b, w⟩ := d
    have h' := List.pairwise_cons.1 h
    rw [Memory.read_cons]
    split
    · rename_i hab; subst hab
      constructor
      · intro e; simp_all
      · intro e
        rcases List.mem_cons.1 e with e | e
        · simp_all
        · exact absurd (h'.1 a (List.mem_map.2 ⟨_, e, rfl⟩)) (Nat.lt_irrefl _)
    · rw [ih h'.2]
      simp only [List.mem_cons, Prod.mk.injEq]
      tauto

end Sys2Proof.Machine
end

