-- ==== Sys2Proof/Laws/Merging.lean ====
section
/-! SUPPORT. Which nodes `P_TREE` merges: the two of least frequency among those with no parent; and the building of the tree as
instructions of the queue. -/

namespace Sys2Proof

open Sys2Proof.Machine

/-- `l` and `r` are the two least nodes with no parent when node `i` is made, the least one first (43_tree_builder.md R183). -/
structure TwoLeast (a : Arena) (i : Idx) (f : Word) (l r : Idx) : Prop where
  left : l < i
  right : r < i
  distinct : l ≠ r
  leftFree : Unowned a.node i l
  rightFree : Unowned a.node i r
  sum : f.toNat = (a.key l).toNat + (a.key r).toNat
  first : a.key l ≤ a.key r
  least : ∀ j : Idx, j < i → j ≠ l → j ≠ r → Unowned a.node i j → a.key r ≤ a.key j

/-- What `P_TREE` keeps while it builds, with leaves below `k`: a heap in order, whose elements are the nodes with no parent, and
every internal node made of the two least. -/
structure Greedy (k : Nat) (b : Builder) : Prop where
  order : HeapOrder b.arena.key b.pq
  items : ∀ x : Idx, x ∈ b.pq.items ↔ x.val < b.arena.nn.val ∧
    ∀ (m : Idx) (f : Word) (l r : Idx), m.val < b.arena.nn.val → b.arena.node[m.val] = .internal f l r → l ≠ x ∧ r ≠ x
  nodup : b.pq.items.Nodup
  inner : ∀ i : Idx, k ≤ i.val → i.val < b.arena.nn.val → ∃ f l r, b.arena.node[i.val] = .internal f l r
  merged : ∀ (i : Idx) (f : Word) (l r : Idx), i.val < b.arena.nn.val → b.arena.node[i.val] = .internal f l r →
    TwoLeast b.arena i f l r

/-- Heap order depends on the keys of the heap's elements alone. -/
theorem heapOrder_congr {key key' : Idx → Word} {q : PQueue} (h : ∀ x ∈ q.items, key x = key' x) (ho : HeapOrder key q) :
    HeapOrder key' q := by
  intro i h1 hi
  rw [← h _ (mem_items.2 ⟨i, hi, rfl⟩),
    ← h _ (mem_items.2 ⟨heapParent i, by rw [heapParent_val]; omega, rfl⟩)]
  exact ho i h1 hi

/-- What is written at entry `n` does not touch how an earlier node was made. -/
theorem TwoLeast.set {a a' : Arena} {n : Nat} {x : Node} {hn : n < 511} (e : a'.node = a.node.set n x hn) {i : Idx} {f l r}
    (hi : i.val < n) (h : TwoLeast a i f l r) : TwoLeast a' i f l r := by
  have hnode : ∀ j : Idx, j.val < n → a'.node[j.val] = a.node[j.val] := fun j hj => by
    simp only [e]; exact Vector.getElem_set_ne _ _ (by omega)
  have hkey : ∀ j : Idx, j.val < n → a'.key j = a.key j := fun j hj => by simp only [Arena.key, hnode j hj]
  have hfree : ∀ j : Idx, Unowned a'.node i j ↔ Unowned a.node i j := fun j => by
    refine forall_congr' fun m => forall_congr' fun f => forall_congr' fun l => forall_congr' fun r =>
      forall_congr' fun hm => ?_
    have hm' : m.val < i.val := hm
    rw [hnode m (by omega)]
  have hl : l.val < i.val := h.left
  have hr : r.val < i.val := h.right
  refine ⟨h.left, h.right, h.distinct, (hfree l).2 h.leftFree, (hfree r).2 h.rightFree, ?_, ?_, ?_⟩
  · rw [hkey l (by omega), hkey r (by omega)]; exact h.sum
  · rw [hkey l (by omega), hkey r (by omega)]; exact h.first
  · intro j hj h1 h2 h3
    have hj' : j.val < i.val := hj
    rw [hkey r (by omega), hkey j (by omega)]
    exact h.least j hj h1 h2 ((hfree j).1 h3)

/-- An empty builder. -/
theorem Greedy.init (k : Nat) (a : Arena) (q : PQueue) : Greedy k (Builder.init a q) := by
  have hi : (Builder.init a q).pq.items = [] := by simp [PQueue.items, Builder.init]
  refine ⟨fun i _ h => by simp [Builder.init] at h, fun x => ?_, by rw [hi]; exact .nil, fun i _ h => ?_, fun i f l r h => ?_⟩
  · rw [hi]; simp [Builder.init]
  · simp [Builder.init] at h
  · simp [Builder.init] at h

/-- One more leaf (R182). -/
theorem Greedy.addLeaf {k : Nat} {b c : Builder} (g : Greedy k b) (hk : b.arena.nn.val < k) {s : Byte} {w : Word}
    (h : b.add (.leaf s w) = .ok c) : Greedy k c := by
  obtain ⟨hn, hq⟩ := add_room h
  obtain ⟨b', e, n1, -, nd, -, -, pm, od⟩ := Builder.add_spec (.leaf s w) b hn hq
  obtain rfl : b' = c := Except.ok.inj (e.symm.trans h)
  have low : ∀ j : Idx, j.val < b.arena.nn.val → b'.arena.node[j.val] = b.arena.node[j.val] := fun j hj => by
    simp only [nd]; exact Vector.getElem_set_ne _ _ (by omega)
  have live : ∀ x ∈ b.pq.items, x.val < b.arena.nn.val := fun x hx => ((g.items x).1 hx).1
  have new : b'.arena.node[b.arena.nn.val] = .leaf s w := by simp only [nd, Vector.getElem_set_self]
  have split : ∀ j : Idx, j.val < b'.arena.nn.val → j.val < b.arena.nn.val ∨ j = ⟨b.arena.nn.val, hn⟩ := fun j hj => by
    rcases Nat.lt_or_ge j.val b.arena.nn.val with h | h
    · exact .inl h
    · exact .inr (Fin.ext (by simp only; omega))
  refine ⟨od (heapOrder_congr (fun x hx => ?_) g.order), fun x => ?_, ?_, fun i hki hi => ?_, fun i f l r hi hf => ?_⟩
  · simp only [Arena.key, low x (live x hx)]
  · rw [pm.mem_iff, List.mem_cons, g.items]
    constructor
    · rintro (rfl | ⟨h1, h2⟩)
      · refine ⟨by rw [n1]; exact Nat.lt_succ_self _, fun m f l r hm hf => ?_⟩
        rcases split m hm with hm' | rfl
        · rw [low m hm'] at hf
          have := g.merged m f l r hm' hf
          have hl : l.val < m.val := this.left
          have hr : r.val < m.val := this.right
          exact ⟨fun e => by simp [e] at hl; omega, fun e => by simp [e] at hr; omega⟩
        · rw [new] at hf; cases hf
      · refine ⟨by omega, fun m f l r hm hf => ?_⟩
        rcases split m hm with hm' | rfl
        · exact h2 m f l r hm' (by rw [← low m hm']; exact hf)
        · rw [new] at hf; cases hf
    · rintro ⟨h1, h2⟩
      rcases split x h1 with h | h
      · exact .inr ⟨h, fun m f l r hm hf => h2 m f l r (by omega) (by rw [low m hm]; exact hf)⟩
      · exact .inl h
  · rw [pm.nodup_iff]
    exact List.nodup_cons.2 ⟨fun hm => absurd (live _ hm) (by simp), g.nodup⟩
  · omega
  · rcases split i hi with hi' | rfl
    · exact (g.merged i f l r hi' (by rw [← low i hi']; exact hf)).set nd hi'
    · rw [new] at hf; cases hf

/-- One round of the merge loop (R183). -/
theorem Greedy.mergeOnce {k : Nat} {b c : Builder} (g : Greedy k b) (h2 : 1 < b.pq.hsize.val) (h : b.mergeOnce = .ok c) :
    Greedy k c := by
  obtain ⟨b1, e1, a1, z1, -, p1, o1⟩ := Builder.take_spec b (by omega)
  obtain ⟨b2, e2, a2, z2, -, p2, o2⟩ := Builder.take_spec b1 (by omega)
  have ha : b2.arena = b.arena := a2.trans a1
  generalize hl : b.pq.heap[0] = l at *
  generalize hr : b1.pq.heap[0] = r at *
  unfold Builder.mergeOnce at h
  rw [e1] at h
  simp only at h
  rw [e2] at h
  simp only at h
  split at h
  · rename_i hfit
    obtain ⟨hn, hq⟩ := add_room h
    obtain ⟨b', e, n1, -, nd, -, -, pm, od⟩ := Builder.add_spec (.internal (b2.arena.key l + b2.arena.key r) l r) b2 hn hq
    obtain rfl : b' = c := Except.ok.inj (e.symm.trans h)
    simp only [ha] at hn n1 nd pm hfit
    generalize hf0 : b.arena.key l + b.arena.key r = f0 at *
    have low : ∀ j : Idx, j.val < b.arena.nn.val → b'.arena.node[j.val] = b.arena.node[j.val] := fun j hj => by
      simp only [nd]; exact Vector.getElem_set_ne _ _ (by omega)
    have new : b'.arena.node[b.arena.nn.val] = .internal f0 l r := by simp only [nd, Vector.getElem_set_self]
    have lowKey : ∀ j : Idx, j.val < b.arena.nn.val → b'.arena.key j = b.arena.key j := fun j hj => by
      simp only [Arena.key, low j hj]
    have ml : l ∈ b.pq.items := p1.subset List.mem_cons_self
    have mr1 : r ∈ b1.pq.items := p2.subset List.mem_cons_self
    have mr : r ∈ b.pq.items := p1.subset (List.mem_cons_of_mem _ mr1)
    have live : ∀ x ∈ b.pq.items, x.val < b.arena.nn.val := fun x hx => ((g.items x).1 hx).1
    have nd1 : (l :: b1.pq.items).Nodup := p1.nodup_iff.2 g.nodup
    have nd2 : (r :: b2.pq.items).Nodup := p2.nodup_iff.2 (List.nodup_cons.1 nd1).2
    have hlr : l ≠ r := fun e => (List.nodup_cons.1 nd1).1 (e ▸ mr1)
    have mem2 : ∀ x, x ∈ b2.pq.items ↔ x ∈ b.pq.items ∧ x ≠ l ∧ x ≠ r := fun x => by
      rw [← p1.mem_iff, List.mem_cons, ← p2.mem_iff, List.mem_cons]
      constructor
      · intro hx
        exact ⟨.inr (.inr hx), fun e => (List.nodup_cons.1 nd1).1 (e ▸ p2.subset (List.mem_cons_of_mem _ hx)),
          fun e => (List.nodup_cons.1 nd2).1 (e ▸ hx)⟩
      · tauto
    have oo1 : HeapOrder b.arena.key b1.pq := o1 g.order
    have oo2 : HeapOrder b.arena.key b2.pq := by rw [a1] at o2; exact o2 oo1
    have hl0 : ∀ x ∈ b.pq.items, b.arena.key l ≤ b.arena.key x := fun x hx =>
      hl ▸ PQueue.root_least b.arena.key b.pq g.order x hx
    have hr0 : ∀ x ∈ b1.pq.items, b.arena.key r ≤ b.arena.key x := fun x hx =>
      hr ▸ PQueue.root_least b.arena.key b1.pq oo1 x hx
    have split : ∀ j : Idx, j.val < b'.arena.nn.val → j.val < b.arena.nn.val ∨ j = ⟨b.arena.nn.val, hn⟩ := fun j hj => by
      rcases Nat.lt_or_ge j.val b.arena.nn.val with h | h
      · exact .inl h
      · exact .inr (Fin.ext (by simp only; omega))
    have free : ∀ x : Idx, Unowned b'.arena.node ⟨b.arena.nn.val, hn⟩ x ↔
        ∀ (m : Idx) (f : Word) (l r : Idx), m.val < b.arena.nn.val → b.arena.node[m.val] = .internal f l r → l ≠ x ∧ r ≠ x := by
      intro x
      refine forall_congr' fun m => forall_congr' fun f => forall_congr' fun l => forall_congr' fun r =>
        forall_congr' fun hm => ?_
      rw [low m hm]
    refine ⟨od (heapOrder_congr (fun x hx => ?_) oo2), fun x => ?_, ?_, fun i hki hi => ?_, fun i f l' r' hi hf => ?_⟩
    · rw [lowKey x (live x ((mem2 x).1 hx).1)]
    · rw [pm.mem_iff, List.mem_cons, mem2, g.items]
      constructor
      · rintro (rfl | ⟨⟨h1, h2⟩, h3, h4⟩)
        · refine ⟨by rw [n1]; exact Nat.lt_succ_self _, fun m f l' r' hm hf => ?_⟩
          rcases split m hm with hm' | rfl
          · rw [low m hm'] at hf
            have := g.merged m f l' r' hm' hf
            have hl : l'.val < m.val := this.left
            have hr : r'.val < m.val := this.right
            exact ⟨fun e => by simp [e] at hl; omega, fun e => by simp [e] at hr; omega⟩
          · rw [new] at hf; cases hf
            exact ⟨fun e => by have := live _ ml; simp [e] at this, fun e => by have := live _ mr; simp [e] at this⟩
        · refine ⟨by omega, fun m f l' r' hm hf => ?_⟩
          rcases split m hm with hm' | rfl
          · exact h2 m f l' r' hm' (by rw [← low m hm']; exact hf)
          · rw [new] at hf; cases hf
            exact ⟨fun e => h3 e.symm, fun e => h4 e.symm⟩
      · rintro ⟨h1, h2⟩
        rcases split x h1 with h | h
        · have hx := h2 ⟨b.arena.nn.val, hn⟩ f0 l r (by simp only; omega) new
          exact .inr ⟨⟨h, fun m f l' r' hm hf => h2 m f l' r' (by omega) (by rw [low m hm]; exact hf)⟩,
            fun e => hx.1 e.symm, fun e => hx.2 e.symm⟩
        · exact .inl h
    · rw [pm.nodup_iff]
      exact List.nodup_cons.2 ⟨fun hm => absurd (live _ ((mem2 _).1 hm).1) (by simp), (List.nodup_cons.1 nd2).2⟩
    · rcases split i hi with hi' | rfl
      · rw [low i hi']; exact g.inner i hki hi'
      · exact ⟨f0, l, r, new⟩
    · rcases split i hi with hi' | rfl
      · exact (g.merged i f l' r' hi' (by rw [← low i hi']; exact hf)).set nd hi'
      · rw [new] at hf; cases hf
        have kl := lowKey l (live l ml)
        have kr := lowKey r (live r mr)
        refine ⟨live l ml, live r mr, hlr, (free l).2 ((g.items l).1 ml).2, (free r).2 ((g.items r).1 mr).2, ?_, ?_, ?_⟩
        · rw [kl, kr, ← hf0, BitVec.toNat_add, Nat.mod_eq_of_lt hfit]
        · rw [kl, kr]; exact hl0 r mr
        · intro j hj h1 h2 h3
          have hj' : j.val < b.arena.nn.val := hj
          rw [kr, lowKey j hj']
          have mj : j ∈ b.pq.items := (g.items j).2 ⟨hj', (free j).1 h3⟩
          exact hr0 j (p2.subset (List.mem_cons_of_mem _ ((mem2 j).2 ⟨mj, h1, h2⟩)))
  · cases h

theorem Greedy.seed {k : Nat} {cnt : Vector Word 256} (syms : List Byte) {b c : Builder} (g : Greedy k b)
    (hk : b.arena.nn.val + syms.length ≤ k) (h : Builder.seed cnt syms b = .ok c) : Greedy k c := by
  induction syms generalizing b with
  | nil => cases h; exact g
  | cons s syms ih =>
    simp only [List.length_cons] at hk
    unfold Builder.seed at h
    split at h
    · rename_i b' e
      obtain ⟨hn, hq⟩ := add_room e
      obtain ⟨b'', e', n1, -⟩ := Builder.add_spec (.leaf s cnt[(symIndex s).val]) b hn hq
      obtain rfl : b'' = b' := Except.ok.inj (e'.symm.trans e)
      exact ih (g.addLeaf (by omega) e) (by omega) h
    · cases h

theorem Greedy.merge {k : Nat} (n : Nat) {b c : Builder} (g : Greedy k b) (h : Builder.merge n b = .ok c) : Greedy k c := by
  induction n generalizing b with
  | zero => cases h; exact g
  | succ n ih =>
    unfold Builder.merge at h
    split at h
    · rename_i h1
      split at h
      · rename_i b' e
        exact ih (g.mergeOnce h1 e) h
      · cases h
    · cases h; exact g

/-- Whatever `P_TREE` builds is built greedily: every internal node joins the two least nodes with no parent (R183). -/
theorem Greedy.build {t : FreqTable} {a : Arena} {q : PQueue} {b : Builder} (h : Builder.build t a q = .ok b) :
    Greedy t.k.val b := by
  unfold Builder.build at h
  split at h
  · rename_i b' e
    exact (Greedy.seed t.symbols (Greedy.init _ a q) (by simp [Builder.init]) e).merge _ h
  · cases h

/-! ### The building as instructions of the queue -/

/-- Adding a node is placing it by `PQ_INSERT` (R182, R183). -/
theorem placeNode_eq {s : State} {n : Node} {c : Builder} (h : Builder.add n ⟨s.arena, s.pq⟩ = .ok c) :
    placeNode n s = some { s with arena := c.arena, pq := c.pq } := by
  unfold Builder.add at h
  unfold placeNode
  split at h
  · rename_i hn
    simp only at hn
    rw [dif_pos hn]
    dsimp only at h
    split at h
    · rename_i q e
      cases h
      have ha : argNode (BitVec.ofNat 9 s.arena.nn.val) = some ⟨s.arena.nn.val, hn⟩ := by
        have hv : (BitVec.ofNat 9 s.arena.nn.val).toNat = s.arena.nn.val := by
          simp only [BitVec.toNat_ofNat]; omega
        unfold argNode
        rw [dif_pos (by rw [hv]; exact hn)]
        simp only [hv]
      have he : exec (.pqInsert (BitVec.ofNat 9 s.arena.nn.val))
          { s with arena := { s.arena with node := s.arena.node.set s.arena.nn.val n hn } } =
          .next { s with arena := { s.arena with node := s.arena.node.set s.arena.nn.val n hn }, pq := q } := by
        show execPqInsert _ _ = _
        unfold execPqInsert
        rw [ha]
        have e' : s.pq.insert (Arena.key { s.arena with node := s.arena.node.set s.arena.nn.val n hn }) ⟨s.arena.nn.val, hn⟩ = some q := e
        simp only [e']
      rw [he]
      rfl
    · cases h
  · cases h

/-- Taking a node is `PQ_EXTRACT`, where the queue is not empty. -/
theorem extract_eq {s : State} {x : Idx} {c : Builder} (h0 : s.pq.hsize.val ≠ 0) (h : Builder.take ⟨s.arena, s.pq⟩ = .ok (x, c)) :
    exec .pqExtract s = .next { s with pq := c.pq } ∧ c.arena = s.arena ∧ argNode c.pq.res = some x := by
  obtain ⟨q, e, -, r, -⟩ := PQueue.extract_spec s.arena.key 0 s.pq h0
  have e' : s.pq.extract s.arena.key (Config.unspecified9 s.draws) = (some s.pq.heap[0], q) := by
    rw [← e]; unfold PQueue.extract; rw [dif_neg h0, dif_neg h0]
  unfold Builder.take at h
  simp only [e] at h
  cases h
  refine ⟨?_, rfl, ?_⟩
  · show execPqExtract s = _
    unfold execPqExtract
    rw [e']
  · simp only [r]
    have hx := (s.pq.heap[0]).isLt
    have hv : (nodeBits s.pq.heap[0]).toNat = s.pq.heap[0].val := by
      unfold nodeBits; simp only [BitVec.toNat_ofNat]; omega
    unfold argNode
    rw [dif_pos (by rw [hv]; exact hx)]
    simp only [hv]

/-- A round of the merge loop is `PQ_EXTRACT` twice and a placed node (R183). -/
theorem mergeTwo_eq {s : State} {c : Builder} (h2 : 1 < s.pq.hsize.val) (h : Builder.mergeOnce ⟨s.arena, s.pq⟩ = .ok c) :
    mergeTwo s = some { s with arena := c.arena, pq := c.pq } := by
  obtain ⟨b1, e1, a1, z1, -⟩ := Builder.take_spec ⟨s.arena, s.pq⟩ (by simp only; omega)
  obtain ⟨x1, -, r1⟩ := extract_eq (by omega) e1
  simp only at a1 z1
  obtain ⟨b2, e2, a2, z2, -⟩ := Builder.take_spec b1 (by omega)
  have e2' : Builder.take ⟨({ s with pq := b1.pq } : State).arena, ({ s with pq := b1.pq } : State).pq⟩ =
      .ok (b1.pq.heap[0], b2) := by rw [← e2, ← a1]
  obtain ⟨x2, y2, r2⟩ := extract_eq (by show b1.pq.hsize.val ≠ 0; omega) e2'
  unfold Builder.mergeOnce at h
  rw [e1] at h
  simp only at h
  rw [e2] at h
  simp only at h
  split at h
  · unfold mergeTwo
    rw [x1]
    simp only [nextOf, Option.bind_some]
    rw [x2]
    simp only [r1, r2, Option.bind_some]
    have hb : b2 = ⟨s.arena, b2.pq⟩ := by cases b2; simp only at y2; subst y2; rfl
    rw [hb] at h
    exact placeNode_eq (s := { s with pq := b2.pq }) h
  · cases h

/-- Seeding, node by node (R182). -/
theorem seed_steps {cnt : Vector Word 256} (syms : List Byte) {b c : Builder} (h : Builder.seed cnt syms b = .ok c) :
    ∃ bs : Nat → Builder, bs 0 = b ∧ bs syms.length = c ∧
      ∀ (j : Nat) (hj : j < syms.length), (bs j).add (.leaf syms[j] cnt[(symIndex syms[j]).val]) = .ok (bs (j + 1)) := by
  induction syms generalizing b with
  | nil => cases h; exact ⟨fun _ => c, rfl, rfl, fun j hj => absurd hj (Nat.not_lt_zero j)⟩
  | cons s syms ih =>
    unfold Builder.seed at h
    split at h
    · rename_i b' e
      obtain ⟨bs, h0, h1, h2⟩ := ih h
      refine ⟨fun j => match j with | 0 => b | j + 1 => bs j, rfl, h1, fun j hj => ?_⟩
      cases j with
      | zero => simp only [h0]; exact e
      | succ j => exact h2 j (by simpa using hj)
    · cases h

/-- A round of the merge loop takes one node off the queue (R183). -/
theorem mergeOnce_hsize {b c : Builder} (h2 : 1 < b.pq.hsize.val) (h : b.mergeOnce = .ok c) :
    c.pq.hsize.val + 1 = b.pq.hsize.val := by
  obtain ⟨b1, e1, a1, z1, -⟩ := Builder.take_spec b (by omega)
  obtain ⟨b2, e2, a2, z2, -⟩ := Builder.take_spec b1 (by omega)
  unfold Builder.mergeOnce at h
  rw [e1] at h
  simp only at h
  rw [e2] at h
  simp only at h
  split at h
  · obtain ⟨hn, hq⟩ := add_room h
    obtain ⟨b', e, -, z, -⟩ := Builder.add_spec _ b2 hn hq
    obtain rfl : b' = c := Except.ok.inj (e.symm.trans h)
    omega
  · cases h

/-- The merge loop, round by round (R183): as many rounds as there are nodes queued, less one. -/
theorem merge_steps (n : Nat) {b c : Builder} (hn : b.pq.hsize.val ≤ n + 1) (h : Builder.merge n b = .ok c) :
    ∃ bs : Nat → Builder, bs 0 = b ∧ bs (b.pq.hsize.val - 1) = c ∧ c.pq.hsize.val ≤ 1 ∧
      ∀ j : Nat, j + 1 < b.pq.hsize.val → 1 < (bs j).pq.hsize.val ∧ (bs j).mergeOnce = .ok (bs (j + 1)) := by
  induction n generalizing b with
  | zero =>
    cases h
    exact ⟨fun _ => c, rfl, rfl, by omega, fun j hj => by omega⟩
  | succ n ih =>
    unfold Builder.merge at h
    split at h
    · rename_i h1
      split at h
      · rename_i b' e
        have z := mergeOnce_hsize h1 e
        obtain ⟨bs, h0, hl, hs, hstep⟩ := ih (by omega) h
        refine ⟨fun j => match j with | 0 => b | j + 1 => bs j, rfl, ?_, hs, fun j hj => ?_⟩
        · rw [show b.pq.hsize.val - 1 = (b'.pq.hsize.val - 1) + 1 by omega]; exact hl
        · cases j with
          | zero => simp only [h0]; exact ⟨h1, e⟩
          | succ j => exact hstep j (by omega)
      · cases h
    · cases h
      exact ⟨fun _ => c, rfl, rfl, by omega, fun j hj => by omega⟩

end Sys2Proof
end

