-- ==== Sys2Proof/Laws/Packing.lean ====
section
/-! SUPPORT. What the loops of `P_PACK` leave: the packed stream, or `OutOverflow`. -/

namespace Sys2Proof

open Sys2Proof.Machine

theorem bytesFor_le_iff (n cap : Nat) : bytesFor n ≤ cap ↔ n ≤ 8 * cap := by unfold bytesFor; omega

/-- What `P_PACK` may do to `OUTBUF` on any path: it keeps the form and the capacity, and nothing at or past `OUT_CAP` changes. -/
structure Stored (cap : Nat) (out₀ out : Memory) : Prop where
  wf : Memory.wf out₀ → Memory.wf out
  within : Memory.within cap out₀ → Memory.within cap out
  past : ∀ a, cap ≤ a → Memory.read out a = Memory.read out₀ a

/-- The packer after the digits `S` (45_bit_packer.md R212): the full bytes are stored, the rest stands in `ACC`, first digit in bit 7. -/
structure Packing (cap : Nat) (out₀ : Memory) (S : List Bool) (p : Packer) : Prop where
  bits : p.bits.toNat = S.length
  fits : S.length / 8 ≤ cap
  acc : ∀ k < 8, p.acc.getLsbD k = (decide (7 - k < S.length % 8) && S.getD (8 * (S.length / 8) + (7 - k)) false)
  full : ∀ i < 8 * (S.length / 8), ∃ b, Memory.read p.out (i / 8) = some b ∧ b.getLsbD (7 - i % 8) = S.getD i false
  rest : ∀ a, S.length / 8 ≤ a → Memory.read p.out a = Memory.read out₀ a
  stored : Stored cap out₀ p.out

theorem Stored.write {cap : Nat} {out₀ out : Memory} (h : Stored cap out₀ out) {j : Nat} (hj : j < cap) (v : Byte) :
    Stored cap out₀ (Memory.write out j v) :=
  ⟨fun w => Memory.wf_write (h.wf w) _ _, fun w => Memory.within_write (h.within w) hj _,
    fun a ha => by rw [Memory.read_write_other (by omega), h.past a ha]⟩

theorem Packing.start (cap : Nat) (out₀ : Memory) : Packing cap out₀ [] { bits := 0, acc := 0, idx := 0, out := out₀ } :=
  ⟨rfl, by simp, by simp, by simp, fun _ _ => rfl, ⟨id, id, fun _ _ => rfl⟩⟩

/-- One digit more in `ACC`. -/
theorem Packing.acc_or {cap out₀ S p} (h : Packing cap out₀ S p) (d : Bool) (k : Nat) (hk : k < 8) :
    (if d then p.acc ||| digitMask p.bits.toNat else p.acc).getLsbD k =
      (decide (7 - k < S.length % 8 + 1) && (S ++ [d]).getD (8 * (S.length / 8) + (7 - k)) false) := by
  have ha := h.acc k hk
  have hb : (if d then p.acc ||| digitMask p.bits.toNat else p.acc).getLsbD k =
      (p.acc.getLsbD k || (d && decide (k = 7 - S.length % 8))) := by
    cases d
    · simp
    · simp [getLsbD_digitMask, h.bits]
  rw [hb, ha]
  rcases Nat.lt_trichotomy (7 - k) (S.length % 8) with hlt | heq | hgt
  · have hi : 8 * (S.length / 8) + (7 - k) < S.length := by omega
    have hne : k ≠ 7 - S.length % 8 := by omega
    simp [hlt, hne, List.getD_eq_getElem?_getD, List.getElem?_append_left hi, show 7 - k < S.length % 8 + 1 by omega]
  · have hi : 8 * (S.length / 8) + (7 - k) = S.length := by omega
    have he : k = 7 - S.length % 8 := by omega
    have hm : S.length % 8 < 8 := Nat.mod_lt _ (by omega)
    rw [hi, he]
    simp [show 7 - (7 - S.length % 8) = S.length % 8 by omega]
  · have hne : k ≠ 7 - S.length % 8 := by omega
    simp [hne, show ¬(7 - k < S.length % 8) by omega, show ¬(7 - k < S.length % 8 + 1) by omega]

/-- `EMIT(d)` (45_bit_packer.md R212), where the byte it fills has a place. -/
theorem Packing.emit {cap out₀ S p} (h : Packing cap out₀ S p) (d : Bool) (hw : S.length + 1 < 2 ^ 32)
    (hc : (S.length + 1) / 8 ≤ cap) :
    ∃ p', p.emit cap d = .ok p' ∧ Packing cap out₀ (S ++ [d]) p' ∧ p'.idx = p.idx := by
  have hbits : (p.bits + 1).toNat = S.length + 1 := by
    rw [BitVec.toNat_add, h.bits]; simp; omega
  have hold : ∀ i < 8 * (S.length / 8), (S ++ [d]).getD i false = S.getD i false := fun i hi => by
    simp [List.getD_eq_getElem?_getD, List.getElem?_append_left (show i < S.length by omega)]
  by_cases h8 : (S.length + 1) % 8 = 0
  · refine ⟨_, Packer.emit_full cap d p (by rw [h.bits]; exact hw) (by rw [h.bits]; exact h8) (by rw [h.bits]; omega),
      ⟨?_, ?_, ?_, ?_, ?_, ?_⟩, rfl⟩
    · simpa using hbits
    · simpa using hc
    · intro k hk
      simp [h8]
    · intro i hi
      simp only [List.length_append, List.length_cons, List.length_nil, Nat.zero_add] at hi
      rw [Memory.read_write, h.bits]
      split
      · rename_i he
        refine ⟨_, rfl, ?_⟩
        have hm := Nat.mod_lt i (show 0 < 8 by omega)
        have ha := h.acc_or d (7 - i % 8) (by omega)
        rw [h.bits] at ha
        rw [ha]
        have e1 : 7 - (7 - i % 8) = i % 8 := by omega
        have e2 : 8 * (S.length / 8) + i % 8 = i := by omega
        rw [e1, e2]
        have : i % 8 < S.length % 8 + 1 := by omega
        simp [this]
      · rename_i he
        obtain ⟨b, h1, h2⟩ := h.full i (by omega)
        exact ⟨b, h1, by rw [h2, hold i (by omega)]⟩
    · intro a ha
      simp only [List.length_append, List.length_cons, List.length_nil, Nat.zero_add] at ha
      rw [Memory.read_write_other (by rw [h.bits]; omega)]
      exact h.rest a (by omega)
    · exact h.stored.write (by rw [h.bits]; omega) _
  · have hdiv : (S ++ [d]).length / 8 = S.length / 8 := by simp; omega
    have hmod : (S ++ [d]).length % 8 = S.length % 8 + 1 := by simp; omega
    refine ⟨_, Packer.emit_inside cap d p (by rw [h.bits]; exact hw) (by rw [h.bits]; exact h8),
      ⟨by simpa using hbits, by simpa using hc, ?_, ?_, ?_, h.stored⟩, rfl⟩
    · intro k hk
      rw [hdiv, hmod]
      exact h.acc_or d k hk
    · intro i hi
      rw [hdiv] at hi
      obtain ⟨b, h1, h2⟩ := h.full i hi
      exact ⟨b, h1, by rw [h2, hold i hi]⟩
    · intro a ha
      rw [hdiv] at ha
      exact h.rest a ha

/-- `EMIT(d)` where the byte it fills has none (45_bit_packer.md R216). -/
theorem Packing.emit_overflow {cap out₀ S p} (h : Packing cap out₀ S p) (d : Bool) (hw : S.length + 1 < 2 ^ 32)
    (hc : cap < (S.length + 1) / 8) :
    ∃ p', p.emit cap d = .error (.overflow p') ∧ Stored cap out₀ p'.out := by
  have hf := h.fits
  have h8 : (p.bits.toNat + 1) % 8 = 0 := by rw [h.bits]; omega
  have hw' : p.bits.toNat + 1 < 2 ^ 32 := by rw [h.bits]; exact hw
  refine ⟨{ p with acc := if d then p.acc ||| digitMask p.bits.toNat else p.acc, bits := p.bits + 1 }, ?_, h.stored⟩
  simp only [Packer.emit, if_pos hw', if_pos h8]
  exact Packer.store_overflow (by rw [h.bits]; omega) _

/-- The digits of one code. -/
theorem Packing.emitCode {cap out₀} (ds : Code) {S p} (h : Packing cap out₀ S p) (hw : S.length + ds.length < 2 ^ 32) :
    ((S.length + ds.length) / 8 ≤ cap →
      ∃ p', p.emitCode cap ds = .ok p' ∧ Packing cap out₀ (S ++ ds) p' ∧ p'.idx = p.idx) ∧
    (cap < (S.length + ds.length) / 8 → ∃ p', p.emitCode cap ds = .error (.overflow p') ∧ Stored cap out₀ p'.out) := by
  induction ds generalizing S p with
  | nil => exact ⟨fun _ => ⟨p, rfl, by simpa using h, rfl⟩, fun hc => absurd h.fits (by simpa using hc)⟩
  | cons d ds ih =>
    simp only [List.length_cons] at hw ⊢
    by_cases h1 : (S.length + 1) / 8 ≤ cap
    · obtain ⟨p1, e1, k1, i1⟩ := h.emit d (by omega) h1
      have := ih k1 (by simp; omega)
      simp only [List.length_append, List.length_cons, List.length_nil, Nat.zero_add, List.append_assoc, List.cons_append,
        List.nil_append] at this
      rw [show S.length + (ds.length + 1) = S.length + 1 + ds.length by omega]
      simp only [Packer.emitCode, e1]
      exact ⟨fun hc => by obtain ⟨p', a, b, c⟩ := this.1 hc; exact ⟨p', a, b, c.trans i1⟩, this.2⟩
    · obtain ⟨p1, e1, s1⟩ := h.emit_overflow d (by omega) (by omega)
      simp only [Packer.emitCode, e1]
      exact ⟨fun hc => absurd hc (by omega), fun _ => ⟨p1, rfl, s1⟩⟩

theorem stream_cons (code : Vector (Option Code) 256) (b : Byte) (bs : List Byte) :
    stream code (b :: bs) = (code[(symIndex b).val]).getD [] ++ stream code bs := rfl

/-- The main loop (45_bit_packer.md R213), where every byte has a code. -/
theorem Packing.emitAll {cap out₀} (code : Vector (Option Code) 256) (bs : List Byte) {S p} (h : Packing cap out₀ S p)
    (hcode : ∀ b ∈ bs, code[(symIndex b).val] ≠ none) (hw : S.length + (stream code bs).length < 2 ^ 32) :
    ((S.length + (stream code bs).length) / 8 ≤ cap →
      ∃ p', Packer.emitAll cap code bs p = .ok p' ∧ Packing cap out₀ (S ++ stream code bs) p' ∧
        p'.idx = p.idx + BitVec.ofNat 32 bs.length) ∧
    (cap < (S.length + (stream code bs).length) / 8 →
      ∃ p', Packer.emitAll cap code bs p = .error (.overflow p') ∧ Stored cap out₀ p'.out) := by
  induction bs generalizing S p with
  | nil =>
    exact ⟨fun _ => ⟨p, rfl, by simpa [stream] using h, by simp⟩,
      fun hc => absurd h.fits (by simpa [stream] using hc)⟩
  | cons b bs ih =>
    obtain ⟨c, hc⟩ := Option.ne_none_iff_exists'.1 (hcode b (by simp))
    rw [stream_cons, hc, Option.getD_some] at hw ⊢
    simp only [List.length_append] at hw ⊢
    have hem := Packing.emitCode c h (by omega)
    by_cases h1 : (S.length + c.length) / 8 ≤ cap
    · obtain ⟨p1, e1, k1, i1⟩ := hem.1 h1
      have k1' : Packing cap out₀ (S ++ c) { p1 with idx := p1.idx + 1 } :=
        ⟨k1.bits, k1.fits, k1.acc, k1.full, k1.rest, k1.stored⟩
      have := ih k1' (fun x hx => hcode x (by simp [hx])) (by simp; omega)
      simp only [List.length_append, List.append_assoc] at this
      rw [show S.length + (c.length + (stream code bs).length) = S.length + c.length + (stream code bs).length by omega]
      simp only [Packer.emitAll, hc, e1]
      refine ⟨fun hh => ?_, this.2⟩
      obtain ⟨p', a, b, d⟩ := this.1 hh
      refine ⟨p', a, b, d.trans ?_⟩
      rw [i1, BitVec.add_assoc]
      congr 1
      apply BitVec.eq_of_toNat_eq
      simp [Nat.add_comm]
    · obtain ⟨p1, e1, s1⟩ := hem.2 (by omega)
      simp only [Packer.emitAll, hc, e1]
      exact ⟨fun hh => absurd hh (by omega), fun _ => ⟨p1, rfl, s1⟩⟩

/-- A byte with no code, reached inside the bounds, is a fault (45_bit_packer.md R219). -/
theorem Packing.emitAll_missing {cap out₀} (code : Vector (Option Code) 256) (before after : List Byte) (b : Byte)
    (hb : code[(symIndex b).val] = none) {S p} (h : Packing cap out₀ S p)
    (hcode : ∀ x ∈ before, code[(symIndex x).val] ≠ none) (hw : S.length + (stream code before).length < 2 ^ 32)
    (hfit : (S.length + (stream code before).length) / 8 ≤ cap) :
    Packer.emitAll cap code (before ++ b :: after) p = .error (.stuck .codeMissing) := by
  induction before generalizing S p with
  | nil => simp [Packer.emitAll, hb]
  | cons x bs ih =>
    obtain ⟨c, hc⟩ := Option.ne_none_iff_exists'.1 (hcode x (by simp))
    rw [stream_cons, hc, Option.getD_some] at hw hfit
    simp only [List.length_append] at hw hfit
    obtain ⟨p1, e1, k1, i1⟩ := (Packing.emitCode c h (by omega)).1 (by omega)
    have k1' : Packing cap out₀ (S ++ c) { p1 with idx := p1.idx + 1 } :=
      ⟨k1.bits, k1.fits, k1.acc, k1.full, k1.rest, k1.stored⟩
    simp only [List.cons_append, Packer.emitAll, hc, e1]
    exact ih k1' (fun y hy => hcode y (by simp [hy])) (by simp; omega) (by simp; omega)

/-- What packing does (45_bit_packer.md R211 to R216) where every byte has a code: the packed stream, or `OutOverflow`. -/
theorem Machine.Packer.pack_spec (cap : Nat) (code : Vector (Option Code) 256) (input : List Byte) (out₀ : Memory)
    (hcode : ∀ b ∈ input, code[(symIndex b).val] ≠ none) (hw : (stream code input).length < 2 ^ 32) :
    (bytesFor (stream code input).length ≤ cap →
      ∃ p, Packer.pack cap code input out₀ = .ok p ∧ p.bits = BitVec.ofNat 32 (stream code input).length ∧ p.acc = 0 ∧
        p.idx = BitVec.ofNat 32 input.length ∧ Packed p.out (stream code input) ∧ Stored cap out₀ p.out ∧
        ∀ a, bytesFor (stream code input).length ≤ a → Memory.read p.out a = Memory.read out₀ a) ∧
    (cap < bytesFor (stream code input).length →
      ∃ p, Packer.pack cap code input out₀ = .error (.overflow p) ∧ Stored cap out₀ p.out) := by
  have hall := Packing.emitAll code input (Packing.start cap out₀) hcode (by simpa using hw)
  simp only [List.length_nil, Nat.zero_add, List.nil_append] at hall
  generalize hS : stream code input = S at *
  have hbf : bytesFor S.length = if S.length % 8 = 0 then S.length / 8 else S.length / 8 + 1 := by
    unfold bytesFor; split <;> omega
  have hbits : ∀ p : Packer, p.bits.toNat = S.length → p.bits = BitVec.ofNat 32 S.length := fun p h => by
    apply BitVec.eq_of_toNat_eq; rw [h]; simp; omega
  unfold Packer.pack
  by_cases h1 : S.length / 8 ≤ cap
  · obtain ⟨p, e, k, i⟩ := hall.1 h1
    replace i : p.idx = BitVec.ofNat 32 input.length := i.trans (BitVec.zero_add _)
    simp only [e]
    unfold Packer.flush
    rw [k.bits]
    by_cases h8 : S.length % 8 = 0
    · simp only [h8, ne_eq, not_true, if_false] at hbf ⊢
      simp only [if_true] at hbf
      rw [hbf]
      refine ⟨fun _ => ⟨p, rfl, hbits p k.bits, ?_, i, ?_, k.stored, k.rest⟩, fun h => absurd h (by omega)⟩
      · apply BitVec.eq_of_getLsbD_eq
        intro j hj
        rw [k.acc j hj]
        simp [h8]
      · intro j hj
        rw [hbf] at hj
        exact k.full j hj
    · simp only [h8, ne_eq, not_false_eq_true, if_true, if_false] at hbf ⊢
      rw [hbf]
      constructor
      · intro hc
        refine ⟨_, Packer.store_ok (by omega) p, hbits p k.bits, rfl, i, ?_, k.stored.write (by omega) _, ?_⟩
        · intro j hj
          rw [hbf] at hj
          rw [Memory.read_write]
          split
          · rename_i he
            refine ⟨_, rfl, ?_⟩
            have hm := Nat.mod_lt j (show 0 < 8 by omega)
            rw [k.acc (7 - j % 8) (by omega)]
            have e1 : 7 - (7 - j % 8) = j % 8 := by omega
            have e2 : 8 * (S.length / 8) + j % 8 = j := by omega
            rw [e1, e2]
            by_cases hlt : j % 8 < S.length % 8
            · simp [hlt]
            · have : S.length ≤ j := by omega
              simp [hlt, List.getD_eq_getElem?_getD, List.getElem?_eq_none this]
          · exact k.full j (by omega)
        · intro a ha
          rw [Memory.read_write_other (by omega)]
          exact k.rest a (by omega)
      · intro hc
        exact ⟨_, Packer.store_overflow (by omega) p, k.stored⟩
  · obtain ⟨p, e, s⟩ := hall.2 (by omega)
    simp only [e]
    exact ⟨fun h => absurd h (by rw [hbf]; split <;> omega), fun _ => ⟨p, rfl, s⟩⟩

/-- A result of a packing operation that keeps to what `P_PACK` may do to `OUTBUF`. -/
def KeepsOut (cap : Nat) (out₀ : Memory) : Except PackStop Packer → Prop
  | .ok p => Stored cap out₀ p.out
  | .error (.overflow p) => Stored cap out₀ p.out
  | .error (.stuck _) => True


theorem keeps_store {cap out₀} (j : Nat) (p : Packer) (h : Stored cap out₀ p.out) : KeepsOut cap out₀ (p.store cap j) := by
  by_cases hj : j < cap
  · rw [Packer.store_ok hj]; exact h.write hj _
  · rw [Packer.store_overflow (by omega)]; exact h

theorem keeps_emit {cap out₀} (d) (p : Packer) (h : Stored cap out₀ p.out) : KeepsOut cap out₀ (p.emit cap d) := by
  unfold Packer.emit
  split
  · simp only
    split
    · exact keeps_store _ _ h
    · exact h
  · trivial

theorem keeps_emitCode {cap out₀} (ds) (p : Packer) (h : Stored cap out₀ p.out) : KeepsOut cap out₀ (p.emitCode cap ds) := by
  induction ds generalizing p with
  | nil => exact h
  | cons d ds ih =>
    have := keeps_emit d p h
    unfold Packer.emitCode
    cases he : p.emit cap d with
    | ok p' => rw [he] at this; exact ih p' this
    | error e => rw [he] at this; exact this

theorem keeps_emitAll {cap out₀} (code bs) (p : Packer) (h : Stored cap out₀ p.out) : KeepsOut cap out₀ (Packer.emitAll cap code bs p) := by
  induction bs generalizing p with
  | nil => exact h
  | cons b bs ih =>
    unfold Packer.emitAll
    split
    · trivial
    · rename_i c hc
      have := keeps_emitCode c p h
      cases he : p.emitCode cap c with
      | ok p' => rw [he] at this; exact ih _ this
      | error e => rw [he] at this; exact this
/-- Packing keeps to it on every path, whatever the codes are (10_state.md R34, 45_bit_packer.md R216). -/
theorem keeps_pack (cap code bs out₀) : KeepsOut cap out₀ (Packer.pack cap code bs out₀) := by
  have := keeps_emitAll (cap := cap) (out₀ := out₀) code bs { bits := 0, acc := 0, idx := 0, out := out₀ } ⟨id, id, fun _ _ => rfl⟩
  unfold Packer.pack
  cases he : Packer.emitAll cap code bs { bits := 0, acc := 0, idx := 0, out := out₀ } with
  | ok p =>
    rw [he] at this
    simp only
    unfold Packer.flush
    split
    · exact keeps_store _ _ this
    · exact this
  | error e => rw [he] at this; exact this

end Sys2Proof
end

