-- ==== Sys2Proof/Laws/PerInstr.lean ====
section
/-! SUPPORT. Statements made instruction by instruction: the encoder's word carries the fixed bits of its row of
spec/opcode_table.json. -/

namespace Sys2Proof.Laws.TableRow

open Sys2Proof

/-- The row of spec/opcode_table.json: its format, its mask and its match. -/
def row : Instr → String × Nat × Nat
  | .regrd _ => ("HTXN", 0b111, 0b000)
  | .regwr _ _ => ("HTXN", 0b111, 0b001)
  | .inrd _ => ("HTXN", 0b111, 0b010)
  | .inwr _ _ => ("HTXN", 0b111, 0b011)
  | .outrd _ => ("HTXN", 0b111, 0b100)
  | .outwr _ _ => ("HTXN", 0b111, 0b101)
  | .rsvd3 _ _ _ => ("HTXN", 0b110, 0b110)
  | .nop => ("CMD", 0xFFFFFFFF, 0x00000000)
  | .start => ("CMD", 0xFFFFFFFF, 0x00000001)
  | .clear => ("CMD", 0xFFFFFFFF, 0x00000002)
  | .pFreq => ("PHASE", 0b111, 0b001)
  | .pTree => ("PHASE", 0b111, 0b010)
  | .pCode => ("PHASE", 0b111, 0b011)
  | .pPack => ("PHASE", 0b111, 0b100)
  | .pqInsert _ => ("PQOP", 0b11, 0b01)
  | .pqExtract => ("PQOP", 0b11, 0b10)

/-- The format of a word and the bits its rows fix. -/
def fixedBits : Encoded → String × Nat
  | .htxn hdr _ _ => ("HTXN", hdr.toNat)
  | .cmd word => ("CMD", word.toNat)
  | .phase code => ("PHASE", code.toNat)
  | .pqop op _ => ("PQOP", op.toNat)

/-- The encoder's word stands on its row's port and agrees with the row's match under the row's mask. -/
def Statement (i : Instr) : Prop :=
  (fixedBits (encode i)).1 = (row i).1 ∧ (fixedBits (encode i)).2 &&& (row i).2.1 = (row i).2.2

theorem regrd (addr : Word) : Statement (.regrd addr) := by
  simp [Statement, row, fixedBits, encode]

theorem regwr (addr wdata : Word) : Statement (.regwr addr wdata) := by
  simp [Statement, row, fixedBits, encode]

theorem inrd (addr : Word) : Statement (.inrd addr) := by
  simp [Statement, row, fixedBits, encode]

theorem inwr (addr wdata : Word) : Statement (.inwr addr wdata) := by
  simp [Statement, row, fixedBits, encode]

theorem outrd (addr : Word) : Statement (.outrd addr) := by
  simp [Statement, row, fixedBits, encode]

theorem outwr (addr wdata : Word) : Statement (.outwr addr wdata) := by
  simp [Statement, row, fixedBits, encode]

theorem rsvd3 (we : Bool) (addr wdata : Word) : Statement (.rsvd3 we addr wdata) := by
  cases we <;> simp [Statement, row, fixedBits, encode]

theorem nop : Statement .nop := by
  simp [Statement, row, fixedBits, encode]

theorem start : Statement .start := by
  simp [Statement, row, fixedBits, encode]

theorem clear : Statement .clear := by
  simp [Statement, row, fixedBits, encode]

theorem pFreq : Statement .pFreq := by
  simp [Statement, row, fixedBits, encode]

theorem pTree : Statement .pTree := by
  simp [Statement, row, fixedBits, encode]

theorem pCode : Statement .pCode := by
  simp [Statement, row, fixedBits, encode]

theorem pPack : Statement .pPack := by
  simp [Statement, row, fixedBits, encode]

theorem pqInsert (arg : BitVec 9) : Statement (.pqInsert arg) := by
  simp [Statement, row, fixedBits, encode]

theorem pqExtract : Statement .pqExtract := by
  simp [Statement, row, fixedBits, encode]

end Sys2Proof.Laws.TableRow
end

