-- ==== Sys2Proof/Laws/Run.lean ====
section
/-! SUPPORT. Runs and steps: one step at a time, event by event. -/

namespace Sys2Proof

open Sys2Proof.Machine

@[simp] theorem run_zero (s : State) : run 0 s = .next s := rfl

theorem run_eq (n : Nat) (s : State) : run (n + 1) s =
    match step s with
    | .next t => run n t
    | .fault r => .fault r
    | .refused r => .refused r := rfl

/-- `run` is the host's run of `core`. -/
theorem run_eq_core (n : Nat) (s : State) : run n s = Host.Core.run core n s := by
  induction n generalizing s with
  | zero => rfl
  | succ n ih =>
    rw [run_eq]
    cases hs : step s with
    | next t =>
      have h : core.step s = .next t := hs
      simp only [Host.Core.run, h]
      exact ih t
    | fault r =>
      have h : core.step s = .fault r := hs
      simp only [Host.Core.run, h]
      rfl
    | refused r =>
      have h : core.step s = .refused r := hs
      simp only [Host.Core.run, h]
      rfl

/-- A run goes on from the state its first step answers. -/
theorem run_succ {n : Nat} {s t : State} (h : step s = .next t) : run (n + 1) s = run n t := by
  rw [run_eq, h]

/-- A run of two parts. -/
theorem run_add {m n : Nat} {s t : State} (h : run m s = .next t) : run (m + n) s = run n t := by
  induction m generalizing s with
  | zero =>
    simp only [run_zero, Host.Outcome.next.injEq] at h
    rw [Nat.zero_add, h]
  | succ m ih =>
    rw [run_eq] at h
    rw [Nat.succ_add, run_eq]
    cases hs : step s with
    | next u =>
      rw [hs] at h
      exact ih h
    | fault r => rw [hs] at h; cases h
    | refused r => rw [hs] at h; cases h

/-- What a host transaction performs, by its header (40_host_interface.md R121 to R124). -/
def performed (hdr : BitVec 3) (addr wdata : Word) (s : State) : State :=
  if hdr = 0 then s.answer (s.readReg addr)
  else if hdr = 1 then s.noAnswer.writeReg addr wdata
  else if hdr = 3 then { s.noAnswer with inbuf := Memory.write s.inbuf (wholeAddr addr) (lowByte wdata) }
  else if hdr = 4 then s.readOut addr
  else s

/-- The eight headers. -/
theorem header_cases (h : BitVec 3) :
    h = 0#3 ∨ h = 1#3 ∨ h = 2#3 ∨ h = 3#3 ∨ h = 4#3 ∨ h = 5#3 ∨ h = 6#3 ∨ h = 7#3 := by
  revert h; decide

/-- Every host transaction is its stages over what its header performs. -/
theorem exec_decodeHeader (hdr : BitVec 3) (addr wdata : Word) (s : State) :
    exec (decodeHeader hdr addr wdata) s = .next (s.transact hdr addr (performed hdr addr wdata)) := by
  rcases header_cases hdr with rfl | rfl | rfl | rfl | rfl | rfl | rfl | rfl <;> rfl

end Sys2Proof
end

