-- ==== Sys2Proof/Laws/Step.lean ====
section
/-! SUPPORT. Everything a step can do, once: each phase operation, each host transaction, the queue port, `rst`. -/

namespace Sys2Proof

open Sys2Proof.Machine

/-! ### The phase operations -/

/-- `P_FREQ` writes the frequency table, `IDX` and `PHASE`. -/
theorem pFreq_cases {s t : State} (h : exec .pFreq s = .next t) :
    t = { s with freq := s.inputBytes.foldl FreqTable.count s.freq.init, idx := s.inLen, phase := .tree } := by
  have h : execPFreq s = .next t := h
  unfold execPFreq at h
  cases h
  rfl

/-- `P_TREE` fails with `EMPTY_INPUT` or leaves a root. -/
theorem pTree_cases {s t : State} (h : exec .pTree s = .next t) :
    t = State.enterFailure .emptyInput { s with arena := t.arena, pq := t.pq, rootValid := false, draws := s.draws + 1 } ∨
      t = { s with arena := t.arena, pq := t.pq, root := t.root, rootValid := true, phase := .code } := by
  have h : execPTree s = .next t := h
  unfold execPTree at h
  split at h
  · cases h
  · split at h
    · cases h; exact .inl rfl
    · cases h; exact .inr rfl

/-- `P_CODE` writes the CodeTableBuilder's tables, `DEGEN` and `PHASE`. -/
theorem pCode_cases {s t : State} (h : exec .pCode s = .next t) :
    t = { s with walk := t.walk, degen := t.degen, phase := .pack } := by
  have h : execPCode s = .next t := h
  unfold execPCode at h
  split at h
  · split at h
    · cases h; rfl
    · split at h
      · cases h; rfl
      · cases h
  · cases h

/-- `P_PACK` completes or fails with `OUT_OVERFLOW`. -/
theorem pPack_cases {s t : State} (h : exec .pPack s = .next t) :
    ∃ p, Stored s.params.outCap s.outbuf p.out ∧
      (t = (s.withPacker p).complete ∨ t = (s.withPacker p).enterFailure .outOverflow) := by
  have h : execPPack s = .next t := h
  unfold execPPack at h
  have hk := keeps_pack s.params.outCap s.walk.code s.inputBytes s.outbuf
  split at h <;> rename_i he <;> rw [he] at hk
  · cases h; exact ⟨_, hk, .inl rfl⟩
  · cases h; exact ⟨_, hk, .inr rfl⟩
  · cases h

/-! ### The queue port -/

theorem pqInsert_cases {s t : State} {arg : BitVec 9} (h : exec (.pqInsert arg) s = .next t) :
    ∃ x q, argNode arg = some x ∧ s.pq.hsize.val < 256 ∧ s.pq.insert s.arena.key x = some q ∧ t = { s with pq := q } := by
  have h : execPqInsert arg s = .next t := h
  unfold execPqInsert at h
  split at h
  · cases h
  · rename_i x hx
    split at h
    · cases h
    · rename_i q hq
      refine ⟨x, q, hx, ?_, hq, by cases h; rfl⟩
      by_contra hn
      have hb := s.pq.hsize.isLt
      rw [PQueue.insert_full _ _ _ (by omega)] at hq
      cases hq

theorem pqExtract_cases {s t : State} (h : exec .pqExtract s = .next t) :
    (s.pq.hsize.val = 0 ∧
      t = { s with pq := { s.pq with res := Config.unspecified9 s.draws, isNone := true }, draws := s.draws + 1 }) ∨
    (s.pq.hsize.val ≠ 0 ∧
      ∃ q, s.pq.extract s.arena.key (Config.unspecified9 s.draws) = (some s.pq.heap[0], q) ∧ t = { s with pq := q }) := by
  have h : execPqExtract s = .next t := h
  unfold execPqExtract at h
  by_cases h0 : s.pq.hsize.val = 0
  · rw [PQueue.extract_empty _ _ _ h0] at h
    cases h
    exact .inl ⟨h0, rfl⟩
  · obtain ⟨q, e, -⟩ := PQueue.extract_spec s.arena.key (Config.unspecified9 s.draws) s.pq h0
    rw [e] at h
    cases h
    exact .inr ⟨h0, q, e, rfl⟩

/-! ### Host transactions -/

/-- The two results of `START` (40_host_interface.md R128). -/
theorem cmdStart_cases (s : State) :
    (s.params.inCap < s.inLen.toNat ∧
      s.cmdStart = { s with done := false, fail := true, cond := .badLength, outLen := 0 }) ∨
    (s.inLen.toNat ≤ s.params.inCap ∧
      s.cmdStart = { s with done := false, fail := false, cond := .none, outLen := 0, busy := true, phase := .freq }) := by
  by_cases h : s.params.inCap < s.inLen.toNat
  · exact .inl ⟨h, if_pos h⟩
  · exact .inr ⟨Nat.le_of_not_lt h, if_neg h⟩

/-- What a host transaction can do: set sticky flags and answer, write `IN_LEN` or a byte of `INBUF`, start, clear. -/
inductive TxnCase (hdr : BitVec 3) (addr wdata : Word) (s t : State) : Prop where
  | flags :
      t = { s with herrAcc := t.herrAcc, herrBusy := t.herrBusy, herrCmd := t.herrCmd, rdata := t.rdata, draws := t.draws } →
      (s.herrAcc = true → t.herrAcc = true) → (s.herrBusy = true → t.herrBusy = true) →
      (s.herrCmd = true → t.herrCmd = true) → TxnCase hdr addr wdata s t
  | inLen : s.busy = false → hdr = 1 → addr = 2 → t = { s with inLen := wdata, rdata := none } → TxnCase hdr addr wdata s t
  | inbuf : s.busy = false → hdr = 3 → addr.toNat < s.params.inCap →
      t = { s with inbuf := Memory.write s.inbuf addr.toNat (wdata.extractLsb' 0 8), rdata := none } →
      TxnCase hdr addr wdata s t
  | start : s.busy = false → hdr = 1 → addr = 0 → wdata = 1 → t = s.noAnswer.cmdStart → TxnCase hdr addr wdata s t
  | clear : s.busy = false → hdr = 1 → addr = 0 → wdata = 2 → t = s.noAnswer.cmdClear → TxnCase hdr addr wdata s t

/-- The four registers. -/
theorem register_cases (a : Word) (h : a.toNat < 4) : a = 0 ∨ a = 1 ∨ a = 2 ∨ a = 3 := by
  have : a.toNat = 0 ∨ a.toNat = 1 ∨ a.toNat = 2 ∨ a.toNat = 3 := by omega
  rcases this with h | h | h | h
  · exact .inl (BitVec.eq_of_toNat_eq h)
  · exact .inr (.inl (BitVec.eq_of_toNat_eq h))
  · exact .inr (.inr (.inl (BitVec.eq_of_toNat_eq h)))
  · exact .inr (.inr (.inr (BitVec.eq_of_toNat_eq h)))

theorem txn_cases {hdr : BitVec 3} {addr wdata : Word} {s t : State} (h : exec (decodeHeader hdr addr wdata) s = .next t) :
    TxnCase hdr addr wdata s t := by
  rw [exec_decodeHeader] at h
  simp only [Host.Outcome.next.injEq] at h
  rcases @State.transact_cases hdr addr (performed hdr addr wdata) s with ⟨h1, h2⟩ | ⟨h1, h2, h3, h4⟩ | ⟨h1, h2, h3⟩
  · rw [h2] at h
    subst h
    refine .flags ?_ (by simp) (by simp) (by simp)
    unfold State.refuseAccess State.refusedAnswer
    split <;> rfl
  · rw [h4] at h
    subst h
    refine .flags ?_ (by simp) (by simp) (by simp)
    unfold State.refuseBusy State.refusedAnswer
    split <;> rfl
  · rw [h3] at h
    subst h
    rcases header_cases hdr with rfl | rfl | rfl | rfl | rfl | rfl | rfl | rfl
    · exact .flags rfl id id id
    · have hb : s.busy = false := by
        rcases h2 with h2 | h2
        · exact h2
        · simp at h2
      by_cases ha : addr = 0
      · subst ha
        show TxnCase 1 0 wdata s (s.noAnswer.command wdata)
        rcases State.command_cases wdata s.noAnswer with ⟨rfl, e⟩ | ⟨rfl, e⟩ | ⟨rfl, e⟩ | ⟨-, -, -, e⟩ <;> rw [e]
        · exact .flags rfl id id id
        · exact .start hb rfl rfl rfl rfl
        · exact .clear hb rfl rfl rfl rfl
        · exact .flags rfl id id fun _ => rfl
      · have e : performed 1 addr wdata s = { s with inLen := wdata, rdata := none } := by
          simp [performed, State.writeReg, State.noAnswer, show addr ≠ 0#32 from ha]
        have hr : addr = 2 := by
          simp at h1
          rcases register_cases addr (by omega) with r | r | r | r
          · exact absurd r ha
          · exact absurd r h1.2.1
          · exact r
          · exact absurd r h1.2.2
        exact .inLen hb rfl hr e
    · simp at h1
    · have hb : s.busy = false := by
        rcases h2 with h2 | h2
        · exact h2
        · simp at h2
      simp at h1
      exact .inbuf hb rfl h1 rfl
    · refine .flags ?_ ?_ ?_ ?_
      all_goals
        show _
        simp only [performed]
        simp [State.readOut]
        split <;> simp [State.answer, State.answerUnspecifiedByte]
    · simp at h1
    · simp at h1
    · simp at h1

/-! ### The step -/

/-- The phase operation a busy core runs. -/
inductive PhaseRuns : Phase → Instr → Prop where
  | freq : PhaseRuns .freq .pFreq
  | tree : PhaseRuns .tree .pTree
  | code : PhaseRuns .code .pCode
  | pack : PhaseRuns .pack .pPack

/-- What a step can do. -/
inductive StepCase (s t : State) : Prop where
  | idle : s.busy = false ∨ (∃ arg rest, s.input = .pq 0 arg :: rest) → t = { s with input := s.input.tail } → StepCase s t
  | rst (rest : List Event) : s.input = .rst :: rest → t = State.assertReset { s with input := rest } → StepCase s t
  | txn (hdr : BitVec 3) (addr wdata : Word) (rest : List Event) :
      (s.input = .txn hdr addr wdata :: rest ∨ (s.input = .cmd wdata :: rest ∧ hdr = 1 ∧ addr = 0)) →
      exec (decodeHeader hdr addr wdata) { s with input := rest } = .next t → StepCase s t
  | core (i : Instr) : CoreSteps s → PhaseRuns s.phase i → exec i { s with input := s.input.tail } = .next t → StepCase s t
  | pq (q : PQueue) (d : Nat) (op : BitVec 2) (arg : BitVec 9) (rest : List Event) : s.input = .pq op arg :: rest →
      t = { s with pq := q, draws := d, input := rest } → StepCase s t

theorem coreFetch_cases {s t : State} (hi : s.input = [] ∨ ∃ rest, s.input = .core :: rest)
    (h : (match State.coreFetch { s with input := s.input.tail } with
      | .idle s' => Host.Outcome.next s'
      | .reset s' => .next s'.assertReset
      | .word e s' =>
        match decode e with
        | .ok i => exec i s'
        | .error r => s'.rejectWord r) = .next t) : StepCase s t := by
  unfold State.coreFetch at h
  by_cases hb : s.busy = true
  · rw [if_pos hb] at h
    cases hp : s.phase <;> simp only [hp, decode, Phase.bits] at h
    · have e : State.rejectWord .idlePhase { s with phase := .idle, input := s.input.tail } = .next t := h
      cases e
    · exact .core .pFreq ⟨hb, hi⟩ (hp ▸ .freq) (by rw [← h, ← hp]; rfl)
    · exact .core .pTree ⟨hb, hi⟩ (hp ▸ .tree) (by rw [← h, ← hp]; rfl)
    · exact .core .pCode ⟨hb, hi⟩ (hp ▸ .code) (by rw [← h, ← hp]; rfl)
    · exact .core .pPack ⟨hb, hi⟩ (hp ▸ .pack) (by rw [← h, ← hp]; rfl)
  · rw [if_neg hb] at h
    cases h
    exact .idle (.inl (by simpa using hb)) rfl

theorem step_cases {s t : State} (h : step s = .next t) : StepCase s t := by
  cases hi : s.input with
  | nil =>
    have hs : s = { s with input := s.input.tail } := by simp only [hi, List.tail_nil]; rw [← hi]
    unfold step State.fetch at h
    rw [hi] at h
    exact coreFetch_cases (.inl hi) (hs ▸ h)
  | cons e rest =>
    unfold step State.fetch at h
    rw [hi] at h
    cases e with
    | txn hdr addr wdata => exact .txn hdr addr wdata rest (.inl hi) h
    | cmd w =>
      refine .txn 1 0 w rest (.inr ⟨hi, rfl, rfl⟩) ?_
      rw [← h]
      by_cases h0 : w = 0#32
      · subst h0; rfl
      by_cases h1 : w = 1#32
      · subst h1; rfl
      by_cases h2 : w = 2#32
      · subst h2; rfl
      simp [decode, decodeCommand, h0, h1, h2, State.rejectWord, decodeHeader, exec]
    | pq op arg =>
      have four : op = 0#2 ∨ op = 1#2 ∨ op = 2#2 ∨ op = 3#2 := by
        clear h hi; revert op; decide
      rcases four with rfl | rfl | rfl | rfl
      · have e : Host.Outcome.next { s with input := rest } = .next t := h
        cases e
        exact .idle (.inr ⟨arg, rest, hi⟩) (by rw [hi]; rfl)
      · by_cases ha : argIsNode arg = true
        · simp [decode, decodeQueueOp, ha] at h
          obtain ⟨x, q, -, -, -, rfl⟩ := pqInsert_cases h
          exact .pq q s.draws _ _ rest hi rfl
        · simp [decode, decodeQueueOp, ha, State.rejectWord] at h
      · have e : exec .pqExtract { s with input := rest } = .next t := h
        rcases pqExtract_cases e with ⟨-, rfl⟩ | ⟨-, q, -, rfl⟩
        · exact .pq _ _ _ _ rest hi rfl
        · exact .pq _ _ _ _ rest hi rfl
      · have e : (Host.Outcome.fault Fault.reservedQueueOp : Host.Outcome State Fault Refusal) = .next t := h
        cases e
    | core => exact coreFetch_cases (.inr ⟨rest, hi⟩) (by rw [hi]; exact h)
    | rst =>
      simp only [Host.Outcome.next.injEq] at h
      exact .rst rest hi h.symm

end Sys2Proof
end

