-- ==== Sys2Proof/Tests/Slice0.lean ====
section
/-! SUPPORT. The model's own tests. Every expected value comes from spec/: the tables of 30_encoding.md, the vectors of
95_test_vectors.md (named in each comment). The last part shows, for every statement with hypotheses, data that meet them. -/

namespace Sys2Proof.Tests

open Sys2Proof Sys2Proof.Machine

/-! ### Small states -/

/-- A field of the state an outcome goes on to. -/
def got {α : Type} (o : Host.Outcome State Fault Refusal) (f : State → α) : Option α := (nextOf o).map f

/-- Bytes at addresses 0, 1, ... -/
def cells (bytes : List Byte) : Memory := bytes.zipIdx.map fun x => (x.2, x.1)

/-- The machine with an input in place, of the default instance. -/
def loaded (bytes : List Byte) : State := { State.reset with inbuf := cells bytes, inLen := BitVec.ofNat 32 bytes.length }

/-- An instance with small buffers. -/
def small (inCap outCap : Nat) (s : State) : State :=
  { s with params := { inCapLess1 := Fin.ofNat 16777216 (inCap - 1), outCapLess1 := outCap - 1 } }

/-- The machine while a phase runs. -/
def busyAt (p : Phase) (s : State) : State := { s with busy := true, phase := p }

/-- The frequency table with the given symbols and counts. -/
def tableOf (rows : List (Byte × Word)) : FreqTable :=
  rows.foldl (fun t r => { t.insert r.1 with cnt := t.cnt.set (symIndex r.1).val r.2 }) FreqTable.reset

/-- The machine before `P_TREE`. -/
def counted (rows : List (Byte × Word)) : State := busyAt .tree { State.reset with freq := tableOf rows }

/-- An arena holding the given nodes from index 0 on. -/
def arenaOf (nodes : List Node) : Arena :=
  nodes.foldl (fun a n => { node := a.node.setIfInBounds a.nn.val n, nn := Fin.ofNat 512 (a.nn.val + 1) }) Arena.reset

/-- Seven (or fewer) leaves with the given keys, and a heap of the given arena indices. -/
def queued (keys : List Word) (heap : List Idx) : State :=
  { State.reset with
    arena := arenaOf (keys.map (Node.leaf 0))
    pq := { PQueue.reset with
      heap := heap.zipIdx.foldl (fun h x => h.setIfInBounds x.2 x.1) PQueue.reset.heap
      hsize := Fin.ofNat 257 heap.length } }

/-- The tree of V4: `0: leaf A 5`, `1: leaf B 2`, `2: leaf C 1`, `3: int 3 L=2 R=1`, `4: int 8 L=3 R=0`. -/
def treeV4 : State :=
  busyAt .code { loaded [0x41, 0x41, 0x41, 0x41, 0x41, 0x42, 0x42, 0x43] with
    arena := arenaOf [.leaf 0x41 5, .leaf 0x42 2, .leaf 0x43 1, .internal 3 2 1, .internal 8 3 0], root := 4, rootValid := true }

/-- The tree of V2: one leaf. -/
def treeV2 : State := busyAt .code { State.reset with arena := arenaOf [.leaf 0x41 4], root := 0, rootValid := true }

/-- The machine with the given codes before `P_PACK`. -/
def coded (codes : List (Byte × Code)) (s : State) : State :=
  busyAt .pack { s with walk := codes.foldl (fun w c => w.record c.1 c.2) Walk.reset }

/-- V40: the codes and the input of V4. -/
def packV4 : State :=
  coded [(0x41, [true]), (0x42, [false, true]), (0x43, [false, false])]
    (loaded [0x41, 0x41, 0x41, 0x41, 0x41, 0x42, 0x42, 0x43])

/-- V4 completed: two output bytes. -/
def doneV4 : State := { loaded [] with done := true, outLen := 2, outbuf := cells [0xFA, 0x80] }

/-- H26: a completed machine with every sticky flag set, `STATUS = 0x00007002`. -/
def flagged : State :=
  { State.reset with done := true, outLen := 1, inLen := 3, herrBusy := true, herrCmd := true, herrAcc := true }

/-! ### Well-formedness and words -/

/-- The one operand check: `PQ_ARG` is an arena index 0..510 (30_encoding.md R101). -/
theorem test_wellFormed_refuses_511 : Instr.wellFormed (.pqInsert 511) = false ∧ Instr.wellFormed (.pqInsert 510) = true := by
  decide

theorem test_decode_refuses_511 : decode (.pqop 0b01 511) = .error .noSuchNode := by decide

/-- 30_encoding.md R90, R91: header, `addr`, `wdata`. P1 lines 1, 7, 6, 16 and H11 to H13. -/
theorem test_decode_regrd : decode (.htxn 0b000 0x00000001 0) = .ok (.regrd 1) := by decide

theorem test_decode_regwr : decode (.htxn 0b001 0x00000002 0x00000004) = .ok (.regwr 2 4) := by decide

theorem test_decode_inrd : decode (.htxn 0b010 5 0) = .ok (.inrd 5) := by decide

theorem test_decode_inwr : decode (.htxn 0b011 0x00000003 0x00000042) = .ok (.inwr 3 0x42) := by decide

theorem test_decode_outrd : decode (.htxn 0b100 0 0) = .ok (.outrd 0) := by decide

theorem test_decode_outwr : decode (.htxn 0b101 0 0xAA) = .ok (.outwr 0 0xAA) := by decide

theorem test_decode_rsvd3 : decode (.htxn 0b110 9 0) = .ok (.rsvd3 false 9 0) ∧
    decode (.htxn 0b111 9 1) = .ok (.rsvd3 true 9 1) := by decide

/-- 30_encoding.md R94, R95: the whole command word is matched. H7: `0x80000001` is not `START`. -/
theorem test_decode_nop : decode (.cmd 0x00000000) = .ok .nop := by decide

theorem test_decode_start : decode (.cmd 0x00000001) = .ok .start := by decide

theorem test_decode_clear : decode (.cmd 0x00000002) = .ok .clear := by decide

theorem test_decode_reserved_command :
    decode (.cmd 0x80000001) = .error (.reservedCommand 0x80000001) ∧ decode (.cmd 3) = .error (.reservedCommand 3) := by
  decide

/-- 30_encoding.md R97. -/
theorem test_decode_pFreq : decode (.phase 0b001) = .ok .pFreq := by decide

theorem test_decode_pTree : decode (.phase 0b010) = .ok .pTree := by decide

theorem test_decode_pCode : decode (.phase 0b011) = .ok .pCode := by decide

theorem test_decode_pPack : decode (.phase 0b100) = .ok .pPack := by decide

/-- 30_encoding.md R99. -/
theorem test_decode_pqInsert : decode (.pqop 0b01 3) = .ok (.pqInsert 3) := by decide

theorem test_decode_pqExtract : decode (.pqop 0b10 0) = .ok .pqExtract := by decide

theorem test_decode_unused_queue_codes :
    decode (.pqop 0b00 0) = .error .idlePq ∧ decode (.pqop 0b11 0) = .error .reservedPq := by decide

/-- Rows of spec/opcode_table.json in the layout of log 2: a command word in 32 bits, a header in a byte, `addr` and `wdata` after it. -/
theorem test_decodeTableWord : decodeTableWord 32 1 = some .start ∧ decodeTableWord 8 4 = some (.outrd 0) ∧
    decodeTableWord 8 0x420000000303 = some (.inwr 3 0x42) ∧ decodeTableWord 2 1 = some (.pqInsert 0) := by decide

/-- The host's question: a row's word, placed after reset, is what the very next step runs. -/
theorem test_withFetchWord_start : got (step (State.reset.withFetchWord 32 1)) State.status = some 0x11 := by decide +kernel

theorem test_withFetchWord_outwr :
    got (step (State.reset.withFetchWord 8 5)) State.status = some 0x4000 := by decide +kernel

/-! ### Host transactions -/

/-- H26's start state: every field of `STATUS` in its place (10_state.md R22). -/
theorem test_regrd_status : got (exec (.regrd 1) flagged) State.rdata = some (some 0x00007002) := by decide +kernel

/-- H10. -/
theorem test_regrd_reserved : got (exec (.regrd 4) State.reset) State.status = some 0x4000 := by decide +kernel

/-- H2. -/
theorem test_regwr_inLen : got (exec (.regwr 2 0xFFFFFFFF) State.reset) (fun t => (t.inLen, t.status)) = some (0xFFFFFFFF, 0) := by
  decide +kernel

/-- H24: refused at stage 1, so `HERR_ACC` alone, although busy. -/
theorem test_regwr_reserved_busy : got (exec (.regwr 7 0) (busyAt .freq State.reset)) State.status = some 0x4011 := by
  decide +kernel

/-- H11. -/
theorem test_inrd_illegal : got (exec (.inrd 0) State.reset) State.status = some 0x4000 := by decide +kernel

/-- H16: only `wdata[7:0]` is stored. -/
theorem test_inwr_low_byte : got (exec (.inwr 0 0x12345678) State.reset) State.inbuf = some [(0, 0x78)] := by decide +kernel

/-- H15: refused, and no wrap to address 0. -/
theorem test_inwr_no_wrap : got (exec (.inwr 0x00010000 0x7E) State.reset) (fun t => (t.inbuf, t.status)) = some ([], 0x4000) := by
  decide +kernel

/-- H19. -/
theorem test_outrd_byte : got (exec (.outrd 1) doneV4) State.rdata = some (some 0x80) := by decide +kernel

/-- H23. -/
theorem test_outrd_busy : got (exec (.outrd 0) (busyAt .freq State.reset)) State.status = some 0x1011 := by decide +kernel

/-- H12. -/
theorem test_outwr_illegal : got (exec (.outwr 0 0xAA) State.reset) (fun t => (t.outbuf, t.status)) = some ([], 0x4000) := by
  decide +kernel

/-- H12, H13. -/
theorem test_rsvd3_illegal : got (exec (.rsvd3 false 0 0) State.reset) State.status = some 0x4000 ∧
    got (exec (.rsvd3 true 0 0) State.reset) State.rdata = some none := by decide +kernel

/-- H5. -/
theorem test_nop : got (exec .nop State.reset) State.status = some 0 := by decide +kernel

/-- H22: the word 3 is never decoded while busy. -/
theorem test_reserved_command_busy : got (exec (.regwr 0 3) (busyAt .freq State.reset)) State.status = some 0x1011 := by
  decide +kernel

/-- H4: `IN_LEN = IN_CAP` is legal. -/
theorem test_start_at_capacity :
    got (exec .start (small 8 8 { State.reset with inLen := 8 })) State.status = some 0x11 := by decide +kernel

/-- V51. -/
theorem test_start_bad_length :
    got (exec .start (small 8 8 { State.reset with inLen := 9 })) State.status = some 0x304 := by decide +kernel

/-- H26. -/
theorem test_clear : got (exec .clear flagged) (fun t => (t.status, t.outLen, t.inLen)) = some (0, 0, 3) := by decide +kernel

/-! ### The phases -/

/-- V22f: first-occurrence order, not symbol order. -/
theorem test_pFreq_order :
    got (exec .pFreq (busyAt .freq (loaded [0x43, 0x42, 0x41, 0x41, 0x41, 0x41, 0x41, 0x42]))) (fun t =>
      (t.freq.symbols, t.freq.cnt[0x41], t.freq.cnt[0x42], t.freq.cnt[0x43], t.status)) =
      some ([0x43, 0x42, 0x41], 5, 2, 1, 0x21) := by decide +kernel

/-- V25f: a byte at `IN_LEN`, left from an earlier load, is ignored. -/
theorem test_pFreq_ignores_the_rest :
    got (exec .pFreq (busyAt .freq { loaded [0x41, 0x42, 0x43, 0x44] with inLen := 3 })) (fun t => (t.freq.symbols, t.freq.cnt[0x44])) =
      some ([0x41, 0x42, 0x43], 0) := by decide +kernel

/-- V5: three equal frequencies. A sift-down that swaps on equality gives node 3 the children 0 and 1. -/
theorem test_pTree_ties : got (exec .pTree (counted [(0x41, 1), (0x42, 1), (0x43, 1)])) (fun t =>
      (t.arena.nn.val, t.root.val, t.arena.node[3], t.arena.node[4], t.status)) =
      some (5, 4, .internal 2 0 2, .internal 3 1 3, 0x31) := by decide +kernel

/-- V3: the empty table. -/
theorem test_pTree_empty : got (exec .pTree (counted [])) (fun t => (t.status, t.outLen, t.rootValid, t.pq.isNone)) =
      some (0x104, 0, false, true) := by decide +kernel

/-- V30. -/
theorem test_pCode_walk : got (exec .pCode treeV4) (fun t =>
      ([t.walk.code[0x41], t.walk.code[0x42], t.walk.code[0x43], t.walk.code[0x44]], t.walk.sp.val, t.degen)) =
      some ([some [true], some [false, true], some [false, false], none], 0, false) := by decide +kernel

/-- V32: a lone leaf. -/
theorem test_pCode_lone : got (exec .pCode treeV2) (fun t => (t.walk.code[0x41], t.degen, t.status)) =
      some (some [false], true, 0x41) := by decide +kernel

/-- V40: a code that straddles a byte boundary. -/
theorem test_pPack_v4 : got (exec .pPack packV4) (fun t => (t.outbuf, t.outLen, t.bits, t.status)) =
      some ([(0, 0xFA), (1, 0x80)], 2, 11, 0x2) := by decide +kernel

/-- V45: `OUT_CAP = 1`, so the flush has no place. -/
theorem test_pPack_overflow : got (exec .pPack (small 8 1 packV4)) (fun t => (t.outLen, t.status)) = some (0, 0x404) := by
  decide +kernel

/-! ### The queue -/

/-- V20, insert 5: one swap, then a tie that stays. -/
theorem test_pqInsert_tie : got (exec (.pqInsert 5) (queued [5, 3, 8, 1, 3, 1, 9] [3, 1, 2, 0, 4])) (fun t => t.pq.items) =
      some [3, 1, 5, 0, 4, 2] := by decide +kernel

/-- V23: two swaps. -/
theorem test_pqInsert_to_the_root : got (exec (.pqInsert 3) (queued [2, 2, 2, 1] [0, 1, 2])) (fun t => t.pq.items) =
      some [3, 0, 2, 1] := by decide +kernel

/-- V21, extract 2. -/
theorem test_pqExtract_two_swaps : got (exec .pqExtract (queued [5, 3, 8, 1, 3, 1, 9] [5, 1, 2, 0, 4, 6])) (fun t =>
      (t.pq.res, t.pq.isNone, t.pq.items)) = some (5, false, [1, 4, 2, 0, 6]) := by decide +kernel

/-- V22, first row: a tie with the smaller child, no swap. -/
theorem test_pqExtract_tie : got (exec .pqExtract (queued [1, 2, 2, 2] [0, 1, 2, 3])) (fun t => (t.pq.res, t.pq.items)) =
      some (0, [3, 1, 2]) := by decide +kernel

/-! ### Whole steps -/

/-- V60: reset in the middle of an invocation. -/
theorem test_step_reset : got (step { packV4 with input := [.rst] }) (fun t => (t.status, t.inLen, t.outLen, t.inbuf)) =
      some (0, 0, 0, []) := by decide +kernel

/-- H7, on the command line form of R112. -/
theorem test_step_reserved_command : got (step { State.reset with input := [.cmd 0x11] }) State.status = some 0x2000 := by
  decide +kernel

/-- A `CORE` line with the core idle does nothing (V51: no core step enabled). -/
theorem test_step_core_idle : got (step { State.reset with input := [.core] }) (fun t => (t.status, t.input)) = some (0, []) := by
  decide +kernel

/-- V14, "ABRACADABRA": `START` and four core steps. -/
theorem test_invocation_abracadabra :
    got (run 5 (launch (loaded [0x41, 0x42, 0x52, 0x41, 0x43, 0x41, 0x44, 0x41, 0x42, 0x52, 0x41]))) (fun t => (t.outbuf, t.outLen, t.status)) =
      some ([(0, 0x69), (1, 0xCF), (2, 0x68)], 3, 0x2) := by decide +kernel

/-- V47: `OUT_OVERFLOW` takes the place of `DEGENERATE_ALPHABET`. -/
theorem test_invocation_overflow :
    got (run 5 (launch (small 16 1 (loaded (List.replicate 9 0x41))))) (fun t => (t.outLen, t.status)) = some (0, 0x404) := by
  decide +kernel

/-- 30_encoding.md R102, V33: the record of the code "1110". -/
theorem test_code_record : (codeDump 0 (some [true, true, true, false])).extractLsb' 251 13 = 0b1000001001110 ∧
    codeOfDump (codeDump 0 (some [true, true, true, false])) = some [true, true, true, false] := by decide +kernel

/-! ### Witnesses: data that meet the hypotheses of every statement that has any -/

/-- `DecodeAndEncodeAgree`: each clause, and both ends of the third. -/
theorem witness_DecodeAndEncodeAgree :
    Instr.wellFormed (.pqInsert 510) = true ∧
    decode (.pqop 0b10 511) = .ok .pqExtract ∧
    decode (.htxn 0b001 0xFFFFFFFF 0xFFFFFFFF) = .ok (.regwr 0xFFFFFFFF 0xFFFFFFFF) ∧
    decode (.htxn 0b110 0 0xFFFFFFFF) = .ok (.rsvd3 false 0 0xFFFFFFFF) ∧
    (decode (.htxn 0b000 3 7) = .ok (.regrd 3) ∧ encode (.regrd 3) = .htxn 0b000 3 0) ∧
    decode (.cmd 2) = .ok .clear := by decide

/-- `PhaseCodesSelectOperations`, the last clause at both ends. -/
theorem witness_PhaseCodesSelectOperations : 5 ≤ (5 : BitVec 3).toNat ∧ 5 ≤ (7 : BitVec 3).toNat := by decide

/-- `StepRunsTheDecodedInstruction`: a word fetched and decoded, each phase, and an idle core. -/
theorem witness_StepRunsTheDecodedInstruction :
    (State.fetch { State.reset with input := [.cmd 1] } = .word (.cmd 1) State.reset ∧ decode (.cmd 1) = .ok .start) ∧
    ((busyAt .freq State.reset).busy = true ∧ (busyAt .freq State.reset).phase = .freq) ∧
    ((busyAt .tree State.reset).busy = true ∧ (busyAt .tree State.reset).phase = .tree) ∧
    (treeV4.busy = true ∧ treeV4.phase = .code) ∧
    (packV4.busy = true ∧ packV4.phase = .pack) ∧
    (State.reset.busy = false ∧ State.reset.input = []) :=
  ⟨⟨rfl, rfl⟩, ⟨rfl, rfl⟩, ⟨rfl, rfl⟩, ⟨rfl, rfl⟩, ⟨rfl, rfl⟩, rfl, rfl⟩

/-- `RegisterReadAnswers`: the five clauses; the last at both ends. -/
theorem witness_RegisterReadAnswers :
    (0 : Word) = 0 ∧ (1 : Word) = 1 ∧ (2 : Word) = 2 ∧ (3 : Word) = 3 ∧
    4 ≤ (4 : Word).toNat ∧ 4 ≤ (0xFFFFFFFF : Word).toNat := by decide

/-- `RegisterWriteStoresOrCommands`, clause by clause. -/
theorem witness_RegisterWriteStoresOrCommands :
    (State.reset.busy = false ∧ (2 : Word) = 2) ∧
    ((0 : Word) = 0 ∧ (1 : Word) = 1) ∧
    (State.reset.busy = false ∧ 3 ≤ (3 : Word).toNat ∧ 3 ≤ (0xFFFFFFFF : Word).toNat) ∧
    4 ≤ (4 : Word).toNat ∧ 4 ≤ (0xFFFFFFFF : Word).toNat ∧
    (busyAt .freq State.reset).busy = true := by decide

/-- `InputByteIsWritten`: the last address inside, the first outside, and busy. -/
theorem witness_InputByteIsWritten :
    ((0xFFFF : Word).toNat < State.reset.params.inCap ∧ State.reset.busy = false) ∧
    State.reset.params.inCap ≤ (0x10000 : Word).toNat ∧
    ((0xFFFF : Word).toNat < (busyAt .freq State.reset).params.inCap ∧ (busyAt .freq State.reset).busy = true) := by decide

/-- `OutputByteIsRead`: the last byte of the result, the first past it, the first past the buffer, and busy. -/
theorem witness_OutputByteIsRead :
    ((1 : Word).toNat < doneV4.params.outCap ∧ doneV4.busy = false ∧ (1 : Word).toNat < doneV4.outLen.toNat ∧
      Memory.read doneV4.outbuf 1 = some 0x80) ∧
    ((2 : Word).toNat < doneV4.params.outCap ∧ doneV4.outLen.toNat ≤ (2 : Word).toNat) ∧
    doneV4.params.outCap ≤ (0x10000 : Word).toNat ∧
    ((0xFFFF : Word).toNat < (busyAt .freq State.reset).params.outCap ∧ (busyAt .freq State.reset).busy = true) := by decide

/-- `OneFlagPerRefusedTransaction`: an illegal, a busy-refused and a reserved transaction, and a `CLEAR`. -/
theorem witness_OneFlagPerRefusedTransaction :
    (∃ t, exec (decodeHeader 0b100 0x10000 0) State.reset = .next t) ∧
    (∃ t, exec (decodeHeader 0b001 0 3) (busyAt .freq State.reset) = .next t) ∧
    (∃ t, exec (decodeHeader 0b001 0 3) State.reset = .next t) ∧
    (∃ t, exec (decodeHeader 0b001 0 2) flagged = .next t) := ⟨⟨_, rfl⟩, ⟨_, rfl⟩, ⟨_, rfl⟩, ⟨_, rfl⟩⟩

/-- `HostCannotDisturbAnInvocation`. -/
theorem witness_HostCannotDisturbAnInvocation : (busyAt .freq State.reset).busy = true := rfl

/-- `NopHasNoEffect`, `ClearAcknowledges`: idle and busy. -/
theorem witness_NopHasNoEffect : State.reset.busy = false ∧ (busyAt .pack State.reset).busy = true := ⟨rfl, rfl⟩

theorem witness_ClearAcknowledges : flagged.busy = false ∧ (busyAt .pack State.reset).busy = true := ⟨rfl, rfl⟩

/-- `StartBeginsAnInvocation`: the greatest legal length, the least illegal one, and busy. -/
theorem witness_StartBeginsAnInvocation :
    (State.reset.busy = false ∧
      State.inLen { State.reset with inLen := 65536 } = 65536 ∧ (65536 : Word).toNat ≤ State.reset.params.inCap) ∧
    State.reset.params.inCap < (65537 : Word).toNat ∧
    (busyAt .freq State.reset).busy = true := by decide

/-- `ReservedCommandsAreRefused`, at both ends. -/
theorem witness_ReservedCommandsAreRefused :
    ((3 : Word) ≠ 0 ∧ (3 : Word) ≠ 1 ∧ (3 : Word) ≠ 2) ∧
    ((0xFFFFFFFF : Word) ≠ 0 ∧ (0xFFFFFFFF : Word) ≠ 1 ∧ (0xFFFFFFFF : Word) ≠ 2) ∧
    State.reset.busy = false ∧ (busyAt .freq State.reset).busy = true := by decide

/-- `CountsSumToTheLength`, on "ABC" and on the empty input. -/
theorem witness_CountsSumToTheLength :
    (∃ t, exec .pFreq (busyAt .freq (loaded [0x41, 0x42, 0x43])) = .next t) ∧ ∃ t, exec .pFreq State.reset = .next t :=
  ⟨⟨_, rfl⟩, ⟨_, rfl⟩⟩

/-- `CountingIsIdempotent`: one input, two states whose tables differ. -/
theorem witness_CountingIsIdempotent :
    (loaded [0x41]).inputBytes = (State.inputBytes { loaded [0x41] with freq := tableOf [(0x52, 9)] }) ∧
    (∃ t, exec .pFreq (loaded [0x41]) = .next t) ∧
    ∃ t, exec .pFreq { loaded [0x41] with freq := tableOf [(0x52, 9)] } = .next t := ⟨rfl, ⟨_, rfl⟩, ⟨_, rfl⟩⟩

/-- A heap of 256 entries and one of 255. -/
def fullHeap : State := { State.reset with pq := { PQueue.reset with hsize := 256 } }

def almostFullHeap : State := { State.reset with pq := { PQueue.reset with hsize := 255 } }

/-- `InsertSiftsUpWhileStrictlyLess`: the empty heap and the last free position. -/
theorem witness_InsertSiftsUpWhileStrictlyLess : State.reset.pq.hsize.val < 256 ∧ almostFullHeap.pq.hsize.val < 256 := by decide

/-- `ExtractSiftsDownWhileStrictlyLess`: two elements and 256. -/
theorem witness_ExtractSiftsDownWhileStrictlyLess :
    ((queued [1, 2] [0, 1]).pq.hsize.val = (1 : Fin 256).val + 1 ∧ 1 ≤ (1 : Fin 256).val) ∧
    (fullHeap.pq.hsize.val = (255 : Fin 256).val + 1 ∧ 1 ≤ (255 : Fin 256).val) := by decide

theorem witness_ExtractOfTheOnlyElement : (queued [7] [0]).pq.hsize.val = 1 := by decide

theorem witness_ExtractFromTheEmptyQueue : State.reset.pq.hsize.val = 0 := by decide

/-- A queue of two nodes in heap order. -/
theorem queued_ordered : HeapOrder (queued [1, 2] [0, 1]).arena.key (queued [1, 2] [0, 1]).pq := by
  unfold HeapOrder; decide +kernel

/-- `HeapOrderIsKept`, clause by clause. -/
theorem witness_HeapOrderIsKept :
    State.reset.pq.hsize.val = 0 ∧
    HeapOrder (queued [1, 2] [0, 1]).arena.key (queued [1, 2] [0, 1]).pq ∧
    (nextOf (exec (.pqInsert 0) (queued [1, 2] [0, 1]))).isSome = true ∧
    (nextOf (exec .pqExtract (queued [1, 2] [0, 1]))).isSome = true ∧
    (1 : Fin 256).val < (queued [1, 2] [0, 1]).pq.hsize.val :=
  ⟨by decide, queued_ordered, by decide +kernel, by decide +kernel, by decide +kernel⟩

/-- `QueueKeepsItsNodes`: both operations answer. -/
theorem witness_QueueKeepsItsNodes :
    (nextOf (exec (.pqInsert (BitVec.ofNat 9 (510 : Idx).val)) State.reset)).isSome = true ∧
    got (exec .pqExtract (queued [1, 2] [0, 1])) (fun t => t.pq.isNone) = some false := by decide +kernel

/-- `ExtractionsAreNonDecreasing`: as many extractions as there are elements. -/
theorem witness_ExtractionsAreNonDecreasing :
    HeapOrder (queued [1, 2] [0, 1]).arena.key (queued [1, 2] [0, 1]).pq ∧ 2 ≤ (queued [1, 2] [0, 1]).pq.hsize.val :=
  ⟨queued_ordered, by decide⟩

theorem witness_InsertStopsByName : fullHeap.pq.hsize.val = 256 := by decide

theorem witness_EmptyTableRaisesEmptyInput : (counted []).freq.k.val = 0 := by decide

theorem witness_LoneSymbolIsTheRoot : (counted [(0x41, 4)]).freq.k.val = 1 := by decide +kernel

/-- `TreeOfTheFrequencyTable`: one symbol with the greatest count, and three symbols. -/
theorem witness_TreeOfTheFrequencyTable :
    (1 ≤ (counted [(0x41, 0xFFFFFFFF)]).freq.k.val ∧
      ((counted [(0x41, 0xFFFFFFFF)]).freq.symbols.map fun b =>
        ((counted [(0x41, 0xFFFFFFFF)]).freq.cnt[(symIndex b).val]).toNat).sum < 2 ^ 32) ∧
    (1 ≤ (counted [(0x41, 5), (0x42, 2), (0x43, 1)]).freq.k.val ∧
      ((counted [(0x41, 5), (0x42, 2), (0x43, 1)]).freq.symbols.map fun b =>
        ((counted [(0x41, 5), (0x42, 2), (0x43, 1)]).freq.cnt[(symIndex b).val]).toNat).sum < 2 ^ 32) := by decide +kernel

/-- `TreeMergesTheTwoLeast`: three symbols, whose tree has the internal nodes 3 and 4. -/
theorem witness_TreeMergesTheTwoLeast :
    1 ≤ (counted [(0x41, 5), (0x42, 2), (0x43, 1)]).freq.k.val ∧
    ((counted [(0x41, 5), (0x42, 2), (0x43, 1)]).freq.symbols.map fun b =>
      ((counted [(0x41, 5), (0x42, 2), (0x43, 1)]).freq.cnt[(symIndex b).val]).toNat).sum < 2 ^ 32 ∧
    got (exec .pTree (counted [(0x41, 5), (0x42, 2), (0x43, 1)])) (fun t => t.arena.nn.val) = some 5 := by decide +kernel

/-- `TreeIsBuiltByTheQueue`: the empty table, whose last extraction is none, and three symbols, whose last extraction is not. -/
theorem witness_TreeIsBuiltByTheQueue :
    (((counted []).freq.symbols.map fun b => ((counted []).freq.cnt[(symIndex b).val]).toNat).sum < 2 ^ 32 ∧
      got (exec .pTree (counted [])) (fun t => t.pq.isNone) = some true) ∧
    (((counted [(0x41, 5), (0x42, 2), (0x43, 1)]).freq.symbols.map fun b =>
        ((counted [(0x41, 5), (0x42, 2), (0x43, 1)]).freq.cnt[(symIndex b).val]).toNat).sum < 2 ^ 32 ∧
      got (exec .pTree (counted [(0x41, 5), (0x42, 2), (0x43, 1)])) (fun t => t.pq.isNone) = some false) := by decide +kernel

theorem witness_LoneSymbolGetsOneDigit : treeV2.rootValid = true ∧ treeV2.arena.node[treeV2.root.val] = .leaf 0x41 4 := by
  decide +kernel

/-- The tree of V4 as a value. -/
def huffV4 : HuffTree := .node 8 (.node 3 (.leaf 0x43 1) (.leaf 0x42 2)) (.leaf 0x41 5)

theorem treeV4_holds : Holds treeV4.arena.node treeV4.root huffV4 :=
  ⟨3, 0, by decide +kernel, by decide, by decide,
    ⟨2, 1, by decide +kernel, by decide, by decide, by unfold Holds; decide +kernel, by unfold Holds; decide +kernel⟩,
    by unfold Holds; decide +kernel⟩

/-- `CodesAreThePathsOfTheTree`. -/
theorem witness_CodesAreThePathsOfTheTree :
    treeV4.rootValid = true ∧ Holds treeV4.arena.node treeV4.root huffV4 ∧ huffV4.size ≤ 511 ∧
      (huffV4.leaves.map Prod.fst).Nodup := ⟨rfl, treeV4_holds, by decide, by decide⟩

/-- `CodeTableIsPrefixFree`: two distinct bytes in the largest input an instance of two bytes takes. -/
theorem witness_CodeTableIsPrefixFree :
    (small 2 2 (loaded [0x41, 0x42])).inLen.toNat ≤ (small 2 2 (loaded [0x41, 0x42])).params.inCap ∧
    ∃ a ∈ (small 2 2 (loaded [0x41, 0x42])).inputBytes, ∃ b ∈ (small 2 2 (loaded [0x41, 0x42])).inputBytes, a ≠ b :=
  ⟨by decide, 0x41, by decide +kernel, 0x42, by decide +kernel, by decide⟩

theorem witness_NoRootIsAFault : State.reset.rootValid = false := rfl

/-- `PackedOutputOfTheStream`, where the output fills the buffer; `OutputTooLongOverflows`, where it is one byte too long. -/
theorem witness_PackedOutputOfTheStream :
    (∀ b ∈ packV4.inputBytes, packV4.walk.code[(symIndex b).val] ≠ none) ∧
    (stream packV4.walk.code packV4.inputBytes).length < 2 ^ 32 ∧
    bytesFor (stream packV4.walk.code packV4.inputBytes).length ≤ (small 8 2 packV4).params.outCap := by decide +kernel

theorem witness_OutputTooLongOverflows :
    (∀ b ∈ packV4.inputBytes, packV4.walk.code[(symIndex b).val] ≠ none) ∧
    (stream packV4.walk.code packV4.inputBytes).length < 2 ^ 32 ∧
    (small 8 1 packV4).params.outCap < bytesFor (stream packV4.walk.code packV4.inputBytes).length := by decide +kernel

/-- `MissingCodeIsAFault`: "AD" with no code for D. -/
theorem witness_MissingCodeIsAFault :
    (coded [(0x41, [true])] (loaded [0x41, 0x44])).inputBytes = [0x41] ++ 0x44 :: [] ∧
    (∀ x ∈ [(0x41 : Byte)], (coded [(0x41, [true])] (loaded [0x41, 0x44])).walk.code[(symIndex x).val] ≠ none) ∧
    (coded [(0x41, [true])] (loaded [0x41, 0x44])).walk.code[(symIndex 0x44).val] = none ∧
    (stream (coded [(0x41, [true])] (loaded [0x41, 0x44])).walk.code [0x41]).length / 8 ≤
      (coded [(0x41, [true])] (loaded [0x41, 0x44])).params.outCap := by decide +kernel

/-- `FailureIsPrecise`: both failures, in running states (that the relations hold there is `witness_PhaseTransitions`). -/
theorem witness_FailureIsPrecise :
    ((counted []).fail = false ∧ (counted []).busy = true ∧ got (exec .pTree (counted [])) State.fail = some true) ∧
    ((small 8 1 packV4).fail = false ∧ (small 8 1 packV4).busy = true ∧
      got (exec .pPack (small 8 1 packV4)) State.fail = some true) ∧
    (0xFFFF : Word).toNat < (counted []).params.outCap := by decide +kernel

/-- `CoreKeepsWhatTheHostOwns`: each phase answers a next state. -/
theorem witness_CoreKeepsWhatTheHostOwns :
    (nextOf (exec .pFreq (loaded [0x41]))).isSome = true ∧ (nextOf (exec .pTree (counted [(0x41, 4)]))).isSome = true ∧
    (nextOf (exec .pCode treeV4)).isSome = true ∧ (nextOf (exec .pPack packV4)).isSome = true := by decide +kernel

/-- `InLenChangesOnlyByItsWrite`: by its write, and by reset. -/
theorem witness_InLenChangesOnlyByItsWrite :
    got (step { State.reset with input := [.txn 0b001 2 5] }) State.inLen = some 5 ∧ State.reset.inLen = 0 ∧
    got (step { flagged with input := [.rst] }) State.inLen = some 0 ∧ flagged.inLen = 3 := by decide +kernel

/-- `StickyFlagsFallOnlyByClearOrReset`: each flag falls by `CLEAR`, on both lines, and by reset. -/
theorem witness_StickyFlagsFallOnlyByClearOrReset :
    (flagged.herrBusy = true ∧ flagged.herrCmd = true ∧ flagged.herrAcc = true) ∧
    got (step { flagged with input := [.txn 0b001 0 2] }) (fun t => (t.herrBusy, t.herrCmd, t.herrAcc)) =
      some (false, false, false) ∧
    got (step { flagged with input := [.cmd 2] }) (fun t => (t.herrBusy, t.herrCmd, t.herrAcc)) = some (false, false, false) ∧
    got (step { flagged with input := [.rst] }) (fun t => (t.herrBusy, t.herrCmd, t.herrAcc)) = some (false, false, false) := by
  decide +kernel

/-- The relations hold in the busy states of these tests. -/
theorem busy_relations (s : State) (hb : s.busy = true) (hd : s.done = false) (hf : s.fail = false) (hc : s.cond = .none)
    (ho : s.outLen = 0) (hp : s.phase ≠ .idle) : Relations s :=
  ⟨fun _ => ⟨hd, hf, hc, ho, hp⟩, fun h => absurd (hb.symm.trans h) (by decide), fun h => absurd (hd.symm.trans h.1) (by decide),
    fun h => absurd (hd.symm.trans h) (by decide), fun h => absurd (hf.symm.trans h) (by decide), fun _ _ _ => ⟨hc, ho⟩⟩

/-- `PhaseTransitions`: the relations hold, and the phase changes: at the start, phase by phase, and at both failures. -/
theorem witness_PhaseTransitions :
    (Relations packV4 ∧ Relations (small 8 1 packV4) ∧ Relations treeV4 ∧ Relations (counted []) ∧
      Relations (busyAt .freq (loaded [0x41]))) ∧
    got (step { loaded [0x41] with input := [.txn 0b001 0 1] }) State.phase = some .freq ∧
    got (step (busyAt .freq (loaded [0x41]))) State.phase = some .tree ∧
    got (step (counted [(0x41, 4)])) State.phase = some .code ∧
    got (step (counted [])) State.phase = some .idle ∧
    got (step treeV4) State.phase = some .pack ∧
    got (step packV4) State.phase = some .idle ∧
    got (step (small 8 1 packV4)) State.phase = some .idle :=
  ⟨⟨busy_relations _ rfl rfl rfl rfl rfl (by decide), busy_relations _ rfl rfl rfl rfl rfl (by decide), busy_relations _ rfl rfl rfl rfl rfl (by decide),
    busy_relations _ rfl rfl rfl rfl rfl (by decide), busy_relations _ rfl rfl rfl rfl rfl (by decide)⟩,
    by decide +kernel, by decide +kernel, by decide +kernel, by decide +kernel, by decide +kernel, by decide +kernel,
    by decide +kernel⟩

/-- `ResultChangesOnlyByItsWriters`: a completion, both failures, `START` over a result, `CLEAR` and reset. -/
theorem witness_ResultChangesOnlyByItsWriters :
    (packV4.busy = true ∧ got (step packV4) (fun t => (t.busy, t.done, t.outLen)) = some (false, true, 2)) ∧
    got (step (counted [])) (fun t => (t.busy, t.fail)) = some (false, true) ∧
    got (step (small 8 1 packV4)) (fun t => (t.busy, t.fail)) = some (false, true) ∧
    got (step { flagged with input := [.txn 0b001 0 1] }) (fun t => (t.busy, t.done)) = some (true, false) ∧
    got (step { flagged with input := [.cmd 2] }) (fun t => (t.busy, t.done)) = some (false, false) ∧
    got (step { flagged with input := [.rst] }) (fun t => (t.busy, t.done)) = some (false, false) := by decide +kernel

/-- `FinishedResultStays`: reads, writes, a reserved command, a core event and a queue drive, after the completion of V4. -/
theorem witness_FinishedResultStays :
    doneV4.busy = false ∧
    (∀ e ∈ [Event.txn 0b100 1 0, .txn 0b001 2 9, .txn 0b011 0 7, .cmd 3, .core, .pq 0b01 0],
      e ≠ .rst ∧ e ≠ .txn 0b001 0 1 ∧ e ≠ .cmd 1 ∧ e ≠ .txn 0b001 0 2 ∧ e ≠ .cmd 2) ∧
    (nextOf (run 6 { doneV4 with input :=
      [Event.txn 0b100 1 0, .txn 0b001 2 9, .txn 0b011 0 7, .cmd 3, .core, .pq 0b01 0] ++ doneV4.input })).isSome = true := by
  decide +kernel

/-- `ParametersNeverChange`, `BuffersChangeOnlyByTheirWriters`: a step that writes each buffer. -/
theorem witness_ParametersNeverChange : (nextOf (step { State.reset with input := [.rst] })).isSome = true := by decide +kernel

theorem witness_BuffersChangeOnlyByTheirWriters :
    got (step { State.reset with input := [.txn 0b011 0xFFFF 0x7E] }) State.inbuf = some [(0xFFFF, 0x7E)] ∧
    got (step packV4) State.outbuf = some [(0, 0xFA), (1, 0x80)] ∧ packV4.outbuf = [] ∧ packV4.input = [] := by decide +kernel

/-- A busy state that meets the invariant. -/
theorem busy_inv : Inv (busyAt .freq (loaded [0x41, 0x42])) where
  relations := busy_relations _ rfl rfl rfl rfl rfl (by decide)
  inbufWf := by decide
  outbufWf := by decide
  inbufWithin := by decide
  outbufWithin := by decide
  length := fun _ => by decide
  ready := fun _ => trivial
  outDefined := fun h => absurd h (by decide)

/-- `EveryStepKeepsTheInvariant`, `TheMachineNeverStops`, `InvocationsTerminate`: a busy state with the core's step to come. -/
theorem witness_EveryStepKeepsTheInvariant :
    Inv (busyAt .freq (loaded [0x41, 0x42])) ∧ ∃ t, step (busyAt .freq (loaded [0x41, 0x42])) = .next t := ⟨busy_inv, ⟨_, rfl⟩⟩

theorem witness_TheMachineNeverStops :
    Inv (busyAt .freq (loaded [0x41, 0x42])) ∧ NoQueueDrive (busyAt .freq (loaded [0x41, 0x42])) :=
  ⟨busy_inv, fun _ _ _ h => by cases h⟩

theorem witness_InvocationsTerminate :
    Inv (busyAt .freq (loaded [0x41, 0x42])) ∧ (busyAt .freq (loaded [0x41, 0x42])).busy = true ∧
      (busyAt .freq (loaded [0x41, 0x42])).input = [] := ⟨busy_inv, rfl, rfl⟩

/-- `RelationsHoldInEveryReachableState`: a run of one step. -/
theorem witness_RelationsHoldInEveryReachableState :
    ∃ t, run 1 (bootWith Config.defaultParams [.txn 0b000 1 0]) = .next t := ⟨_, rfl⟩

/-- `ResultOfAnInvocation`: idle, with a length past `IN_CAP`, of 0, and at `IN_CAP`; the output fits, or is one byte too long. -/
theorem witness_ResultOfAnInvocation :
    (State.reset.busy = false ∧ State.reset.phase = .idle ∧ State.reset.inLen = 0) ∧
    (small 2 1 (loaded [0x41, 0x42, 0x43])).params.inCap < (small 2 1 (loaded [0x41, 0x42, 0x43])).inLen.toNat ∧
    ((small 3 1 (loaded [0x41, 0x42, 0x43])).inLen ≠ 0 ∧
      (small 3 1 (loaded [0x41, 0x42, 0x43])).inLen.toNat ≤ (small 3 1 (loaded [0x41, 0x42, 0x43])).params.inCap ∧
      got (run 5 (launch (small 3 1 (loaded [0x41, 0x42, 0x43])))) State.outLen = some 1) ∧
    got (run 5 (launch (small 9 1 (loaded (List.replicate 9 0x41))))) State.cond = some .outOverflow := by decide +kernel

/-- `DegenerateAlphabetGivesZeros`: eight bytes that fill both buffers. -/
theorem witness_DegenerateAlphabetGivesZeros :
    (small 8 1 (loaded (List.replicate 8 0x41))).busy = false ∧ (small 8 1 (loaded (List.replicate 8 0x41))).phase = .idle ∧
    (small 8 1 (loaded (List.replicate 8 0x41))).inLen ≠ 0 ∧
    (small 8 1 (loaded (List.replicate 8 0x41))).inLen.toNat ≤ (small 8 1 (loaded (List.replicate 8 0x41))).params.inCap ∧
    (small 8 1 (loaded (List.replicate 8 0x41))).inputBytes =
      List.replicate (small 8 1 (loaded (List.replicate 8 0x41))).inLen.toNat 0x41 ∧
    bytesFor (small 8 1 (loaded (List.replicate 8 0x41))).inLen.toNat ≤
      (small 8 1 (loaded (List.replicate 8 0x41))).params.outCap := by decide +kernel

/-- `OutcomeDependsOnTheInputAlone`: two machines with one input whose other tables differ. -/
theorem witness_OutcomeDependsOnTheInputAlone :
    (loaded [0x41, 0x42]).busy = false ∧ (loaded [0x41, 0x42]).phase = .idle ∧
    State.inputBytes { loaded [0x41, 0x42] with freq := tableOf [(0x52, 9)], arena := arenaOf [.internal 3 2 1] } =
      (loaded [0x41, 0x42]).inputBytes := by decide +kernel

/-- `EveryInterleavingEndsAlike`: an idle machine at its greatest legal length. -/
theorem witness_EveryInterleavingEndsAlike :
    (small 2 2 (loaded [0x41, 0x42])).busy = false ∧ (small 2 2 (loaded [0x41, 0x42])).phase = .idle ∧
    (small 2 2 (loaded [0x41, 0x42])).inLen ≠ 0 ∧
    (small 2 2 (loaded [0x41, 0x42])).inLen.toNat ≤ (small 2 2 (loaded [0x41, 0x42])).params.inCap := by decide

/-- `CodeRecordRoundTrip`: the longest code, and an invalid entry. -/
theorem witness_CodeRecordRoundTrip :
    ((∀ d, some (List.replicate 255 true) = some d → d.length ≤ 255) ∧ 254 < (List.replicate 255 true).length) ∧
    ((∀ d : Code, some [] = some d → d.length ≤ 255) ∧ 254 < 255 - ([] : Code).length) ∧
    ∀ d : Code, none = some d → d.length ≤ 255 :=
  ⟨⟨fun d h => by cases h; exact Nat.le_of_eq List.length_replicate, by rw [List.length_replicate]; decide⟩,
    ⟨fun d h => by cases h; exact Nat.zero_le _, by decide⟩, fun d h => by cases h⟩

end Sys2Proof.Tests
end

section
/-! PROOFS. Scope (00_scope.md): the outcome of an invocation as a function of its input, what changes `PHASE`, and the
parameters. -/

namespace Sys2Proof

open Sys2Proof.Machine

/-! ### Events and the core, one step at a time -/

/-- A busy core at its event runs the operation its phase names (70_reset_and_hazards.md R272 b). -/
theorem step_core_busy {s : State} {i : Instr} {rest : List Event} (hb : s.busy = true) (hi : s.input = .core :: rest)
    (hp : PhaseRuns s.phase i) : step s = exec i { s with input := rest } := by
  generalize hph : s.phase = p at hp
  unfold step State.fetch
  rw [hi]
  cases hp <;> simp [State.coreFetch, hb, hph, Phase.bits, decode, decodePhase]

/-- An idle core has no step: its events pass (70_reset_and_hazards.md R272; log 1). -/
theorem run_core_idle (n : Nat) {s : State} {rest : List Event} (hb : s.busy = false)
    (hi : s.input = List.replicate n .core ++ rest) : run n s = .next { s with input := rest } := by
  induction n generalizing s with
  | zero => rw [run_zero, ← show s.input = rest from hi]
  | succ n ih =>
    have hi' : s.input = .core :: (List.replicate n .core ++ rest) := hi
    have hs : step s = .next { s with input := List.replicate n .core ++ rest } := by
      unfold step State.fetch
      rw [hi']
      simp [State.coreFetch, hb]
    rw [run_succ hs]
    exact ih hb rfl

/-- The machine at phase `p` of the invocation that `launch s` begins, with `n` core steps to come before the events of `s`. -/
def running (p : Phase) (n : Nat) (s : State) : State :=
  { s with
    busy := true, done := false, fail := false, cond := .none, outLen := 0, phase := p, rdata := none
    input := List.replicate n .core ++ s.input }

/-- The core's step in a running invocation. -/
theorem run_running {n m : Nat} {p : Phase} {i : Instr} {s t : State} (hp : PhaseRuns p i)
    (h : exec i (running p n s) = .next t) : run (m + 1) (running p (n + 1) s) = run m t :=
  run_succ ((step_core_busy rfl rfl hp).trans h)

/-- The first step of an invocation performs the command `START`. -/
theorem run_launch {n : Nat} {s : State} (hb : s.busy = false) : run (n + 1) (launch s) =
    run n (State.noAnswer { s with input := List.replicate 4 .core ++ s.input }).cmdStart := by
  refine run_succ ?_
  show exec (decodeHeader 1 0 1) { s with input := List.replicate 4 .core ++ s.input } = _
  rw [exec_decodeHeader]
  exact congrArg _ (State.transact_idle (by simp) hb)

/-- An accepted `START` begins the invocation (40_host_interface.md R128). -/
theorem run_launch_legal {n : Nat} {s : State} (hb : s.busy = false) (h : s.inLen.toNat ≤ s.params.inCap) :
    run (n + 1) (launch s) = run n (running .freq 4 s) :=
  (run_launch hb).trans (congrArg (run n) (State.cmdStart_legal h))

/-! ### The frequency table is a function of the input -/

/-- A table indexed by symbols is determined by its entry at each symbol. -/
theorem ext_symIndex {α : Type} {v w : Vector α 256} (h : ∀ b : Byte, v[(symIndex b).val] = w[(symIndex b).val]) :
    v = w := by
  refine Vector.ext fun i hi => ?_
  simpa [symIndex, Nat.mod_eq_of_lt hi] using h (BitVec.ofNat 8 i)

/-- An input has one table: the counts and the symbols in order of first occurrence (41_frequency_counter.md R153). -/
theorem CountsOf.unique {t u : FreqTable} {l : List Byte} (ht : CountsOf t l) (hu : CountsOf u l) :
    t.cnt = u.cnt ∧ t.symbols = u.symbols := by
  constructor
  · exact ext_symIndex fun b => BitVec.eq_of_toNat_eq ((ht.cnt b).trans (hu.cnt b).symm)
  · have hp : t.symbols.Perm u.symbols :=
      (List.perm_ext_iff_of_nodup ht.nodup hu.nodup).2 fun b => (ht.present b).trans (hu.present b).symm
    exact hp.eq_of_pairwise (fun a b _ _ hab hba => absurd (hab.trans hba) (Nat.lt_irrefl _)) ht.order hu.order

/-- The counts of the present symbols add up to the length of the input (41_frequency_counter.md R154). -/
theorem CountsOf.sum {t : FreqTable} {l : List Byte} (h : CountsOf t l) :
    (t.symbols.map fun b => (t.cnt[(symIndex b).val]).toNat).sum = l.length := by
  have hp : t.symbols.Perm l.dedup :=
    (List.perm_ext_iff_of_nodup h.nodup l.nodup_dedup).2 fun b => (h.present b).trans List.mem_dedup.symm
  simp only [h.cnt]
  rw [(hp.map _).sum_eq, List.sum_map_count_dedup_eq_length]

/-- An input that is not empty has a symbol. -/
theorem CountsOf.k_pos {t : FreqTable} {l : List Byte} (h : CountsOf t l) (hl : l ≠ []) : 1 ≤ t.k.val := by
  obtain ⟨b, hb⟩ := List.exists_mem_of_ne_nil l hl
  rw [← t.symbols_length]
  exact List.length_pos_of_mem ((h.present b).2 hb)

/-- `P_FREQ` leaves the table of the input. -/
theorem exec_pFreq_counts (s : State) : ∃ t : FreqTable, CountsOf t s.inputBytes ∧
    exec .pFreq s = .next { s with freq := t, idx := s.inLen, phase := .tree } :=
  ⟨_, countsOf_scan s.freq s.inputBytes (by simpa [State.inputBytes] using s.inLen.isLt), rfl⟩

/-! ### The tree is a function of the input -/

/-- `P_TREE` builds `tree` from the table of `input`, whatever the arena and the queue held before. -/
def BuildsTree (input : List Byte) (tree : HuffTree) : Prop :=
  ∀ (t : FreqTable) (a : Arena) (q : PQueue), CountsOf t input →
    ∃ b : Builder, Builder.build t a q = .ok b ∧ b.pq.hsize.val = 1 ∧ Holds b.arena.node b.pq.heap[0] tree

/-- Every input that is not empty has such a tree, whose leaves are its symbols (43_tree_builder.md R188, R189). -/
theorem exists_buildsTree {input : List Byte} (h0 : input ≠ []) (h32 : input.length < 2 ^ 32) :
    ∃ tree : HuffTree, BuildsTree input tree ∧ tree.size ≤ 511 ∧ (tree.leaves.map Prod.fst).Nodup ∧
      ∀ b, b ∈ tree.leaves.map Prod.fst ↔ b ∈ input := by
  have ht := countsOf_scan .reset input h32
  generalize input.foldl FreqTable.count FreqTable.reset.init = t at ht
  obtain ⟨b, tree, hb, hone, hnn, hlast, -, hholds, hsize, -, hleaves⟩ :=
    Builder.build_spec t .reset .reset (ht.k_pos h0) (by rw [ht.sum]; exact h32)
  have hk := t.k.isLt
  have hsyms : (tree.leaves.map Prod.fst).Perm t.symbols := by
    simpa [Function.comp_def] using hleaves.map Prod.fst
  refine ⟨tree, fun u a q hu => ?_, by omega, hsyms.nodup_iff.2 ht.nodup, fun b => hsyms.mem_iff.trans (ht.present b)⟩
  obtain ⟨hcnt, hsym⟩ := ht.unique hu
  obtain ⟨c, hc, alike⟩ := Alike.build hsym hcnt .reset a .reset q hb
  have root : b.pq.heap[0] = c.pq.heap[0] := alike.entry 0 (by simp [hone])
  exact ⟨c, hc, by rw [← alike.hsize, hone], root ▸ alike.holds (by omega) hholds⟩

/-- `P_TREE` on the table of an input leaves the input's tree at `ROOT` (43_tree_builder.md R184). -/
theorem exec_pTree_builds {s : State} {input : List Byte} {tree : HuffTree} (hb : BuildsTree input tree)
    (hc : CountsOf s.freq input) : ∃ (a : Arena) (q : PQueue) (r : Idx), Holds a.node r tree ∧
      exec .pTree s = .next { s with arena := a, pq := q, root := r, rootValid := true, phase := .code } := by
  obtain ⟨b, hbuild, hone, hholds⟩ := hb s.freq s.arena s.pq hc
  obtain ⟨q, hq, -⟩ := PQueue.extract_spec b.arena.key (Config.unspecified9 s.draws) b.pq (by omega)
  refine ⟨b.arena, q, b.pq.heap[0], hholds, ?_⟩
  show execPTree s = _
  unfold execPTree
  simp only [hbuild, hq]

/-- `P_TREE` on an empty table raises `EmptyInput` (43_tree_builder.md R184, R185). -/
theorem exec_pTree_empty {s : State} (h : s.freq.k.val = 0) :
    exec .pTree s = .next (State.enterFailure .emptyInput { s with
      arena := { s.arena with nn := 0 }
      pq := { s.pq with hsize := 0, res := Config.unspecified9 s.draws, isNone := true }
      rootValid := false, draws := s.draws + 1 }) := by
  have hsyms : s.freq.symbols = [] := List.length_eq_zero_iff.1 (s.freq.symbols_length.trans h)
  have hbuild : Builder.build s.freq s.arena s.pq = .ok (Builder.init s.arena s.pq) := by
    unfold Builder.build
    rw [hsyms]
    rfl
  show execPTree s = _
  unfold execPTree
  simp only [hbuild, PQueue.extract_empty _ _ (Builder.init s.arena s.pq).pq rfl]
  rfl

/-! ### The code table is a function of the tree -/

/-- What `P_CODE` records of a tree: the paths, or the one digit of a lone leaf (44_code_table_builder.md R197, R198). -/
def HuffTree.table : HuffTree → List (Byte × Code)
  | .leaf b _ => [(b, [Config.degenBit])]
  | .node f l r => (HuffTree.node f l r).codes

/-- The tree is a lone leaf, so `DEGEN` is set. -/
def HuffTree.isLone : HuffTree → Bool
  | .leaf _ _ => true
  | .node _ _ _ => false

theorem HuffTree.table_symbols (t : HuffTree) : t.table.map Prod.fst = t.leaves.map Prod.fst := by
  cases t with
  | leaf b f => rfl
  | node f l r => exact (HuffTree.node f l r).codes_symbols

/-- Every code of the table has a digit, and at most 255 in a tree of at most 511 nodes (45_bit_packer.md R217). -/
theorem HuffTree.table_length {t : HuffTree} (hs : t.size ≤ 511) {b : Byte} {c : Code} (h : (b, c) ∈ t.table) :
    1 ≤ c.length ∧ c.length ≤ 255 := by
  cases t with
  | leaf a f =>
    obtain ⟨-, rfl⟩ := Prod.mk.inj (List.mem_singleton.1 h)
    simp
  | node f l r =>
    have hlen := HuffTree.codes_length (t := .node f l r) h
    have hsz := (HuffTree.node f l r).size_leaves
    refine ⟨?_, by omega⟩
    simp only [HuffTree.table, HuffTree.codes, List.mem_append, List.mem_map, Prod.mk.injEq] at h
    rcases h with ⟨_, -, -, rfl⟩ | ⟨_, -, -, rfl⟩ <;> simp

/-- `CODE` holds the table of the tree and nothing else. -/
def Records (code : Vector (Option Code) 256) (tree : HuffTree) : Prop :=
  ∀ (b : Byte) (c : Code), code[(symIndex b).val] = some c ↔ (b, c) ∈ tree.table

/-- A tree has one code table. -/
theorem Records.unique {code code' : Vector (Option Code) 256} {tree : HuffTree} (h : Records code tree)
    (h' : Records code' tree) : code = code' :=
  ext_symIndex fun b => Option.ext fun c => (h b c).trans (h' b c).symm

/-- Every symbol of the tree has a code of a legal length. -/
theorem Records.coded {code : Vector (Option Code) 256} {tree : HuffTree} {input : List Byte} (h : Records code tree)
    (hs : tree.size ≤ 511) (hin : ∀ b ∈ input, b ∈ tree.leaves.map Prod.fst) : Coded code input := by
  intro b hb
  have hm := hin b hb
  rw [← tree.table_symbols] at hm
  obtain ⟨⟨b, c⟩, hc, rfl⟩ := List.mem_map.1 hm
  exact ⟨c, (h b c).2 hc, HuffTree.table_length hs hc⟩

/-- `P_CODE` records the table of the tree at `ROOT` (44_code_table_builder.md R196 to R198). -/
theorem exec_pCode_records {s : State} {tree : HuffTree} (hv : s.rootValid = true) (hh : Holds s.arena.node s.root tree)
    (hs : tree.size ≤ 511) (hn : (tree.leaves.map Prod.fst).Nodup) : ∃ w : Walk, Records w.code tree ∧
      exec .pCode s = .next { s with walk := w, degen := tree.isLone, phase := .pack } := by
  cases tree with
  | leaf a f =>
    have hnode : s.arena.node[s.root.val] = .leaf a f := hh
    refine ⟨s.walk.init.record a [Config.degenBit], fun b c => ?_, ?_⟩
    · rw [Walk.record_code]
      simp only [HuffTree.table, List.mem_singleton, Prod.mk.injEq]
      split
      · simp [*, eq_comm]
      · simp [*, Walk.init]
    · show execPCode s = _
      unfold execPCode
      simp only [if_pos hv, hnode]
      rfl
  | node f l r =>
    obtain ⟨w, hw, -, hrec⟩ := Walk.from_spec s.arena.node s.root _ s.walk hh hs hn
    obtain ⟨li, ri, hnode, -⟩ := hh
    refine ⟨w, hrec, ?_⟩
    show execPCode s = _
    unfold execPCode
    simp only [if_pos hv, hnode, hw]
    rfl

/-! ### The outcome is a function of the code table and the input -/

/-- Codes have at most 255 digits, so the stream is at most 255 times as long as the input. -/
theorem Coded.stream_length {code : Vector (Option Code) 256} {input : List Byte} (h : Coded code input) :
    (stream code input).length ≤ 255 * input.length := by
  induction input with
  | nil => simp [stream]
  | cons b bs ih =>
    obtain ⟨c, hc, -, h255⟩ := h b List.mem_cons_self
    have := ih fun x hx => h x (List.mem_cons_of_mem _ hx)
    rw [stream_cons, hc, Option.getD_some, List.length_append, List.length_cons]
    omega

/-- An invocation has failed with condition `c`: the result fields after failure entry (60_exceptions.md R232) and after a
`START` of an illegal length (40_host_interface.md R128). -/
structure FailedWith (c : Cond) (t : State) : Prop where
  done : t.done = false
  fail : t.fail = true
  cond : t.cond = c
  outLen : t.outLen = 0

/-- An invocation has completed with the stream `S` (40_host_interface.md R132). -/
structure CompletedWith (lone : Bool) (S : List Bool) (t : State) : Prop where
  done : t.done = true
  fail : t.fail = false
  cond : t.cond = if lone then .degenerateAlphabet else .none
  outLen : t.outLen = BitVec.ofNat 32 (bytesFor S.length)
  packed : Packed t.outbuf S

/-- An invocation that packed the stream `S` has ended: completion where the bytes fit, and otherwise `OutOverflow`
(45_bit_packer.md R215, R216). -/
structure PackedWith (cap : Nat) (lone : Bool) (S : List Bool) (t : State) : Prop where
  fits : bytesFor S.length ≤ cap → CompletedWith lone S t
  overflows : cap < bytesFor S.length → FailedWith .outOverflow t

/-- An invocation that began in `s` has ended in `t`: the machine is idle, and the events to come and what the host owns are as
they were (20_memory.md R78). -/
structure Ended (s t : State) : Prop where
  busy : t.busy = false
  phase : t.phase = .idle
  input : t.input = s.input
  inLen : t.inLen = s.inLen
  inbuf : t.inbuf = s.inbuf

/-- The phase `P_PACK` of a running invocation ends it. -/
theorem exec_pPack_ends {s : State} (hd : s.done = false) (hf : s.fail = false) (hc : Coded s.walk.code s.inputBytes)
    (hw : (stream s.walk.code s.inputBytes).length < 2 ^ 32) : ∃ t : State, exec .pPack s = .next t ∧ Ended s t ∧
      t.freq = s.freq ∧ t.walk = s.walk ∧ PackedWith s.params.outCap s.degen (stream s.walk.code s.inputBytes) t := by
  have hpack := Packer.pack_spec s.params.outCap s.walk.code s.inputBytes s.outbuf
    (fun b hb => by obtain ⟨c, hc, -⟩ := hc b hb; simp [hc]) hw
  generalize stream s.walk.code s.inputBytes = S at *
  by_cases hfit : bytesFor S.length ≤ s.params.outCap
  · obtain ⟨p, hp, hbits, -, -, hpacked, -⟩ := hpack.1 hfit
    have hlen : (s.withPacker p).bits.toNat = S.length := by simp [hbits]; omega
    refine ⟨(s.withPacker p).complete, ?_, ⟨rfl, rfl, rfl, rfl, rfl⟩, rfl, rfl, fun _ => ⟨rfl, hf, rfl, ?_, hpacked⟩,
      fun h => absurd h (Nat.not_lt.2 hfit)⟩
    · show execPPack s = _
      unfold execPPack
      rw [hp]
    · rw [← hlen]
      rfl
  · obtain ⟨p, hp, -⟩ := hpack.2 (Nat.lt_of_not_le hfit)
    refine ⟨(s.withPacker p).enterFailure .outOverflow, ?_, ⟨rfl, rfl, rfl, rfl, rfl⟩, rfl, rfl,
      fun h => absurd h hfit, fun _ => ⟨hd, rfl, rfl, rfl⟩⟩
    show execPPack s = _
    unfold execPPack
    rw [hp]

/-- A stream packs into one sequence of bytes (30_encoding.md R104). -/
theorem Packed.read_eq {out out' : Memory} {S : List Bool} (h : Packed out S) (h' : Packed out' S) {j : Nat}
    (hj : j < bytesFor S.length) : ∃ b, Memory.read out j = some b ∧ Memory.read out' j = some b := by
  have bit : ∀ k < 8, ∃ b b' : Byte, Memory.read out j = some b ∧ Memory.read out' j = some b' ∧
      b.getLsbD k = b'.getLsbD k := by
    intro k hk
    obtain ⟨b, hb, e⟩ := h (8 * j + (7 - k)) (by omega)
    obtain ⟨b', hb', e'⟩ := h' (8 * j + (7 - k)) (by omega)
    rw [show (8 * j + (7 - k)) / 8 = j by omega] at hb hb'
    rw [show 7 - (8 * j + (7 - k)) % 8 = k by omega] at e e'
    exact ⟨b, b', hb, hb', e.trans e'.symm⟩
  obtain ⟨b, b', hb, hb', -⟩ := bit 0 (by omega)
  obtain rfl : b = b' := by
    refine BitVec.eq_of_getLsbD_eq fun k hk => ?_
    obtain ⟨c, c', hc, hc', e⟩ := bit k hk
    rw [hb] at hc
    rw [hb'] at hc'
    cases hc
    cases hc'
    exact e
  exact ⟨b, hb, hb'⟩

/-- Two failures with one condition are one outcome. -/
theorem FailedWith.sameOutcome {c : Cond} {t u : State} (ht : FailedWith c t) (hu : FailedWith c u) : sameOutcome t u :=
  ⟨ht.done.trans hu.done.symm, ht.fail.trans hu.fail.symm, ht.cond.trans hu.cond.symm, ht.outLen.trans hu.outLen.symm,
    fun j hj => by simp [ht.outLen] at hj⟩

/-- Two completions with one stream are one outcome. -/
theorem CompletedWith.sameOutcome {lone : Bool} {S : List Bool} {t u : State} (ht : CompletedWith lone S t)
    (hu : CompletedWith lone S u) : sameOutcome t u := by
  refine ⟨ht.done.trans hu.done.symm, ht.fail.trans hu.fail.symm, ht.cond.trans hu.cond.symm,
    ht.outLen.trans hu.outLen.symm, fun j hj => ?_⟩
  have hlen : t.outLen.toNat ≤ bytesFor S.length := by
    rw [ht.outLen, BitVec.toNat_ofNat]
    exact Nat.mod_le _ _
  obtain ⟨b, hb, hb'⟩ := ht.packed.read_eq hu.packed (Nat.lt_of_lt_of_le hj hlen)
  simp [State.outByte, hb, hb']

/-- Two invocations that packed one stream for one capacity end alike. -/
theorem PackedWith.sameOutcome {cap : Nat} {lone : Bool} {S : List Bool} {t u : State} (ht : PackedWith cap lone S t)
    (hu : PackedWith cap lone S u) : sameOutcome t u := by
  rcases Nat.lt_or_ge cap (bytesFor S.length) with h | h
  · exact (ht.overflows h).sameOutcome (hu.overflows h)
  · exact (ht.fits h).sameOutcome (hu.fits h)

/-! ### An invocation from `START` to its end -/

/-- `IN_LEN` is the number of input bytes. -/
theorem inputBytes_length (s : State) : s.inputBytes.length = s.inLen.toNat := by simp [State.inputBytes]

/-- A `START` of an illegal length fails at once (40_host_interface.md R128). -/
theorem run_launch_illegal {s : State} (hb : s.busy = false) (hp : s.phase = .idle)
    (h : s.params.inCap < s.inLen.toNat) :
    ∃ t, run 5 (launch s) = .next t ∧ Ended s t ∧ FailedWith .badLength t := by
  have hstart := State.cmdStart_illegal (s := State.noAnswer { s with input := List.replicate 4 .core ++ s.input }) h
  exact ⟨_, (run_launch hb).trans ((congrArg (run 4) hstart).trans (run_core_idle 4 (by exact hb) rfl)),
    ⟨hb, hp, rfl, rfl, rfl⟩, ⟨rfl, rfl, rfl, rfl⟩⟩

/-- What the first phase of an invocation of legal length leaves. -/
theorem run_launch_counts {s : State} (hb : s.busy = false) (h : s.inLen.toNat ≤ s.params.inCap) :
    ∃ f : FreqTable, CountsOf f s.inputBytes ∧
      ∀ n, run (n + 2) (launch s) = run n (running .tree 3 { s with freq := f, idx := s.inLen }) := by
  obtain ⟨f, hf, hx⟩ := exec_pFreq_counts (running .freq 3 s)
  exact ⟨f, hf, fun n => (run_launch_legal hb h).trans (run_running .freq hx)⟩

/-- An invocation of an empty input fails in its second phase (43_tree_builder.md R185). -/
theorem run_launch_empty {s : State} (hb : s.busy = false) (h : s.inLen = 0) :
    ∃ t, run 5 (launch s) = .next t ∧ Ended s t ∧ FailedWith .emptyInput t := by
  obtain ⟨f, hf, hrun⟩ := run_launch_counts hb (by simp [h])
  have hk : f.k.val = 0 := by
    have hsyms : f.symbols = [] := List.eq_nil_iff_forall_not_mem.2 fun b hm => by
      simpa [State.inputBytes, h] using (hf.present b).1 hm
    rw [← f.symbols_length, hsyms, List.length_nil]
  have htree := exec_pTree_empty (s := running .tree 2 { s with freq := f, idx := s.inLen }) hk
  exact ⟨_, (hrun 3).trans ((run_running .tree htree).trans (run_core_idle 2 rfl rfl)),
    ⟨rfl, rfl, rfl, rfl, rfl⟩, ⟨rfl, rfl, rfl, rfl⟩⟩

/-- An invocation of an input of legal length with tree `tree` packs the stream of the tree's codes. -/
theorem run_launch_packs {s : State} {tree : HuffTree} (hb : s.busy = false) (h : s.inLen.toNat ≤ s.params.inCap)
    (hbuild : BuildsTree s.inputBytes tree) (hs : tree.size ≤ 511) (hn : (tree.leaves.map Prod.fst).Nodup)
    (hin : ∀ b ∈ s.inputBytes, b ∈ tree.leaves.map Prod.fst) :
    ∃ t, run 5 (launch s) = .next t ∧ Ended s t ∧ CountsOf t.freq s.inputBytes ∧ Records t.walk.code tree ∧
      PackedWith s.params.outCap tree.isLone (stream t.walk.code s.inputBytes) t := by
  obtain ⟨f, hf, hrun⟩ := run_launch_counts hb h
  let s₂ : State := { s with freq := f, idx := s.inLen }
  obtain ⟨a, q, r, hr, htree⟩ := exec_pTree_builds (s := running .tree 2 s₂) hbuild hf
  let s₃ : State := { s₂ with arena := a, pq := q, root := r, rootValid := true }
  obtain ⟨w, hw, hcode⟩ := exec_pCode_records (s := running .code 1 s₃) rfl hr hs hn
  let s₄ : State := { s₃ with walk := w, degen := tree.isLone }
  have hc : Coded w.code s.inputBytes := hw.coded hs hin
  have hbits : (stream w.code s.inputBytes).length < 2 ^ 32 := by
    have hlen := hc.stream_length
    have hcap := s.params.inCapLess1.isLt
    rw [inputBytes_length] at hlen
    unfold Params.inCap at h
    omega
  obtain ⟨t, hpack, hend, hfreq, hwalk, ht⟩ := exec_pPack_ends (s := running .pack 0 s₄) rfl rfl hc hbits
  refine ⟨t, ?_, ⟨hend.busy, hend.phase, hend.input, hend.inLen, hend.inbuf⟩, hfreq ▸ hf, hwalk ▸ hw, hwalk ▸ ht⟩
  calc run 5 (launch s) = run 3 (running .tree 3 s₂) := hrun 3
    _ = run 2 (running .code 2 s₃) := run_running .tree htree
    _ = run 1 (running .pack 1 s₄) := run_running .code hcode
    _ = run 0 t := run_running .pack hpack

/-- Settles O52: an illegal length and an empty input fail alike, and any other input fixes the tree, so the code table, so
the stream that is packed. -/
theorem outcomeDependsOnTheInputAlone : Obligations.OutcomeDependsOnTheInputAlone := by
  unfold Obligations.OutcomeDependsOnTheInputAlone
  intro s₁ s₂ hb₁ hb₂ hi₁ hi₂ hparams hlen hinput
  rcases Nat.lt_or_ge s₁.params.inCap s₁.inLen.toNat with hbad | hlegal
  · obtain ⟨t₁, hr₁, -, hf₁⟩ := run_launch_illegal hb₁ hi₁ hbad
    obtain ⟨t₂, hr₂, -, hf₂⟩ := run_launch_illegal hb₂ hi₂ (by rw [← hparams, ← hlen]; exact hbad)
    exact ⟨t₁, t₂, hr₁, hr₂, hf₁.sameOutcome hf₂⟩
  by_cases h0 : s₁.inLen = 0
  · obtain ⟨t₁, hr₁, -, hf₁⟩ := run_launch_empty hb₁ h0
    obtain ⟨t₂, hr₂, -, hf₂⟩ := run_launch_empty hb₂ (hlen ▸ h0)
    exact ⟨t₁, t₂, hr₁, hr₂, hf₁.sameOutcome hf₂⟩
  have hne : s₁.inputBytes ≠ [] := fun h => h0 (BitVec.eq_of_toNat_eq (by rw [← inputBytes_length, h]; rfl))
  obtain ⟨tree, hbuild, hs, hn, hsyms⟩ := exists_buildsTree hne (by rw [inputBytes_length]; exact s₁.inLen.isLt)
  have hin : ∀ b ∈ s₁.inputBytes, b ∈ tree.leaves.map Prod.fst := fun b => (hsyms b).2
  obtain ⟨t₁, hr₁, -, -, hcode₁, hp₁⟩ := run_launch_packs hb₁ hlegal hbuild hs hn hin
  rw [hparams, hlen] at hlegal
  rw [hinput] at hbuild hin
  obtain ⟨t₂, hr₂, -, -, hcode₂, hp₂⟩ := run_launch_packs hb₂ hlegal hbuild hs hn hin
  rw [← hparams, ← hinput, ← hcode₁.unique hcode₂] at hp₂
  exact ⟨t₁, t₂, hr₁, hr₂, hp₁.sameOutcome hp₂⟩

/-! ### What every step keeps -/

/-- No phase operation writes the parameters (10_state.md R52). -/
theorem exec_phase_params {p : Phase} {i : Instr} {s t : State} (hp : PhaseRuns p i) (h : exec i s = .next t) :
    t.params = s.params := by
  cases hp with
  | freq => exact (congrArg State.params (pFreq_cases h) :)
  | tree => rcases pTree_cases h with e | e <;> exact (congrArg State.params e :)
  | code => exact (congrArg State.params (pCode_cases h) :)
  | pack => obtain ⟨p, -, rfl | rfl⟩ := pPack_cases h <;> rfl

/-- No host transaction writes the parameters (10_state.md R52). -/
theorem TxnCase.params {hdr : BitVec 3} {addr wdata : Word} {s t : State} (h : TxnCase hdr addr wdata s t) :
    t.params = s.params := by
  cases h with
  | flags e => exact (congrArg State.params e :)
  | inLen _ _ _ e => exact (congrArg State.params e :)
  | inbuf _ _ _ e => exact (congrArg State.params e :)
  | start _ _ _ _ e =>
    rcases cmdStart_cases s.noAnswer with ⟨-, e'⟩ | ⟨-, e'⟩ <;> exact (congrArg State.params (e.trans e') :)
  | clear _ _ _ _ e => exact (congrArg State.params e :)

/-- Settles O44, over everything a step can do. -/
theorem parametersNeverChange : Obligations.ParametersNeverChange := by
  unfold Obligations.ParametersNeverChange
  intro s t h
  cases step_cases h with
  | idle _ e => exact (congrArg State.params e :)
  | rst rest _ e => exact (congrArg State.params e :)
  | txn hdr addr wdata rest _ e => exact ((txn_cases e).params :)
  | core i _ hp e => exact (exec_phase_params hp e :)
  | pq q d op arg rest _ e => exact (congrArg State.params e :)

/-- The phases a core step leads to, and how it ends an invocation (10_state.md R27). -/
def PhaseMoves (p : Phase) (t : State) : Prop :=
  (p = .freq ∧ t.phase = .tree) ∨ (p = .tree ∧ t.phase = .code) ∨
    (p = .tree ∧ t.phase = .idle ∧ t.fail = true ∧ t.cond = .emptyInput) ∨ (p = .code ∧ t.phase = .pack) ∨
    (p = .pack ∧ t.phase = .idle ∧ (t.done = true ∨ (t.fail = true ∧ t.cond = .outOverflow)))

/-- A core step makes one of these moves. -/
theorem exec_phase_moves {p : Phase} {i : Instr} {s t : State} (hp : PhaseRuns p i) (h : exec i s = .next t) :
    PhaseMoves p t := by
  cases hp with
  | freq => exact .inl ⟨rfl, congrArg State.phase (pFreq_cases h)⟩
  | tree =>
    rcases pTree_cases h with e | e
    · exact .inr (.inr (.inl ⟨rfl, congrArg State.phase e, congrArg State.fail e, congrArg State.cond e⟩))
    · exact .inr (.inl ⟨rfl, congrArg State.phase e⟩)
  | code => exact .inr (.inr (.inr (.inl ⟨rfl, congrArg State.phase (pCode_cases h)⟩)))
  | pack =>
    obtain ⟨p, -, rfl | rfl⟩ := pPack_cases h
    · exact .inr (.inr (.inr (.inr ⟨rfl, rfl, .inl rfl⟩)))
    · exact .inr (.inr (.inr (.inr ⟨rfl, rfl, .inr ⟨rfl, rfl⟩⟩)))

/-- A host transaction that changes `PHASE` is the `START` of a legal length (40_host_interface.md R128). -/
theorem TxnCase.phase_change {hdr : BitVec 3} {addr wdata : Word} {s t : State} (h : TxnCase hdr addr wdata s t)
    (hne : t.phase ≠ s.phase) : s.busy = false ∧ hdr = 1 ∧ addr = 0 ∧ wdata = 1 ∧ s.inLen.toNat ≤ s.params.inCap ∧
      t.phase = .freq ∧ t.busy = true := by
  cases h with
  | flags e => exact absurd (congrArg State.phase e) hne
  | inLen _ _ _ e => exact absurd (congrArg State.phase e) hne
  | inbuf _ _ _ e => exact absurd (congrArg State.phase e) hne
  | start hb hh ha hw e =>
    rcases cmdStart_cases s.noAnswer with ⟨-, e'⟩ | ⟨hl, e'⟩
    · exact absurd (congrArg State.phase (e.trans e')) hne
    · exact ⟨hb, hh, ha, hw, hl, congrArg State.phase (e.trans e'), congrArg State.busy (e.trans e')⟩
  | clear _ _ _ _ e => exact absurd (congrArg State.phase e) hne

/-- Settles O43, over everything a step can do: only `rst`, `START` and the core's step write `PHASE`. -/
theorem phaseTransitions : Obligations.PhaseTransitions := by
  unfold Obligations.PhaseTransitions
  intro s t hrel h hne
  cases step_cases h with
  | idle _ e => exact absurd (congrArg State.phase e) hne
  | rst rest hi e => exact .inl ⟨⟨rest, hi⟩, congrArg State.phase e⟩
  | txn hdr addr wdata rest hi e =>
    obtain ⟨hb, rfl, rfl, rfl, hl, hp, hbusy⟩ := (txn_cases e).phase_change hne
    exact .inr (.inl ⟨⟨hb, rest, hi.imp_right And.left⟩, hl, hrel.idle hb, hp, hbusy⟩)
  | core i hc hp e => exact .inr (.inr ⟨hc, exec_phase_moves hp e⟩)
  | pq q d op arg rest _ e => exact absurd (congrArg State.phase e) hne

end Sys2Proof
end

section
/-! PROOFS. State (10_state.md): the invariant and the relations of R23 in every reachable state, what each step may write,
P_TREE's tree, the layout of `STATUS` and of a `CODE` record. -/

namespace Sys2Proof

open Sys2Proof.Machine

/-! ### The invariant at reset -/

/-- The reset values meet the invariant, whatever the parameters, the events to come, the draws and the epoch are. -/
theorem inv_reset (p : Params) (script : List Event) (d e : Nat) :
    Inv { State.reset with params := p, input := script, draws := d, epoch := e } where
  relations :=
    { busy := fun h => nomatch h
      idle := fun _ => rfl
      exclusive := fun h => nomatch h.1
      done := fun h => nomatch h
      fail := fun h => nomatch h
      rest := fun _ _ _ => ⟨rfl, rfl⟩ }
  inbufWf := Memory.wf_nil
  outbufWf := Memory.wf_nil
  inbufWithin := Memory.within_nil _
  outbufWithin := Memory.within_nil _
  length := fun h => nomatch h
  ready := fun h => nomatch h
  outDefined := fun h => nomatch h

/-- Settles O46: at power-on and after booting with any parameters the registers hold the reset values. -/
theorem resetMeetsTheInvariant : Obligations.ResetMeetsTheInvariant := by
  unfold Obligations.ResetMeetsTheInvariant
  exact ⟨inv_reset Config.defaultParams [] 0 0, fun p script => inv_reset p script 0 0⟩

/-! ### The host's and the queue port's steps keep the invariant -/

/-- The invariant says nothing of the sticky flags, the answer, the events to come, the draws and the queue. -/
theorem Inv.keep {s : State} (h : Inv s) (acc busy cmd : Bool) (answer : Option Word) (events : List Event) (d : Nat)
    (q : PQueue) : Inv { s with
      herrAcc := acc, herrBusy := busy, herrCmd := cmd, rdata := answer, input := events, draws := d, pq := q } :=
  have r := h.relations
  ⟨⟨r.busy, r.idle, r.exclusive, r.done, r.fail, r.rest⟩, h.inbufWf, h.outbufWf, h.inbufWithin, h.outbufWithin, h.length,
    h.ready, h.outDefined⟩

/-- An idle host may write `IN_LEN` and `INBUF`. -/
theorem Inv.load {s : State} (h : Inv s) (hb : s.busy = false) (n : Word) {m : Memory} (hw : Memory.wf m)
    (hm : Memory.within s.params.inCap m) : Inv { s with inLen := n, inbuf := m, rdata := none } :=
  have r := h.relations
  have idle {p : Prop} (hb' : s.busy = true) : p := absurd hb' (by simp [hb])
  ⟨⟨r.busy, r.idle, r.exclusive, r.done, r.fail, r.rest⟩, hw, h.outbufWf, hm, h.outbufWithin, idle, idle, h.outDefined⟩

/-- A failure with one of its three conditions meets the relations (10_state.md R23). -/
theorem FailedWith.relations {c : Cond} {t : State} (h : FailedWith c t) (hb : t.busy = false) (hp : t.phase = .idle)
    (hc : c = .emptyInput ∨ c = .badLength ∨ c = .outOverflow) : Relations t where
  busy := fun h' => absurd h' (by simp [hb])
  idle := fun _ => hp
  exclusive := fun h' => absurd h'.1 (by simp [h.done])
  done := fun h' => absurd h' (by simp [h.done])
  fail := fun _ => ⟨h.cond ▸ hc, h.outLen⟩
  rest := fun _ _ h' => absurd h'.symm (by simp [h.fail])

/-- With no result `t` meets the relations: running in some phase, or idle (10_state.md R23). -/
theorem relations_of_no_result {t : State} (hd : t.done = false) (hf : t.fail = false) (hc : t.cond = .none)
    (ho : t.outLen = 0) (hp : t.busy = false ↔ t.phase = .idle) : Relations t where
  busy := fun h => ⟨hd, hf, hc, ho, fun h' => absurd (hp.2 h') (by simp [h])⟩
  idle := hp.1
  exclusive := fun h => absurd h.1 (by simp [hd])
  done := fun h => absurd h (by simp [hd])
  fail := fun h => absurd h (by simp [hf])
  rest := fun _ _ _ => ⟨hc, ho⟩

/-- A state that differs from `s` in `STATUS`, `OUT_LEN` and the answer alone meets the invariant where its relations hold,
it has no output, and if it runs it begins a legal invocation. -/
theorem Inv.command {s t : State} (h : Inv s) (e : t = { s with
      busy := t.busy, done := false, fail := t.fail, phase := t.phase, cond := t.cond, outLen := t.outLen
      herrAcc := t.herrAcc, herrBusy := t.herrBusy, herrCmd := t.herrCmd, rdata := t.rdata })
    (hr : Relations t) (hb : t.busy = true → t.phase = .freq ∧ s.inLen.toNat ≤ s.params.inCap) : Inv t := by
  have hp : t.params = s.params := (congrArg State.params e :)
  have hi : t.inbuf = s.inbuf := (congrArg State.inbuf e :)
  have ho : t.outbuf = s.outbuf := (congrArg State.outbuf e :)
  have hn : t.inLen = s.inLen := (congrArg State.inLen e :)
  have hd : t.done = false := (congrArg State.done e :)
  refine ⟨hr, hi ▸ h.inbufWf, ho ▸ h.outbufWf, hi ▸ hp ▸ h.inbufWithin, ho ▸ hp ▸ h.outbufWithin,
    fun h' => hn ▸ hp ▸ (hb h').2, fun h' => ?_, fun h' => absurd h' (by simp [hd])⟩
  unfold PhaseReady
  rw [(hb h').1]
  trivial

/-- Every host transaction keeps the invariant. -/
theorem TxnCase.inv {hdr : BitVec 3} {addr wdata : Word} {s t : State} (h : TxnCase hdr addr wdata s t) (hs : Inv s) :
    Inv t := by
  cases h with
  | flags e _ _ _ => exact e ▸ hs.keep t.herrAcc t.herrBusy t.herrCmd t.rdata s.input t.draws s.pq
  | inLen hb _ _ e => exact e ▸ hs.load hb wdata hs.inbufWf hs.inbufWithin
  | inbuf hb _ ha e =>
    exact e ▸ hs.load hb s.inLen (Memory.wf_write hs.inbufWf _ _) (Memory.within_write hs.inbufWithin ha _)
  | start hb _ _ _ e =>
    have hp := hs.relations.idle hb
    rcases cmdStart_cases s.noAnswer with ⟨-, e'⟩ | ⟨hl, e'⟩ <;> rw [e'] at e <;> subst e
    · have hf : FailedWith .badLength
          { s.noAnswer with done := false, fail := true, cond := .badLength, outLen := 0 } := ⟨rfl, rfl, rfl, rfl⟩
      exact hs.command rfl (hf.relations hb hp (.inr (.inl rfl))) fun hb' => absurd hb' (by simp [hb])
    · exact hs.command rfl (relations_of_no_result rfl rfl rfl rfl ⟨nofun, nofun⟩) fun _ => ⟨rfl, hl⟩
  | clear hb _ _ _ e =>
    have hp := hs.relations.idle hb
    subst e
    exact hs.command rfl (relations_of_no_result rfl rfl rfl rfl ⟨fun _ => hp, fun _ => hb⟩)
      fun hb' => absurd (hb.symm.trans hb') (by simp)

/-! ### The core's steps keep the invariant -/

/-- A running core that goes on to a phase whose tables are ready keeps the invariant. -/
theorem Inv.advance {s t : State} (h : Inv s) (hb : s.busy = true) (e : t = { s with
      phase := t.phase, freq := t.freq, arena := t.arena, root := t.root, rootValid := t.rootValid, pq := t.pq
      walk := t.walk, degen := t.degen, idx := t.idx })
    (hp : t.phase ≠ .idle) (hr : PhaseReady t) : Inv t := by
  obtain ⟨hd, hf, hc, ho, -⟩ := h.relations.busy hb
  rw [e]
  refine ⟨relations_of_no_result hd hf hc ho ⟨fun h' => absurd h' (by simp [hb]), fun h' => absurd h' hp⟩, h.inbufWf,
    h.outbufWf, h.inbufWithin, h.outbufWithin, h.length, fun _ => e ▸ hr, h.outDefined⟩

/-- A core step that ends an invocation keeps the invariant, where the relations hold and the output is there. -/
theorem Inv.finish {s t : State} (h : Inv s) (he : Ended s t) (hp : t.params = s.params)
    (hs : Stored s.params.outCap s.outbuf t.outbuf) (hr : Relations t)
    (ho : t.done = true → ∀ j < t.outLen.toNat, Memory.read t.outbuf j ≠ none) : Inv t where
  relations := hr
  inbufWf := he.inbuf ▸ h.inbufWf
  outbufWf := hs.wf h.outbufWf
  inbufWithin := he.inbuf ▸ hp ▸ h.inbufWithin
  outbufWithin := hp ▸ hs.within h.outbufWithin
  length := fun h' => absurd h' (by simp [he.busy])
  ready := fun h' => absurd h' (by simp [he.busy])
  outDefined := ho

/-- An empty input has no symbol. -/
theorem CountsOf.k_zero {t : FreqTable} {l : List Byte} (h : CountsOf t l) (hl : l = []) : t.k.val = 0 := by
  have hsyms : t.symbols = [] := List.eq_nil_iff_forall_not_mem.2 fun b hm => by
    simpa [hl] using (h.present b).1 hm
  rw [← t.symbols_length, hsyms, List.length_nil]

/-- `P_FREQ` keeps the invariant: it leaves the table of the input (41_frequency_counter.md R153). -/
theorem Inv.pFreq {s t : State} (h : Inv s) (hb : s.busy = true) (e : exec .pFreq s = .next t) : Inv t := by
  obtain ⟨f, hf, e'⟩ := exec_pFreq_counts s
  obtain rfl := Host.Outcome.next.inj (e'.symm.trans e)
  exact h.advance hb rfl nofun hf

/-- `P_TREE` keeps the invariant: on the table of the input it fails or leaves the input's tree (43_tree_builder.md R184,
R185, R188). -/
theorem Inv.pTree {s t : State} (h : Inv s) (hb : s.busy = true) (hc : CountsOf s.freq s.inputBytes)
    (e : exec .pTree s = .next t) : Inv t := by
  by_cases h0 : s.inputBytes = []
  · obtain rfl := Host.Outcome.next.inj ((exec_pTree_empty (hc.k_zero h0)).symm.trans e)
    obtain ⟨hd, -⟩ := h.relations.busy hb
    refine h.finish ⟨rfl, rfl, rfl, rfl, rfl⟩ rfl ⟨id, id, fun _ _ => rfl⟩ ?_ fun h' => absurd (hd.symm.trans h') nofun
    exact FailedWith.relations (c := .emptyInput) ⟨hd, rfl, rfl, rfl⟩ rfl rfl (.inl rfl)
  · obtain ⟨tree, hbuild, hs, hn, hsyms⟩ := exists_buildsTree h0 (by rw [inputBytes_length]; exact s.inLen.isLt)
    obtain ⟨a, q, r, hr, e'⟩ := exec_pTree_builds hbuild hc
    obtain rfl := Host.Outcome.next.inj (e'.symm.trans e)
    exact h.advance hb rfl nofun ⟨rfl, h0, tree, hr, hs, hn, fun b => (hsyms b).2⟩

/-- `P_CODE` keeps the invariant: every input byte gets a code (44_code_table_builder.md R198, R200). -/
theorem Inv.pCode {s t : State} (h : Inv s) (hb : s.busy = true) (hp : s.phase = .code)
    (e : exec .pCode s = .next t) : Inv t := by
  have hr := h.ready hb
  unfold PhaseReady at hr
  rw [hp] at hr
  obtain ⟨hv, h0, tree, hh, hs, hn, hin⟩ := hr
  obtain ⟨w, hw, e'⟩ := exec_pCode_records hv hh hs hn
  obtain rfl := Host.Outcome.next.inj (e'.symm.trans e)
  exact h.advance hb rfl nofun ⟨h0, hw.coded hs hin⟩

/-- A coded input that is not empty has a digit (45_bit_packer.md R217). -/
theorem Coded.stream_pos {code : Vector (Option Code) 256} {input : List Byte} (h : Coded code input) (h0 : input ≠ []) :
    0 < (stream code input).length := by
  cases input with
  | nil => exact absurd rfl h0
  | cons b bs =>
    obtain ⟨c, hc, h1, -⟩ := h b List.mem_cons_self
    rw [stream_cons, hc, Option.getD_some, List.length_append]
    omega

/-- The stream of an input of legal length fits 32 bits (45_bit_packer.md R217). -/
theorem Coded.stream_fits {code : Vector (Option Code) 256} {s : State} (h : Coded code s.inputBytes)
    (hl : s.inLen.toNat ≤ s.params.inCap) : (stream code s.inputBytes).length < 2 ^ 32 := by
  have hlen := h.stream_length
  have hcap := s.params.inCapLess1.isLt
  rw [inputBytes_length] at hlen
  unfold Params.inCap at hl
  omega

/-- A completion's `OUT_LEN` is the number of its bytes. -/
theorem CompletedWith.outLen_toNat {lone : Bool} {S : List Bool} {t : State} (h : CompletedWith lone S t)
    (hS : S.length < 2 ^ 32) : t.outLen.toNat = bytesFor S.length := by
  rw [h.outLen, BitVec.toNat_ofNat, Nat.mod_eq_of_lt]
  unfold bytesFor
  omega

/-- A completion with a stream that is not empty and fits meets the relations (10_state.md R23). -/
theorem CompletedWith.relations {lone : Bool} {S : List Bool} {t : State} (h : CompletedWith lone S t)
    (hb : t.busy = false) (hp : t.phase = .idle) (h0 : 0 < S.length) (hS : S.length < 2 ^ 32)
    (hfit : bytesFor S.length ≤ t.params.outCap) : Relations t where
  busy := fun h' => absurd h' (by simp [hb])
  idle := fun _ => hp
  exclusive := fun h' => absurd h'.2 (by simp [h.fail])
  done := fun _ => by
    rw [h.outLen_toNat hS, h.cond]
    refine ⟨?_, ?_, hfit⟩
    · cases lone <;> simp
    · unfold bytesFor; omega
  fail := fun h' => absurd h' (by simp [h.fail])
  rest := fun _ h' _ => absurd h' (by simp [h.done])

/-- `P_PACK` keeps the invariant: it completes with every output byte stored, or fails (45_bit_packer.md R215, R216). -/
theorem Inv.pPack {s t : State} (h : Inv s) (hb : s.busy = true) (h0 : s.inputBytes ≠ [])
    (hc : Coded s.walk.code s.inputBytes) (e : exec .pPack s = .next t) : Inv t := by
  obtain ⟨hd, hf, -⟩ := h.relations.busy hb
  have hS := hc.stream_fits (h.length hb)
  obtain ⟨u, e', hend, -, -, hpack⟩ := exec_pPack_ends hd hf hc hS
  obtain rfl := Host.Outcome.next.inj (e'.symm.trans e)
  obtain ⟨hstored, hparams⟩ : Stored s.params.outCap s.outbuf u.outbuf ∧ u.params = s.params := by
    obtain ⟨p, hp, rfl | rfl⟩ := pPack_cases e <;> exact ⟨hp, rfl⟩
  rcases Nat.lt_or_ge s.params.outCap (bytesFor (stream s.walk.code s.inputBytes).length) with hover | hfit
  · have hfail := hpack.overflows hover
    exact h.finish hend hparams hstored (hfail.relations hend.busy hend.phase (.inr (.inr rfl)))
      fun h' => absurd h' (by simp [hfail.done])
  · have hdone := hpack.fits hfit
    refine h.finish hend hparams hstored
      (hdone.relations hend.busy hend.phase (hc.stream_pos h0) hS (hparams ▸ hfit)) fun _ j hj => ?_
    rw [hdone.outLen_toNat hS] at hj
    obtain ⟨b, hb', -⟩ := hdone.packed.read_eq hdone.packed hj
    simp [hb']

/-- Every core step keeps the invariant. -/
theorem Inv.core {s t : State} {i : Instr} (h : Inv s) (hb : s.busy = true) (hp : PhaseRuns s.phase i)
    (e : exec i s = .next t) : Inv t := by
  have hr := h.ready hb
  unfold PhaseReady at hr
  generalize hph : s.phase = p at hp hr
  cases hp with
  | freq => exact h.pFreq hb e
  | tree => exact h.pTree hb hr e
  | code => exact h.pCode hb hph e
  | pack => exact h.pPack hb hr.1 hr.2 e

/-- Settles O47, over everything a step can do. -/
theorem everyStepKeepsTheInvariant : Obligations.EveryStepKeepsTheInvariant := by
  unfold Obligations.EveryStepKeepsTheInvariant
  intro s t hs h
  have event (rest : List Event) : Inv { s with input := rest } :=
    hs.keep s.herrAcc s.herrBusy s.herrCmd s.rdata rest s.draws s.pq
  cases step_cases h with
  | idle _ e => exact e ▸ event s.input.tail
  | rst rest _ e => exact e ▸ inv_reset s.params rest s.draws (s.epoch + 1)
  | txn hdr addr wdata rest _ e => exact (txn_cases e).inv (event rest)
  | core i hc hp e => exact (event s.input.tail).core hc.1 hp e
  | pq q d op arg rest _ e => exact e ▸ hs.keep s.herrAcc s.herrBusy s.herrCmd s.rdata rest d q

/-- What every step keeps, every run keeps. -/
theorem run_keeps {P : State → Prop} (hstep : ∀ s t, P s → step s = .next t → P t) (n : Nat) {s t : State} (hs : P s)
    (h : run n s = .next t) : P t := by
  induction n generalizing s with
  | zero => exact Host.Outcome.next.inj h ▸ hs
  | succ n ih =>
    rw [run_eq] at h
    split at h
    next u hu => exact ih (hstep s u hs hu) h
    next => cases h
    next => cases h

/-- Settles O49: the invariant holds at reset and every step keeps it. -/
theorem relationsHoldInEveryReachableState : Obligations.RelationsHoldInEveryReachableState := by
  unfold Obligations.RelationsHoldInEveryReachableState
  intro p script n t h
  exact (run_keeps everyStepKeepsTheInvariant n (resetMeetsTheInvariant.2 p script) h).relations

/-! ### What a core step writes -/

/-- What the host owns is in `t` as it is in `s`; and so are the parameters and the model's own `rdata`, `input` and `epoch`
(20_memory.md R78). -/
structure SameHost (s t : State) : Prop where
  inLen : t.inLen = s.inLen
  inbuf : t.inbuf = s.inbuf
  params : t.params = s.params
  rdata : t.rdata = s.rdata
  input : t.input = s.input
  herrBusy : t.herrBusy = s.herrBusy
  herrCmd : t.herrCmd = s.herrCmd
  herrAcc : t.herrAcc = s.herrAcc
  epoch : t.epoch = s.epoch

/-- No phase operation writes what the host owns (20_memory.md R78). -/
theorem exec_phase_sameHost {p : Phase} {i : Instr} {s t : State} (hp : PhaseRuns p i) (h : exec i s = .next t) :
    SameHost s t := by
  cases hp with
  | freq => rw [pFreq_cases h]; exact ⟨rfl, rfl, rfl, rfl, rfl, rfl, rfl, rfl, rfl⟩
  | tree => rcases pTree_cases h with e | e <;> rw [e] <;> exact ⟨rfl, rfl, rfl, rfl, rfl, rfl, rfl, rfl, rfl⟩
  | code => rw [pCode_cases h]; exact ⟨rfl, rfl, rfl, rfl, rfl, rfl, rfl, rfl, rfl⟩
  | pack => obtain ⟨_, -, rfl | rfl⟩ := pPack_cases h <;> exact ⟨rfl, rfl, rfl, rfl, rfl, rfl, rfl, rfl, rfl⟩

/-- Only `P_PACK` writes `OUTBUF`, and it keeps to its capacity (10_state.md R34, 20_memory.md R78). -/
theorem exec_phase_outbuf {p : Phase} {i : Instr} {s t : State} (hp : PhaseRuns p i) (h : exec i s = .next t) :
    t.outbuf = s.outbuf ∨ (p = .pack ∧ Stored s.params.outCap s.outbuf t.outbuf) := by
  cases hp with
  | freq => exact .inl (congrArg State.outbuf (pFreq_cases h) :)
  | tree => rcases pTree_cases h with e | e <;> exact .inl (congrArg State.outbuf e :)
  | code => exact .inl (congrArg State.outbuf (pCode_cases h) :)
  | pack => obtain ⟨_, hs, rfl | rfl⟩ := pPack_cases h <;> exact .inr ⟨rfl, hs⟩

/-- The four phase operations. -/
theorem exists_phaseRuns {i : Instr} (h : i = .pFreq ∨ i = .pTree ∨ i = .pCode ∨ i = .pPack) : ∃ p, PhaseRuns p i := by
  rcases h with rfl | rfl | rfl | rfl
  · exact ⟨_, .freq⟩
  · exact ⟨_, .tree⟩
  · exact ⟨_, .code⟩
  · exact ⟨_, .pack⟩

/-- Settles O39, over everything a phase operation can do. -/
theorem coreKeepsWhatTheHostOwns : Obligations.CoreKeepsWhatTheHostOwns := by
  unfold Obligations.CoreKeepsWhatTheHostOwns
  intro s t i hi h
  obtain ⟨p, hp⟩ := exists_phaseRuns hi
  obtain ⟨inLen, inbuf, params, rdata, input, herrBusy, herrCmd, herrAcc, epoch⟩ := exec_phase_sameHost hp h
  refine ⟨inLen, inbuf, params, rdata, input, herrBusy, herrCmd, herrAcc, epoch, fun hne => ?_⟩
  rcases exec_phase_outbuf hp h with e | ⟨rfl, -⟩
  · exact e
  · cases hp
    exact absurd rfl hne

/-- A phase operation that sets `FAIL` ends in failure entry, with the condition of its phase (60_exceptions.md R226, R232). -/
theorem exec_phase_fails {p : Phase} {i : Instr} {s t : State} (hp : PhaseRuns p i) (h : exec i s = .next t)
    (hs : s.fail = false) (ht : t.fail = true) :
    ∃ (f : Failure) (u : State), t = u.enterFailure f ∧ u.done = s.done ∧
      ((i = .pTree ∧ f = .emptyInput) ∨ (i = .pPack ∧ f = .outOverflow)) := by
  cases hp with
  | freq => exact absurd ((congrArg State.fail (pFreq_cases h)).symm.trans ht) (by simp [hs])
  | tree =>
    rcases pTree_cases h with e | e
    · exact ⟨_, _, e, rfl, .inl ⟨rfl, rfl⟩⟩
    · exact absurd ((congrArg State.fail e).symm.trans ht) (by simp [hs])
  | code => exact absurd ((congrArg State.fail (pCode_cases h)).symm.trans ht) (by simp [hs])
  | pack =>
    obtain ⟨p, -, rfl | rfl⟩ := pPack_cases h
    · exact absurd (hs.symm.trans ht) nofun
    · exact ⟨_, _, rfl, rfl, .inr ⟨rfl, rfl⟩⟩

/-- An idle machine answers an `OUTRD` at or past `OUT_LEN` with an unspecified byte (40_host_interface.md R124). -/
theorem exec_outrd_unspecified {t : State} {addr : Word} (hb : t.busy = false) (ha : addr.toNat < t.params.outCap)
    (ho : t.outLen.toNat ≤ addr.toNat) : exec (.outrd addr) t = .next { t with
      rdata := some ((Config.unspecified8 t.draws).zeroExtend 32), draws := t.draws + 1 } := by
  have hread : t.readOut addr = t.answerUnspecifiedByte := if_neg (Nat.not_lt.2 ho)
  show Host.Outcome.next (t.transact 0b100 addr fun s => s.readOut addr) = _
  rw [State.transact_idle (by simpa using ha) hb, hread]
  rfl

/-- Settles O38: a failure is failure entry, and the host's registers are not the core's to write. -/
theorem failureIsPrecise : Obligations.FailureIsPrecise := by
  unfold Obligations.FailureIsPrecise
  intro s t i hi hs h ht
  obtain ⟨p, hp⟩ := exists_phaseRuns hi
  have host := exec_phase_sameHost hp h
  obtain ⟨f, u, rfl, hdone, hf⟩ := exec_phase_fails hp h hs ht
  refine ⟨hf.imp (And.imp_right fun e => by rw [e]; rfl) (And.imp_right fun e => by rw [e]; rfl), rfl, hdone,
    fun hr hb => hdone.trans (hr.busy hb).1, rfl,
    fun addr ha => exec_outrd_unspecified rfl ha (Nat.zero_le _), rfl, host.inLen, host.inbuf, host.herrBusy,
    host.herrCmd, host.herrAcc⟩

/-! ### What a host transaction writes -/

/-- A host transaction writes `IN_LEN`, or a byte of `INBUF`, or no more than `STATUS`, `OUT_LEN` and its answer. -/
theorem TxnCase.frame {hdr : BitVec 3} {addr wdata : Word} {s t : State} (h : TxnCase hdr addr wdata s t) :
    (s.busy = false ∧ hdr = 1 ∧ addr = 2 ∧ t = { s with inLen := wdata, rdata := none }) ∨
    (s.busy = false ∧ hdr = 3 ∧ addr.toNat < s.params.inCap ∧
      t = { s with inbuf := Memory.write s.inbuf addr.toNat (wdata.extractLsb' 0 8), rdata := none }) ∨
    t = { s with
      busy := t.busy, done := t.done, fail := t.fail, phase := t.phase, cond := t.cond, outLen := t.outLen
      herrAcc := t.herrAcc, herrBusy := t.herrBusy, herrCmd := t.herrCmd, rdata := t.rdata, draws := t.draws } := by
  cases h with
  | flags e _ _ _ => exact .inr (.inr (by rw [e]))
  | inLen hb hh ha e => exact .inl ⟨hb, hh, ha, e⟩
  | inbuf hb hh ha e => exact .inr (.inl ⟨hb, hh, ha, e⟩)
  | start _ _ _ _ e => rcases cmdStart_cases s.noAnswer with ⟨-, e'⟩ | ⟨-, e'⟩ <;> exact .inr (.inr (by rw [e, e']; rfl))
  | clear _ _ _ _ e => exact .inr (.inr (by rw [e]; rfl))

/-- A step takes the next event off the list. -/
theorem step_input {s t : State} (h : step s = .next t) : t.input = s.input.tail := by
  cases step_cases h with
  | idle _ e => exact (congrArg State.input e :)
  | rst rest hi e => exact (congrArg State.input e).trans (congrArg List.tail hi).symm
  | txn hdr addr wdata rest hi e =>
    have hrest : rest = s.input.tail := by rcases hi with hi | ⟨hi, -⟩ <;> rw [hi] <;> rfl
    rcases (txn_cases e).frame with ⟨-, -, -, e'⟩ | ⟨-, -, -, e'⟩ | e' <;> exact (congrArg State.input e').trans hrest
  | core i _ hp e => exact (exec_phase_sameHost hp e).input
  | pq q d op arg rest hi e => exact (congrArg State.input e).trans (congrArg List.tail hi).symm

/-- Settles O41, over everything a step can do: only `rst` and the `REGWR` of index 2 write `IN_LEN`. -/
theorem inLenChangesOnlyByItsWrite : Obligations.InLenChangesOnlyByItsWrite := by
  unfold Obligations.InLenChangesOnlyByItsWrite
  intro s t h hne
  cases step_cases h with
  | idle _ e => exact absurd (congrArg State.inLen e) hne
  | rst rest hi _ => exact .inl ⟨rest, hi⟩
  | txn hdr addr wdata rest hi e =>
    rcases (txn_cases e).frame with ⟨hb, rfl, rfl, e'⟩ | ⟨-, -, -, e'⟩ | e'
    · have hw : t.inLen = wdata := (congrArg State.inLen e' :)
      rcases hi with hi | ⟨-, -, ha⟩
      · exact .inr ⟨hb, rest, hw ▸ hi⟩
      · exact absurd ha (by decide)
    · exact absurd (congrArg State.inLen e') hne
    · exact absurd (congrArg State.inLen e') hne
  | core i _ hp e => exact absurd (exec_phase_sameHost hp e).inLen hne
  | pq q d op arg rest _ e => exact absurd (congrArg State.inLen e) hne

/-- A step over anything but `rst` leaves `INBUF`, or is an `INWR` that writes its byte (10_state.md R33). -/
theorem step_inbuf {s t : State} (h : step s = .next t) (hr : ¬Resets s) : t.inbuf = s.inbuf ∨
    (s.busy = false ∧ ∃ (addr wdata : Word) (rest : List Event), s.input = .txn 0b011 addr wdata :: rest ∧
      addr.toNat < s.params.inCap ∧ t.inbuf = Memory.write s.inbuf addr.toNat (wdata.extractLsb' 0 8)) := by
  cases step_cases h with
  | idle _ e => exact .inl (congrArg State.inbuf e :)
  | rst rest hi _ => exact absurd ⟨rest, hi⟩ hr
  | txn hdr addr wdata rest hi e =>
    rcases (txn_cases e).frame with ⟨-, -, -, e'⟩ | ⟨hb, rfl, ha, e'⟩ | e'
    · exact .inl (congrArg State.inbuf e' :)
    · rcases hi with hi | ⟨-, hh, -⟩
      · exact .inr ⟨hb, addr, wdata, rest, hi, ha, (congrArg State.inbuf e' :)⟩
      · exact absurd hh (by decide)
    · exact .inl (congrArg State.inbuf e' :)
  | core i _ hp e => exact .inl (exec_phase_sameHost hp e).inbuf
  | pq q d op arg rest _ e => exact .inl (congrArg State.inbuf e :)

/-- A step over anything but `rst` leaves `OUTBUF`, or is the core's `P_PACK`, which keeps to the capacity (10_state.md R34). -/
theorem step_outbuf {s t : State} (h : step s = .next t) (hr : ¬Resets s) : t.outbuf = s.outbuf ∨
    (CoreSteps s ∧ s.phase = .pack ∧ Stored s.params.outCap s.outbuf t.outbuf) := by
  cases step_cases h with
  | idle _ e => exact .inl (congrArg State.outbuf e :)
  | rst rest hi _ => exact absurd ⟨rest, hi⟩ hr
  | txn hdr addr wdata rest _ e =>
    rcases (txn_cases e).frame with ⟨-, -, -, e'⟩ | ⟨-, -, -, e'⟩ | e' <;> exact .inl (congrArg State.outbuf e' :)
  | core i hc hp e => exact (exec_phase_outbuf hp e).imp id fun ⟨hpack, hs⟩ => ⟨hc, hpack, hs⟩
  | pq q d op arg rest _ e => exact .inl (congrArg State.outbuf e :)

/-- Settles O45, buffer by buffer. -/
theorem buffersChangeOnlyByTheirWriters : Obligations.BuffersChangeOnlyByTheirWriters := by
  unfold Obligations.BuffersChangeOnlyByTheirWriters
  intro s t h hr
  have hr' : ¬Resets s := fun ⟨rest, hi⟩ => hr rest hi
  constructor
  · rcases step_inbuf h hr' with e | ⟨hb, addr, wdata, rest, hi, ha, e⟩
    · exact .inl fun a => by rw [e]
    · refine .inr ⟨hb, addr, wdata, rest, hi, ha, ?_, fun a hne => ?_⟩ <;> rw [e]
      · exact Memory.read_write_same _ _ _
      · exact Memory.read_write_other hne
  · rcases step_outbuf h hr' with e | ⟨hc, hp, hs⟩
    · exact .inl fun a => by rw [e]
    · exact .inr ⟨hc, hp, hs.past⟩

/-! ### The result of an invocation -/

/-- `t` has the result of `s`: `BUSY`, the result fields and the output bytes. -/
structure SameResult (s t : State) : Prop where
  busy : t.busy = s.busy
  done : t.done = s.done
  fail : t.fail = s.fail
  cond : t.cond = s.cond
  outLen : t.outLen = s.outLen
  outbuf : t.outbuf = s.outbuf
  epoch : t.epoch = s.epoch

theorem SameResult.refl (s : State) : SameResult s s := ⟨rfl, rfl, rfl, rfl, rfl, rfl, rfl⟩

/-- The events to come are no part of the result. -/
theorem sameResult_of_input (s : State) (l : List Event) : SameResult s { s with input := l } :=
  ⟨rfl, rfl, rfl, rfl, rfl, rfl, rfl⟩

theorem SameResult.trans {s t u : State} (h : SameResult s t) (h' : SameResult t u) : SameResult s u :=
  ⟨h'.busy.trans h.busy, h'.done.trans h.done, h'.fail.trans h.fail, h'.cond.trans h.cond, h'.outLen.trans h.outLen,
    h'.outbuf.trans h.outbuf, h'.epoch.trans h.epoch⟩

/-- The core step of phase `p` that led to `t` ended the invocation (40_host_interface.md R132, 60_exceptions.md R232). -/
def EndsAt (p : Phase) (t : State) : Prop :=
  t.busy = false ∧ ((p = .pack ∧ (t.done = true ∨ (t.fail = true ∧ t.cond = .outOverflow))) ∨
    (p = .tree ∧ t.fail = true ∧ t.cond = .emptyInput))

/-- A phase operation leaves the result or ends the invocation. -/
theorem exec_phase_result {p : Phase} {i : Instr} {s t : State} (hp : PhaseRuns p i) (h : exec i s = .next t) :
    SameResult s t ∨ EndsAt p t := by
  cases hp with
  | freq => rw [pFreq_cases h]; exact .inl ⟨rfl, rfl, rfl, rfl, rfl, rfl, rfl⟩
  | tree =>
    rcases pTree_cases h with e | e <;> rw [e]
    · exact .inr ⟨rfl, .inr ⟨rfl, rfl, rfl⟩⟩
    · exact .inl ⟨rfl, rfl, rfl, rfl, rfl, rfl, rfl⟩
  | code => rw [pCode_cases h]; exact .inl ⟨rfl, rfl, rfl, rfl, rfl, rfl, rfl⟩
  | pack =>
    obtain ⟨_, -, rfl | rfl⟩ := pPack_cases h
    · exact .inr ⟨rfl, .inl ⟨rfl, .inl rfl⟩⟩
    · exact .inr ⟨rfl, .inl ⟨rfl, .inr ⟨rfl, rfl⟩⟩⟩

/-- A host transaction leaves the result, or is a performed `START`, or a performed `CLEAR`, which leaves `BUSY`. -/
theorem TxnCase.result {hdr : BitVec 3} {addr wdata : Word} {s t : State} (h : TxnCase hdr addr wdata s t) :
    SameResult s t ∨ (s.busy = false ∧ hdr = 1 ∧ addr = 0 ∧ (wdata = 1 ∨ (wdata = 2 ∧ t.busy = s.busy))) := by
  cases h with
  | flags e _ _ _ => rw [e]; exact .inl ⟨rfl, rfl, rfl, rfl, rfl, rfl, rfl⟩
  | inLen _ _ _ e => rw [e]; exact .inl ⟨rfl, rfl, rfl, rfl, rfl, rfl, rfl⟩
  | inbuf _ _ _ e => rw [e]; exact .inl ⟨rfl, rfl, rfl, rfl, rfl, rfl, rfl⟩
  | start hb hh ha hw _ => exact .inr ⟨hb, hh, ha, .inl hw⟩
  | clear hb hh ha hw e => exact .inr ⟨hb, hh, ha, .inr ⟨hw, (congrArg State.busy e :)⟩⟩

/-- A step leaves the result, or is one of its writers: `rst`, `START`, `CLEAR`, and the core's end of an invocation
(10_state.md R22, R25). -/
theorem step_result {s t : State} (h : step s = .next t) : SameResult s t ∨ Resets s ∨ Commands 1 s ∨
    (Commands 2 s ∧ t.busy = s.busy) ∨ (CoreSteps s ∧ EndsAt s.phase t) := by
  cases step_cases h with
  | idle _ e => rw [e]; exact .inl ⟨rfl, rfl, rfl, rfl, rfl, rfl, rfl⟩
  | rst rest hi _ => exact .inr (.inl ⟨rest, hi⟩)
  | txn hdr addr wdata rest hi e =>
    rcases (txn_cases e).result with hsame | ⟨hb, rfl, rfl, rfl | ⟨rfl, hbusy⟩⟩
    · exact .inl ((sameResult_of_input s _).trans hsame)
    · exact .inr (.inr (.inl ⟨hb, rest, hi.imp_right And.left⟩))
    · exact .inr (.inr (.inr (.inl ⟨⟨hb, rest, hi.imp_right And.left⟩, hbusy⟩)))
  | core i hc hp e =>
    rcases exec_phase_result hp e with hsame | hend
    · exact .inl ((sameResult_of_input s _).trans hsame)
    · exact .inr (.inr (.inr (.inr ⟨hc, hend⟩)))
  | pq q d op arg rest _ e => rw [e]; exact .inl ⟨rfl, rfl, rfl, rfl, rfl, rfl, rfl⟩

/-- Settles O58: a changed field has one of the writers of the result. -/
theorem resultChangesOnlyByItsWriters : Obligations.ResultChangesOnlyByItsWriters := by
  unfold Obligations.ResultChangesOnlyByItsWriters
  intro s t h
  constructor
  · intro hne
    rcases step_result h with hsame | hr | h1 | ⟨-, hb⟩ | hend
    · exact absurd hsame.busy hne
    · exact .inl hr
    · exact .inr (.inl ⟨h1, by simpa [h1.1] using hne⟩)
    · exact absurd hb hne
    · exact .inr (.inr hend)
  · intro hne
    rcases step_result h with hsame | hr | h1 | ⟨h2, -⟩ | hend
    · simp [hsame.done, hsame.fail, hsame.cond, hsame.outLen] at hne
    · exact .inl hr
    · exact .inr (.inl h1)
    · exact .inr (.inr (.inl h2))
    · exact .inr (.inr (.inr hend))

/-- An event that writes no result: neither `rst` nor `START` nor `CLEAR`. -/
def LeavesResult (e : Event) : Prop :=
  e ≠ .rst ∧ e ≠ .txn 0b001 0 1 ∧ e ≠ .cmd 1 ∧ e ≠ .txn 0b001 0 2 ∧ e ≠ .cmd 2

/-- Over such an event an idle machine keeps the result. -/
theorem step_keeps_result {s t : State} {e : Event} {rest : List Event} (hb : s.busy = false) (hi : s.input = e :: rest)
    (he : LeavesResult e) (h : step s = .next t) : SameResult s t := by
  obtain ⟨hrst, hstart, hstart', hclear, hclear'⟩ := he
  rcases step_result h with hsame | ⟨l, hl⟩ | ⟨-, l, hl | hl⟩ | ⟨⟨-, l, hl | hl⟩, -⟩ | ⟨⟨hb', -⟩, -⟩
  · exact hsame
  · exact absurd (List.cons.inj (hi.symm.trans hl)).1 hrst
  · exact absurd (List.cons.inj (hi.symm.trans hl)).1 hstart
  · exact absurd (List.cons.inj (hi.symm.trans hl)).1 hstart'
  · exact absurd (List.cons.inj (hi.symm.trans hl)).1 hclear
  · exact absurd (List.cons.inj (hi.symm.trans hl)).1 hclear'
  · exact absurd (hb.symm.trans hb') nofun

/-- Over a list of such events an idle machine keeps the result. -/
theorem run_keeps_result {xs rest : List Event} {s t : State} (hb : s.busy = false) (hi : s.input = xs ++ rest)
    (hx : ∀ e ∈ xs, LeavesResult e) (h : run xs.length s = .next t) : SameResult s t ∧ t.input = rest := by
  induction xs generalizing s with
  | nil => exact Host.Outcome.next.inj h ▸ ⟨SameResult.refl s, hi⟩
  | cons e xs ih =>
    rw [List.length_cons, run_eq] at h
    split at h
    next u hu =>
      have hsame := step_keeps_result hb hi (hx e List.mem_cons_self) hu
      have hinput : u.input = xs ++ rest := (step_input hu).trans (congrArg List.tail hi)
      obtain ⟨hsame', ht⟩ := ih (hsame.busy.trans hb) hinput (fun e' he' => hx e' (List.mem_cons_of_mem e he')) h
      exact ⟨hsame.trans hsame', ht⟩
    next => cases h
    next => cases h

/-- Settles O59, by induction on the events. -/
theorem finishedResultStays : Obligations.FinishedResultStays := by
  unfold Obligations.FinishedResultStays
  intro xs s t hb hx h
  obtain ⟨hsame, hinput⟩ := run_keeps_result (s := { s with input := xs ++ s.input }) hb rfl hx h
  refine ⟨hsame.busy.trans hb, hsame.done, hsame.fail, hsame.cond, hsame.outLen, fun j => ?_, hinput⟩
  unfold State.outByte
  rw [hsame.outbuf, hsame.epoch]

/-! ### The tree of the frequency table -/

/-- Where the building leaves nodes queued, `P_TREE` takes the root off the queue (43_tree_builder.md R184). -/
theorem exec_pTree_of_build {s : State} {b : Builder} (h : Builder.build s.freq s.arena s.pq = .ok b)
    (h0 : b.pq.hsize.val ≠ 0) : ∃ q : PQueue, q.hsize.val = b.pq.hsize.val - 1 ∧ exec .pTree s =
      .next { s with arena := b.arena, pq := q, root := b.pq.heap[0], rootValid := true, phase := .code } := by
  obtain ⟨q, hq, hsize, -⟩ := PQueue.extract_spec b.arena.key (Config.unspecified9 s.draws) b.pq h0
  refine ⟨q, hsize, ?_⟩
  show execPTree s = _
  unfold execPTree
  simp only [h, hq]

/-- Settles O30: what the building leaves, with the root taken off the queue. -/
theorem treeOfTheFrequencyTable : Obligations.TreeOfTheFrequencyTable := by
  unfold Obligations.TreeOfTheFrequencyTable
  intro s hk hsum
  obtain ⟨b, tree, hb, hone, hnn, hlast, hleaf, hholds, hsize, hsummed, hleaves⟩ :=
    Builder.build_spec s.freq s.arena s.pq hk hsum
  obtain ⟨q, hq, hexec⟩ := exec_pTree_of_build hb (by omega)
  exact ⟨_, tree, hexec, rfl, hnn, hlast, hq.trans (by omega), hleaf, hholds, hsize, hsummed, hleaves⟩

/-- Settles O56: whatever is built is built greedily. -/
theorem treeMergesTheTwoLeast : Obligations.TreeMergesTheTwoLeast := by
  unfold Obligations.TreeMergesTheTwoLeast
  intro s hk hsum
  obtain ⟨b, -, hb, hone, -⟩ := Builder.build_spec s.freq s.arena s.pq hk hsum
  obtain ⟨q, -, hexec⟩ := exec_pTree_of_build hb (by omega)
  have greedy := Greedy.build hb
  refine ⟨_, hexec, fun i hki hi => ?_⟩
  obtain ⟨f, l, r, hnode⟩ := greedy.inner i hki hi
  have h := greedy.merged i f l r hi hnode
  exact ⟨f, l, r, hnode, h.left, h.right, h.distinct, h.leftFree, h.rightFree, h.sum, h.first, h.least⟩

/-! ### Single operations -/

/-- Settles O8, by the three stages of the transaction. -/
theorem inputByteIsWritten : Obligations.InputByteIsWritten := by
  unfold Obligations.InputByteIsWritten
  intro s addr wdata
  have hexec : exec (.inwr addr wdata) s = .next (s.transact 0b011 addr (performed 0b011 addr wdata)) :=
    exec_decodeHeader 0b011 addr wdata s
  refine ⟨rfl, fun ha hb => ?_, fun ha => ?_, fun ha hb => ?_⟩ <;> rw [hexec]
  · rw [State.transact_idle (by simpa using ha) hb]
    exact ⟨_, rfl, rfl, Memory.read_write_same _ _ _, fun a hne => Memory.read_write_other hne⟩
  · rw [State.transact_illegal (by simpa using ha), State.refuseAccess_write rfl]
  · rw [State.transact_busy (by simpa using ha) hb rfl, State.refuseBusy_write rfl]

/-- Settles O23, by the extraction from the empty queue. -/
theorem extractFromTheEmptyQueue : Obligations.ExtractFromTheEmptyQueue := by
  unfold Obligations.ExtractFromTheEmptyQueue
  intro s h
  show execPqExtract s = _
  unfold execPqExtract
  rw [PQueue.extract_empty _ _ _ h]

/-- Settles O34: `P_CODE` looks at `ROOT_VALID` first. -/
theorem noRootIsAFault : Obligations.NoRootIsAFault := by
  unfold Obligations.NoRootIsAFault
  intro s h
  show execPCode s = _
  unfold execPCode
  rw [if_neg (by simp [h])]

/-- Settles O40: `rst` is served whatever the machine does, and leaves the reset values. -/
theorem resetLeavesTheResetValues : Obligations.ResetLeavesTheResetValues := by
  unfold Obligations.ResetLeavesTheResetValues
  intro s rest
  refine ⟨State.assertReset { s with input := rest }, rfl, rfl, rfl, fun u hu => ?_⟩
  have hstatus : State.reset.status = 0 := by decide
  rcases hu with rfl | rfl <;>
    exact ⟨rfl, rfl, rfl, rfl, rfl, rfl, rfl, rfl, rfl, rfl, hstatus, fun a => ⟨rfl, rfl⟩⟩

/-! ### Codes of the words -/

/-- Settles O3, code by code. -/
theorem phaseCodesSelectOperations : Obligations.PhaseCodesSelectOperations := by
  unfold Obligations.PhaseCodesSelectOperations
  refine ⟨⟨rfl, rfl⟩, ⟨rfl, rfl⟩, ⟨rfl, rfl⟩, ⟨rfl, rfl⟩, ⟨rfl, rfl⟩, fun c hc => ?_⟩
  have hcode : c = 5 ∨ c = 6 ∨ c = 7 := by
    revert c
    decide
  constructor
  · rcases hcode with rfl | rfl | rfl <;> rfl
  · intro p hp
    have hlt : p.bits.toNat < 5 := by cases p <;> decide
    rw [hp] at hlt
    omega

/-- `REGRD` of a register answers its value, whatever `BUSY` is (40_host_interface.md R120, R121). -/
theorem exec_regrd {s : State} {addr : Word} (h : addr.toNat < 4) :
    exec (.regrd addr) s = .next { s with rdata := some (s.readReg addr) } := by
  show Host.Outcome.next (s.transact 0b000 addr fun s => s.answer (s.readReg addr)) = _
  rw [State.transact_always (by simpa using h) rfl]
  rfl

/-- The fields of `STATUS` in their places (10_state.md R22). -/
theorem status_fields (s : State) :
    s.status.getLsbD 0 = s.busy ∧ s.status.getLsbD 1 = s.done ∧ s.status.getLsbD 2 = s.fail ∧
      s.status.getLsbD 3 = false ∧ s.status.extractLsb' 4 3 = s.phase.bits ∧ s.status.getLsbD 7 = false ∧
      s.status.extractLsb' 8 4 = s.cond.bits ∧ s.status.getLsbD 12 = s.herrBusy ∧
      s.status.getLsbD 13 = s.herrCmd ∧ s.status.getLsbD 14 = s.herrAcc ∧ s.status.extractLsb' 15 17 = 0 := by
  unfold State.status
  generalize s.phase.bits = phase
  generalize s.cond.bits = cond
  refine ⟨?_, ?_, ?_, ?_, BitVec.eq_of_getLsbD_eq fun i hi => ?_, ?_, BitVec.eq_of_getLsbD_eq fun i hi => ?_, ?_, ?_, ?_,
    BitVec.eq_of_getLsbD_eq fun i hi => ?_⟩
  all_goals simp only [BitVec.getLsbD_extractLsb', BitVec.getLsbD_append, Nat.add_comm 4, Nat.add_comm 8, Nat.add_comm 15]
  all_goals simp [*]

/-- Settles O6, index by index. -/
theorem registerReadAnswers : Obligations.RegisterReadAnswers := by
  unfold Obligations.RegisterReadAnswers
  intro s addr
  refine ⟨fun _ => rfl, ?_, ?_, ?_, ?_, fun h => ?_⟩
  · rintro rfl
    exact exec_regrd (by decide)
  · rintro rfl
    exact ⟨s.status, exec_regrd (by decide), status_fields s⟩
  · rintro rfl
    exact exec_regrd (by decide)
  · rintro rfl
    exact exec_regrd (by decide)
  · show Host.Outcome.next (s.transact 0b000 addr fun s => s.answer (s.readReg addr)) = _
    rw [State.transact_illegal (by simpa using h), State.refuseAccess_read rfl]

/-! ### The record of a code -/

/-- `CBITS` of a valid record (30_encoding.md R102): the digits from bit 254 down, then zeros. -/
theorem codeDump_getLsbD (free : BitVec 263) {d : Code} (hd : d.length ≤ 255) {k : Nat} (hk : k < 255) :
    (codeDump free (some d)).getLsbD k = (decide (255 - d.length ≤ k) && d.getD (254 - k) false) := by
  unfold codeDump
  simp only [BitVec.getLsbD_append]
  rw [if_pos (by omega), if_pos hk, BitVec.getLsbD_shiftLeft, BitVec.getLsbD_setWidth, BitVec.getLsbD_ofBoolListBE]
  by_cases h : 255 - d.length ≤ k
  · have hin : k - (255 - d.length) < d.length := by omega
    have hpos : d.length - 1 - (k - (255 - d.length)) = 254 - k := by omega
    have hlow : k - (255 - d.length) < 255 := by omega
    simp only [hk, h, hin, hpos, hlow, Nat.not_lt.2 h, decide_true, decide_false, Bool.not_false, Bool.true_and]
  · simp only [h, Nat.lt_of_not_le h, decide_true, decide_false, Bool.not_true, Bool.and_false, Bool.false_and]

/-- `CVALID` stands at bit 263 (30_encoding.md R102). -/
theorem codeDump_valid (free : BitVec 263) (d : Code) : (codeDump free (some d)).getLsbD 263 = true := by
  unfold codeDump
  simp only [BitVec.getLsbD_append]
  simp

/-- Bit 263 of an entry with `CVALID = 0` is clear, whatever fills the rest (30_encoding.md R102). -/
theorem codeDump_invalid (free : BitVec 263) : (codeDump free none).getLsbD 263 = false := by
  unfold codeDump
  simp only [BitVec.getLsbD_append]
  simp

/-- `CLEN` stands at bits 262..255 (30_encoding.md R102). -/
theorem codeDump_clen (free : BitVec 263) {d : Code} (hd : d.length ≤ 255) :
    ((codeDump free (some d)).extractLsb' 255 8).toNat = d.length := by
  have h : (codeDump free (some d)).extractLsb' 255 8 = BitVec.ofNat 8 d.length := by
    refine BitVec.eq_of_getLsbD_eq fun i hi => ?_
    unfold codeDump
    simp only [BitVec.getLsbD_extractLsb', BitVec.getLsbD_append, Nat.add_comm _ i]
    simp [hi]
  rw [h, BitVec.toNat_ofNat]
  omega

/-- Digit `j` stands at bit `254 - j` (30_encoding.md R102). -/
theorem codeDump_digit (free : BitVec 263) {d : Code} (hd : d.length ≤ 255) {j : Nat} (hj : j < d.length) :
    (codeDump free (some d)).getLsbD (254 - j) = d[j] := by
  rw [codeDump_getLsbD free hd (by omega), show 254 - (254 - j) = j by omega, List.getD_eq_getElem _ _ hj,
    decide_eq_true (by omega), Bool.true_and]

/-- A record reads back (30_encoding.md R102). -/
theorem codeOfDump_codeDump (free : BitVec 263) {c : Option Code} (hc : ∀ d, c = some d → d.length ≤ 255) :
    codeOfDump (codeDump free c) = c := by
  cases c with
  | none =>
    unfold codeOfDump
    rw [if_neg (by rw [codeDump_invalid]; exact Bool.false_ne_true)]
  | some d =>
    have hd := hc d rfl
    unfold codeOfDump
    rw [if_pos (codeDump_valid free d), codeDump_clen free hd]
    refine congrArg some (List.ext_getElem (by simp [digitsOfDump]) fun j _ hj => ?_)
    simp only [digitsOfDump, List.getElem_map, List.getElem_range, BitVec.getLsbD_extractLsb', Nat.zero_add,
      codeDump_digit free hd hj]
    rw [decide_eq_true (by omega), Bool.true_and]

/-- Settles O55, field by field. -/
theorem codeRecordRoundTrip : Obligations.CodeRecordRoundTrip := by
  unfold Obligations.CodeRecordRoundTrip
  intro free c hc
  refine ⟨codeOfDump_codeDump free hc, fun h => h ▸ codeDump_invalid free, ?_⟩
  rintro d rfl
  have hd := hc d rfl
  refine ⟨codeDump_valid free d, codeDump_clen free hd, fun j hj => codeDump_digit free hd hj, fun k hk => ?_⟩
  rw [codeDump_getLsbD free hd (by omega), decide_eq_false (by omega), Bool.false_and]

end Sys2Proof
end

section
/-! PROOFS. Memory (20_memory.md): what a step runs, the host's transactions while the core runs, and the invocation they
cannot disturb. -/

namespace Sys2Proof

open Sys2Proof.Machine

/-! ### What a step runs (70_reset_and_hazards.md R272) -/

/-- The fetched word is decoded and run whole. -/
theorem step_word {s s' : State} {e : Encoded} {i : Instr} (h : s.fetch = .word e s') (hd : decode e = .ok i) :
    step s = exec i s' := by
  unfold step
  rw [h]
  simp only [hd]

/-- A host transaction runs at any time. -/
theorem step_txn {s : State} {hdr : BitVec 3} {addr wdata : Word} {rest : List Event}
    (hi : s.input = .txn hdr addr wdata :: rest) : step s = exec (decodeHeader hdr addr wdata) { s with input := rest } :=
  step_word (e := .htxn hdr addr wdata) (by unfold State.fetch; rw [hi]) rfl

/-- With `BUSY = 0` the core has no step. -/
theorem coreFetch_idle {s : State} (hb : s.busy = false) : s.coreFetch = .idle s := if_neg (by simp [hb])

/-- Where no agent has a step the state stays. -/
theorem step_idle {s s' : State} (h : s.fetch = .idle s') : step s = .next s' := by
  unfold step
  rw [h]

/-- Settles O4, agent by agent. -/
theorem stepRunsTheDecodedInstruction : Obligations.StepRunsTheDecodedInstruction := by
  unfold Obligations.StepRunsTheDecodedInstruction
  refine ⟨fun _ _ _ _ => step_word, fun _ _ _ _ _ => step_txn rfl, fun s rest hb => ?_, fun s rest hb => ?_,
    fun s hb hi => ?_⟩
  · have run {i : Instr} (hp : PhaseRuns s.phase i) : step { s with input := .core :: rest } = exec i { s with input := rest } :=
      step_core_busy hb rfl hp
    exact ⟨fun h => run (h ▸ .freq), fun h => run (h ▸ .tree), fun h => run (h ▸ .code), fun h => run (h ▸ .pack)⟩
  · exact step_idle (coreFetch_idle hb)
  · refine step_idle ?_
    unfold State.fetch
    rw [hi]
    exact coreFetch_idle hb

/-! ### `OUTRD` -/

/-- Settles O9, by the three stages of the transaction. -/
theorem outputByteIsRead : Obligations.OutputByteIsRead := by
  unfold Obligations.OutputByteIsRead
  intro s addr
  have hexec : exec (.outrd addr) s = .next (s.transact 0b100 addr fun s => s.readOut addr) := rfl
  refine ⟨fun _ => rfl, fun ha hb ho b hread => ?_, fun ha hb ho => exec_outrd_unspecified hb ha ho, fun ha => ?_,
    fun ha hb => ?_⟩
  · have hout : s.readOut addr = s.answer (zextByte b) := by
      unfold State.readOut State.outByte
      rw [if_pos ho, hread, Option.getD_some]
    rw [hexec, State.transact_idle (by simpa using ha) hb, hout]
    rfl
  · rw [hexec, State.transact_illegal (by simpa using ha), State.refuseAccess_read rfl]
  · rw [hexec, State.transact_busy (by simpa using ha) hb rfl, State.refuseBusy_read rfl]

/-! ### Host transactions while the core runs (20_memory.md R72, 60_exceptions.md R240) -/

/-- `t` is `s` but for `HERR_BUSY` and `HERR_ACC`, which only rise, and what the reads answered. -/
structure Undisturbed (s t : State) : Prop where
  frame : t = { s with herrBusy := t.herrBusy, herrAcc := t.herrAcc, rdata := t.rdata, draws := t.draws }
  herrBusy : s.herrBusy = true → t.herrBusy = true
  herrAcc : s.herrAcc = true → t.herrAcc = true

theorem Undisturbed.refl (s : State) : Undisturbed s s := ⟨rfl, id, id⟩

theorem Undisturbed.trans {s t u : State} (h : Undisturbed s t) (h' : Undisturbed t u) : Undisturbed s u := by
  refine ⟨?_, h'.herrBusy ∘ h.herrBusy, h'.herrAcc ∘ h.herrAcc⟩
  have e := h'.frame
  rw [h.frame] at e
  exact e

theorem Undisturbed.busy {s t : State} (h : Undisturbed s t) : t.busy = s.busy := (congrArg State.busy h.frame :)

theorem Undisturbed.input {s t : State} (h : Undisturbed s t) : t.input = s.input := (congrArg State.input h.frame :)

/-- The events to come are no part of the comparison. -/
theorem Undisturbed.withInput {s t : State} (h : Undisturbed s t) (l : List Event) :
    Undisturbed { s with input := l } { t with input := l } :=
  ⟨congrArg (fun t : State => { t with input := l }) h.frame, h.herrBusy, h.herrAcc⟩

/-- While `BUSY = 1` a transaction is refused at one of the two checks, or is a `REGRD`, the one kind stage 2 lets through
(40_host_interface.md R120). -/
theorem transact_undisturbed {s : State} (hb : s.busy = true) (hdr : BitVec 3) (addr wdata : Word) :
    Undisturbed s (s.transact hdr addr (performed hdr addr wdata)) := by
  rcases @State.transact_cases hdr addr (performed hdr addr wdata) s with ⟨-, e⟩ | ⟨-, -, -, e⟩ | ⟨hlegal, hperf, e⟩ <;>
    rw [e]
  · refine ⟨?_, by simp, by simp⟩
    cases hr : isRead hdr
    · rw [State.refuseAccess_write hr]
    · rw [State.refuseAccess_read hr]
  · refine ⟨?_, by simp, by simp⟩
    cases hr : isRead hdr
    · rw [State.refuseBusy_write hr]
    · rw [State.refuseBusy_read hr]
  · have hread : hdr = 0 := by
      rcases header_cases hdr with rfl | rfl | rfl | rfl | rfl | rfl | rfl | rfl <;> simp_all
    subst hread
    exact ⟨rfl, id, id⟩

/-- A busy machine takes every list of transactions undisturbed. -/
theorem run_txns_busy (xs : List (BitVec 3 × Word × Word)) {s : State} {rest : List Event} (hb : s.busy = true)
    (hi : s.input = xs.map txnEvent ++ rest) :
    ∃ t : State, run xs.length s = .next t ∧ Undisturbed { s with input := rest } t := by
  induction xs generalizing s with
  | nil => exact ⟨s, rfl, by rw [← show s.input = rest from hi]; exact .refl s⟩
  | cons x xs ih =>
    have hu := transact_undisturbed (s := { s with input := xs.map txnEvent ++ rest }) hb x.1 x.2.1 x.2.2
    have hstep := (step_txn hi).trans (exec_decodeHeader ..)
    generalize State.transact .. = u at hu hstep
    obtain ⟨t, ht, hut⟩ := ih (hu.busy.trans hb) hu.input
    exact ⟨t, (run_succ hstep).trans ht, (hu.withInput rest).trans hut⟩

/-- Settles O12, by induction on the transactions. -/
theorem hostCannotDisturbAnInvocation : Obligations.HostCannotDisturbAnInvocation := by
  unfold Obligations.HostCannotDisturbAnInvocation
  intro xs s hb
  obtain ⟨t, ht, h⟩ := run_txns_busy xs (s := { s with input := xs.map txnEvent ++ s.input }) hb rfl
  exact ⟨t, ht, h.frame, h.herrBusy, h.herrAcc⟩

/-! ### An invocation with transactions between its core steps -/

/-- `c` is at phase `p` of the invocation that began in `s`, on the way to the code table of `tree`: what the host owns is as
it was, and the tables hold what the phases before `p` leave. -/
structure Serving (s : State) (tree : HuffTree) (p : Phase) (c : State) : Prop where
  busy : c.busy = true
  done : c.done = false
  fail : c.fail = false
  phase : c.phase = p
  params : c.params = s.params
  inLen : c.inLen = s.inLen
  inbuf : c.inbuf = s.inbuf
  epoch : c.epoch = s.epoch
  counts : p = .tree → CountsOf c.freq s.inputBytes
  root : p = .code → c.rootValid = true ∧ Holds c.arena.node c.root tree
  codes : p = .pack → Records c.walk.code tree ∧ c.degen = tree.isLone

/-- A turn of the host, `xs`, and the core's step. -/
def turn (xs : List (BitVec 3 × Word × Word)) (rest : List Event) : List Event := xs.map txnEvent ++ .core :: rest

/-- An interleaving is `START` and four turns. -/
theorem interleaved_eq (s : State) (x₁ x₂ x₃ x₄ : List (BitVec 3 × Word × Word)) : interleaved s x₁ x₂ x₃ x₄ =
    { s with input := .txn 0b001 0 1 :: turn x₁ (turn x₂ (turn x₃ (turn x₄ s.input))) } := by
  simp [interleaved, turn]

/-- The invocation that began in `s` has ended in `t` with the packed stream of the codes of `tree`, or its overflow. -/
structure Delivered (s : State) (tree : HuffTree) (t : State) : Prop where
  busy : t.busy = false
  inLen : t.inLen = s.inLen
  inbuf : t.inbuf = s.inbuf
  codes : Records t.walk.code tree
  packed : PackedWith s.params.outCap tree.isLone (stream t.walk.code s.inputBytes) t

/-- A tree has one code table, so one stream and one outcome. -/
theorem Delivered.sameOutcome {s t u : State} {tree : HuffTree} (ht : Delivered s tree t) (hu : Delivered s tree u) :
    sameOutcome t u :=
  ht.packed.sameOutcome (ht.codes.unique hu.codes ▸ hu.packed)

section
variable {s c d : State} {tree : HuffTree} {p : Phase} {rest : List Event}

/-- The core reads the input the invocation began with. -/
theorem Serving.inputBytes (h : Serving s tree p c) : c.inputBytes = s.inputBytes := by
  unfold State.inputBytes State.inByte
  rw [h.inLen, h.inbuf, h.epoch]

/-- Transactions leave the invocation where it is. -/
theorem Serving.undisturbed (h : Serving s tree p c) (hu : Undisturbed { c with input := rest } d) :
    Serving s tree p d := by
  rw [hu.frame]
  exact ⟨h.busy, h.done, h.fail, h.phase, h.params, h.inLen, h.inbuf, h.epoch, h.counts, h.root, h.codes⟩

/-- An accepted `START` begins the invocation, whatever events follow (40_host_interface.md R128). -/
theorem Serving.start (hb : s.busy = false) (hl : s.inLen.toNat ≤ s.params.inCap) (tree : HuffTree)
    (rest : List Event) : ∃ c, step { s with input := .txn 0b001 0 1 :: rest } = .next c ∧
      Serving s tree .freq c ∧ c.input = rest := by
  refine ⟨{ running .freq 0 s with input := rest }, ?_,
    ⟨rfl, rfl, rfl, rfl, rfl, rfl, rfl, rfl, nofun, nofun, nofun⟩, rfl⟩
  show exec (decodeHeader 1 0 1) { s with input := rest } = _
  rw [exec_decodeHeader]
  exact congrArg _ ((State.transact_idle (s := { s with input := rest }) (by simp) hb).trans (State.cmdStart_legal hl))

/-- `P_FREQ` leaves the table of the input. -/
theorem Serving.pFreq (h : Serving s tree .freq c) : ∃ d, exec .pFreq c = .next d ∧ Serving s tree .tree d := by
  obtain ⟨f, hf, hx⟩ := exec_pFreq_counts c
  exact ⟨_, hx, h.busy, h.done, h.fail, rfl, h.params, h.inLen, h.inbuf, h.epoch, fun _ => h.inputBytes ▸ hf, nofun, nofun⟩

/-- `P_TREE` leaves the tree of the input. -/
theorem Serving.pTree (hbuild : BuildsTree s.inputBytes tree) (h : Serving s tree .tree c) :
    ∃ d, exec .pTree c = .next d ∧ Serving s tree .code d := by
  obtain ⟨a, q, r, hr, hx⟩ := exec_pTree_builds hbuild (h.counts rfl)
  exact ⟨_, hx, h.busy, h.done, h.fail, rfl, h.params, h.inLen, h.inbuf, h.epoch, nofun, fun _ => ⟨rfl, hr⟩, nofun⟩

/-- `P_CODE` leaves the code table of the tree. -/
theorem Serving.pCode (hs : tree.size ≤ 511) (hn : (tree.leaves.map Prod.fst).Nodup) (h : Serving s tree .code c) :
    ∃ d, exec .pCode c = .next d ∧ Serving s tree .pack d := by
  obtain ⟨hvalid, hholds⟩ := h.root rfl
  obtain ⟨w, hw, hx⟩ := exec_pCode_records hvalid hholds hs hn
  exact ⟨_, hx, h.busy, h.done, h.fail, rfl, h.params, h.inLen, h.inbuf, h.epoch, nofun, nofun, fun _ => ⟨hw, rfl⟩⟩

/-- `P_PACK` ends the invocation. -/
theorem Serving.pPack (hl : s.inLen.toNat ≤ s.params.inCap) (hs : tree.size ≤ 511)
    (hin : ∀ b ∈ s.inputBytes, b ∈ tree.leaves.map Prod.fst) (h : Serving s tree .pack c) :
    ∃ d, exec .pPack c = .next d ∧ Delivered s tree d := by
  obtain ⟨hcodes, hdegen⟩ := h.codes rfl
  have hc : Coded c.walk.code s.inputBytes := hcodes.coded hs hin
  have hbits := hc.stream_fits hl
  rw [← h.inputBytes] at hc hbits
  obtain ⟨t, hx, hend, -, hwalk, ht⟩ := exec_pPack_ends h.done h.fail hc hbits
  rw [h.params, hdegen, h.inputBytes, ← hwalk] at ht
  exact ⟨t, hx, hend.busy, hend.inLen.trans h.inLen, hend.inbuf.trans h.inbuf, hwalk ▸ hcodes, ht⟩

/-- A turn leads where its core step leads from every state at phase `p`. -/
theorem Serving.run_turn {xs : List (BitVec 3 × Word × Word)} {i : Instr} {P : State → Prop} (h : Serving s tree p c)
    (hi : c.input = turn xs rest) (hp : PhaseRuns p i)
    (hx : ∀ d, Serving s tree p d → ∃ e, exec i d = .next e ∧ P e) :
    ∃ e, run (xs.length + 1) c = .next e ∧ P e ∧ e.input = rest := by
  obtain ⟨d, hrun, hu⟩ := run_txns_busy xs h.busy hi
  have hd : Serving s tree p d := h.undisturbed hu
  obtain ⟨e, he, hP⟩ := hx { d with input := rest } (hd.undisturbed (.refl _))
  have hstep : step d = .next e :=
    (step_core_busy hd.busy hu.input (hd.phase.symm ▸ hp)).trans he
  exact ⟨e, (run_add hrun).trans (run_succ hstep), hP, (exec_phase_sameHost hp he).input⟩

end

/-- Every interleaving of an invocation of legal length with tree `tree` delivers the stream of the tree's codes. -/
theorem run_interleaved {s : State} {tree : HuffTree} (x₁ x₂ x₃ x₄ : List (BitVec 3 × Word × Word)) (hb : s.busy = false)
    (hl : s.inLen.toNat ≤ s.params.inCap) (hbuild : BuildsTree s.inputBytes tree) (hs : tree.size ≤ 511)
    (hn : (tree.leaves.map Prod.fst).Nodup) (hin : ∀ b ∈ s.inputBytes, b ∈ tree.leaves.map Prod.fst) :
    ∃ u, run (5 + x₁.length + x₂.length + x₃.length + x₄.length) (interleaved s x₁ x₂ x₃ x₄) = .next u ∧
      Delivered s tree u := by
  obtain ⟨c₀, hstart, hc₀, hi₀⟩ := Serving.start hb hl tree (turn x₁ (turn x₂ (turn x₃ (turn x₄ s.input))))
  obtain ⟨c₁, h₁, hc₁, hi₁⟩ := hc₀.run_turn hi₀ .freq fun _ => Serving.pFreq
  obtain ⟨c₂, h₂, hc₂, hi₂⟩ := hc₁.run_turn hi₁ .tree fun _ => Serving.pTree hbuild
  obtain ⟨c₃, h₃, hc₃, hi₃⟩ := hc₂.run_turn hi₂ .code fun _ => Serving.pCode hs hn
  obtain ⟨u, h₄, hu, -⟩ := hc₃.run_turn hi₃ .pack fun _ => Serving.pPack hl hs hin
  refine ⟨u, ?_, hu⟩
  rw [interleaved_eq, show 5 + x₁.length + x₂.length + x₃.length + x₄.length =
    (x₁.length + 1 + (x₂.length + 1 + (x₃.length + 1 + (x₄.length + 1)))) + 1 by omega,
    run_succ hstart, run_add h₁, run_add h₂, run_add h₃, h₄]

/-- Settles O53: the input fixes the tree, and every interleaving, the one without transactions among them, delivers the
stream of its codes. -/
theorem everyInterleavingEndsAlike : Obligations.EveryInterleavingEndsAlike := by
  unfold Obligations.EveryInterleavingEndsAlike
  intro s x₁ x₂ x₃ x₄ hb _ h0 hl
  have hne : s.inputBytes ≠ [] := fun h => h0 (BitVec.eq_of_toNat_eq (by rw [← inputBytes_length, h]; rfl))
  obtain ⟨tree, hbuild, hs, hn, hsyms⟩ := exists_buildsTree hne (by rw [inputBytes_length]; exact s.inLen.isLt)
  have deliver (y₁ y₂ y₃ y₄ : List (BitVec 3 × Word × Word)) :=
    run_interleaved y₁ y₂ y₃ y₄ hb hl hbuild hs hn fun b => (hsyms b).2
  obtain ⟨t, hrun, ht⟩ := deliver [] [] [] []
  obtain ⟨u, hrun', hu⟩ := deliver x₁ x₂ x₃ x₄
  exact ⟨t, u, hrun, hrun', ht.sameOutcome hu, hu.busy, hu.inLen.trans ht.inLen.symm, hu.inbuf.trans ht.inbuf.symm⟩

end Sys2Proof
end

section
/-! PROOFS. Encoding (30_encoding.md): the words and the instructions they stand for, the command words and the queue port,
what `P_PACK` leaves, the result of an invocation, and that the machine goes on. -/

namespace Sys2Proof

open Sys2Proof.Machine

/-! ### Decode and encode (30_encoding.md R91 to R99) -/

/-- The encoder's word decodes back, with every operand. -/
theorem decode_encode {i : Instr} (h : i.wellFormed = true) : decode (encode i) = .ok i := by
  cases i with
  | rsvd3 we addr wdata => cases we <;> rfl
  | pqInsert arg =>
    have harg : argIsNode arg = true := h
    show decodeQueueOp 1 arg = _
    unfold decodeQueueOp
    simp [harg]
  | _ => rfl

/-- A transaction is the encoder's word of the instruction it decodes to, but for the `wdata` of a read (R90, R91). -/
theorem encode_decodeHeader (hdr : BitVec 3) (addr wdata : Word) :
    encode (decodeHeader hdr addr wdata) = .htxn hdr addr wdata ∨
      (hdr.getLsbD 0 = false ∧ encode (decodeHeader hdr addr wdata) = .htxn hdr addr 0) := by
  rcases header_cases hdr with rfl | rfl | rfl | rfl | rfl | rfl | rfl | rfl
  · exact .inr ⟨rfl, rfl⟩
  · exact .inl rfl
  · exact .inr ⟨rfl, rfl⟩
  · exact .inl rfl
  · exact .inr ⟨rfl, rfl⟩
  · exact .inl rfl
  · exact .inl rfl
  · exact .inl rfl

/-- The four kinds of command word (R94, R95). -/
theorem decodeCommand_cases (w : Word) :
    (w = 0 ∧ decodeCommand w = .ok .nop) ∨ (w = 1 ∧ decodeCommand w = .ok .start) ∨
      (w = 2 ∧ decodeCommand w = .ok .clear) ∨ decodeCommand w = .error (.reservedCommand w) := by
  unfold decodeCommand
  split
  next h => exact .inl ⟨h, rfl⟩
  next =>
    split
    next h => exact .inr (.inl ⟨h, rfl⟩)
    next =>
      split
      next h => exact .inr (.inr (.inl ⟨h, rfl⟩))
      next => exact .inr (.inr (.inr rfl))

/-- A command word is the encoder's word of the command it decodes to (R94). -/
theorem encode_of_decodeCommand {w : Word} {i : Instr} (h : decodeCommand w = .ok i) : encode i = .cmd w := by
  rcases decodeCommand_cases w with ⟨rfl, e⟩ | ⟨rfl, e⟩ | ⟨rfl, e⟩ | e <;> cases e.symm.trans h <;> rfl

/-- The decoder answers well-formed instructions alone: `PQ_ARG` is the one operand it checks (R99, R101). -/
theorem wellFormed_of_decode {e : Encoded} {i : Instr} (h : decode e = .ok i) : i.wellFormed = true := by
  cases e with
  | htxn hdr addr wdata =>
    cases h
    rcases header_cases hdr with rfl | rfl | rfl | rfl | rfl | rfl | rfl | rfl <;> rfl
  | cmd w => rcases decodeCommand_cases w with ⟨-, e⟩ | ⟨-, e⟩ | ⟨-, e⟩ | e <;> cases e.symm.trans h <;> rfl
  | phase code =>
    rcases header_cases code with rfl | rfl | rfl | rfl | rfl | rfl | rfl | rfl <;> cases h <;> rfl
  | pqop op arg =>
    have h : decodeQueueOp op arg = .ok i := h
    unfold decodeQueueOp at h
    split_ifs at h with _ _ harg
    · cases h
      exact harg
    · cases h
      rfl

/-- Settles O2: the decoder answers well-formed instructions alone, and those decode back. -/
theorem decodeAndEncodeAgree : Obligations.DecodeAndEncodeAgree := by
  unfold Obligations.DecodeAndEncodeAgree
  refine ⟨fun _ => decode_encode, fun e i h => ?_, fun hdr addr wdata i h => ?_, fun w i h => encode_of_decodeCommand h⟩
  · have hw := wellFormed_of_decode h
    exact ⟨hw, (decode_encode hw).trans h.symm⟩
  · cases h
    exact encode_decodeHeader hdr addr wdata

/-- Settles O1, word by word. -/
theorem decodedWordsOfTheTables : Obligations.DecodedWordsOfTheTables := by
  unfold Obligations.DecodedWordsOfTheTables
  decide

/-! ### Command words (30_encoding.md R95, R112) -/

/-- Every command word but 0, 1 and 2 is rejected by name (R95). -/
theorem decodeCommand_reserved {w : Word} (h0 : w ≠ 0) (h1 : w ≠ 1) (h2 : w ≠ 2) :
    decodeCommand w = .error (.reservedCommand w) := by
  rcases decodeCommand_cases w with ⟨h, -⟩ | ⟨h, -⟩ | ⟨h, -⟩ | h
  · exact absurd h h0
  · exact absurd h h1
  · exact absurd h h2
  · exact h

/-- A word that does not decode is rejected by its name. -/
theorem step_rejected {s s' : State} {e : Encoded} {r : DecodeError} (h : s.fetch = .word e s') (hd : decode e = .error r) :
    step s = s'.rejectWord r := by
  unfold step
  rw [h]
  simp only [hd]

/-- Settles O5, command by command: each of the three is its `REGWR`, and a reserved word is handed to it. -/
theorem commandLineIsItsExpansion : Obligations.CommandLineIsItsExpansion := by
  unfold Obligations.CommandLineIsItsExpansion
  intro s w rest
  rcases decodeCommand_cases w with ⟨rfl, -⟩ | ⟨rfl, -⟩ | ⟨rfl, -⟩ | h
  · rfl
  · rfl
  · rfl
  · have hcmd : step { s with input := .cmd w :: rest } = execRegwr 0 w { s with input := rest } :=
      step_rejected (e := .cmd w) rfl h
    have htxn : step { s with input := .txn 0b001 0 w :: rest } = exec (decodeHeader 0b001 0 w) { s with input := rest } :=
      step_txn rfl
    exact hcmd.trans htxn.symm

/-- Settles O16, by the stages of the `REGWR`: what it performs is the reserved command. -/
theorem reservedCommandsAreRefused : Obligations.ReservedCommandsAreRefused := by
  unfold Obligations.ReservedCommandsAreRefused
  intro s w h0 h1 h2
  have hexec : exec (.regwr 0 w) s = .next (s.transact 0b001 0 fun s => s.noAnswer.command w) := rfl
  refine ⟨decodeCommand_reserved h0 h1 h2, fun hb => ?_, fun hb => ?_⟩ <;> rw [hexec]
  · rw [State.transact_idle (by simp) hb, State.command_reserved h0 h1 h2]
    rfl
  · rw [State.transact_busy (by simp) hb rfl, State.refuseBusy_write rfl]

/-! ### The queue port (30_encoding.md R99, R101) -/

/-- An arena index is read back from its 9 bits. -/
theorem argNode_ofNat (x : Idx) : argNode (BitVec.ofNat 9 x.val) = some x := by
  have hx : (BitVec.ofNat 9 x.val).toNat = x.val := by
    have := x.isLt
    rw [BitVec.toNat_ofNat]
    omega
  unfold argNode
  simp [hx]

/-- Settles O27: the argument is looked at before the queue, and 511 is the one value that is no arena index. -/
theorem insertStopsByName : Obligations.InsertStopsByName := by
  unfold Obligations.InsertStopsByName
  refine ⟨fun s x hfull => ?_, fun s => rfl⟩
  show execPqInsert _ s = _
  unfold execPqInsert
  simp only [argNode_ofNat, PQueue.insert_full _ _ s.pq hfull]

/-! ### The packed stream (30_encoding.md R104 to R107) -/

/-- Settles O35, by what packing leaves where the bytes fit. -/
theorem packedOutputOfTheStream : Obligations.PackedOutputOfTheStream := by
  unfold Obligations.PackedOutputOfTheStream
  intro s hcode hS hfit
  obtain ⟨p, hp, hbits, hacc, hidx, hpacked, -, hrest⟩ :=
    (Packer.pack_spec s.params.outCap s.walk.code s.inputBytes s.outbuf hcode hS).1 hfit
  have hexec : exec .pPack s = .next (s.withPacker p).complete := by
    show execPPack s = _
    unfold execPPack
    rw [hp]
  have hlen : p.bits.toNat = (stream s.walk.code s.inputBytes).length := by
    rw [hbits, BitVec.toNat_ofNat, Nat.mod_eq_of_lt hS]
  have hin : p.idx = s.inLen := by
    rw [hidx, inputBytes_length, BitVec.ofNat_toNat, BitVec.setWidth_eq]
  refine ⟨_, hexec, ?_, hpacked, hrest⟩
  show State.complete { s with bits := p.bits, acc := p.acc, idx := p.idx, outbuf := p.out } = _
  unfold State.complete
  simp only [hlen]
  rw [hbits, hacc, hin]
  rfl

/-! ### The code of an input is prefix-free (44_code_table_builder.md R202) -/

/-- The code table of a tree is prefix-free. -/
theorem Records.prefixFree {code : Vector (Option Code) 256} {tree : HuffTree} (h : Records code tree) :
    PrefixFree code := by
  intro a b hab c d hc hd hcd
  have hc := (h a c).1 hc
  have hd := (h b d).1 hd
  cases tree with
  | leaf sym f =>
    obtain ⟨ha, -⟩ := Prod.mk.inj (List.mem_singleton.1 hc)
    obtain ⟨hb, -⟩ := Prod.mk.inj (List.mem_singleton.1 hd)
    exact hab (ha.trans hb.symm)
  | node f l r => exact hab (HuffTree.codes_prefix hc hd hcd)

/-- A tree is a lone leaf if and only if it has one leaf. -/
theorem HuffTree.isLone_iff (t : HuffTree) : t.isLone = true ↔ t.leaves.length = 1 := by
  cases t with
  | leaf b f => simp [HuffTree.isLone, HuffTree.leaves]
  | node f l r =>
    have hl := l.leaves_pos
    have hr := r.leaves_pos
    simp only [HuffTree.isLone, HuffTree.leaves, List.length_append, Bool.false_eq_true, false_iff]
    omega

/-- `K` is the number of leaves of a tree over the input's symbols (41_frequency_counter.md R153). -/
theorem CountsOf.k_eq_leaves {t : FreqTable} {input : List Byte} {tree : HuffTree} (h : CountsOf t input)
    (hn : (tree.leaves.map Prod.fst).Nodup) (hsyms : ∀ b, b ∈ tree.leaves.map Prod.fst ↔ b ∈ input) :
    t.k.val = tree.leaves.length := by
  have hp : t.symbols.Perm (tree.leaves.map Prod.fst) :=
    (List.perm_ext_iff_of_nodup h.nodup hn).2 fun b => (h.present b).trans (hsyms b).symm
  rw [← t.symbols_length, hp.length_eq, List.length_map]

/-- An input of positive length is not empty. -/
theorem inputBytes_ne_nil {s : State} (h : s.inLen ≠ 0) : s.inputBytes ≠ [] := fun h' =>
  h (BitVec.eq_of_toNat_eq (by rw [← inputBytes_length, h']; rfl))

/-- Settles O50: an illegal length fails at `START`, an empty input in `P_TREE`, and any other input has a tree whose codes
`P_PACK` packs. -/
theorem resultOfAnInvocation : Obligations.ResultOfAnInvocation := by
  unfold Obligations.ResultOfAnInvocation
  intro s hb hp
  rcases Nat.lt_or_ge s.params.inCap s.inLen.toNat with hbad | hlegal
  · obtain ⟨t, hrun, hend, hfail⟩ := run_launch_illegal hb hp hbad
    exact ⟨t, hrun, hend.busy, hend.phase, hend.input, hend.inLen, hend.inbuf,
      fun _ => ⟨hfail.done, hfail.fail, hfail.cond, hfail.outLen⟩, fun h0 => absurd hbad (by simp [h0]),
      fun _ hl => absurd hbad (Nat.not_lt.2 hl)⟩
  have legal {q : Prop} (h : s.params.inCap < s.inLen.toNat) : q := absurd hlegal (Nat.not_le.2 h)
  by_cases h0 : s.inLen = 0
  · obtain ⟨t, hrun, hend, hfail⟩ := run_launch_empty hb h0
    exact ⟨t, hrun, hend.busy, hend.phase, hend.input, hend.inLen, hend.inbuf, legal,
      fun _ => ⟨hfail.done, hfail.fail, hfail.cond, hfail.outLen⟩, fun h => absurd h0 h⟩
  · obtain ⟨tree, hbuild, hs, hn, hsyms⟩ :=
      exists_buildsTree (inputBytes_ne_nil h0) (by rw [inputBytes_length]; exact s.inLen.isLt)
    have hin : ∀ b ∈ s.inputBytes, b ∈ tree.leaves.map Prod.fst := fun b => (hsyms b).2
    obtain ⟨t, hrun, hend, hcounts, hcodes, hpack⟩ := run_launch_packs hb hlegal hbuild hs hn hin
    have hcoded : Coded t.walk.code s.inputBytes := hcodes.coded hs hin
    have hlone : tree.isLone = true ↔ t.freq.k.val = 1 := by rw [tree.isLone_iff, hcounts.k_eq_leaves hn hsyms]
    refine ⟨t, hrun, hend.busy, hend.phase, hend.input, hend.inLen, hend.inbuf, legal, fun h => absurd h h0,
      fun _ _ => ⟨hcoded, hcodes.prefixFree, fun hfit => ?_, fun hover => ?_⟩⟩
    · have h := hpack.fits hfit
      exact ⟨h.done, h.fail, h.cond.trans (if_congr hlone rfl rfl), h.outLen_toNat (hcoded.stream_fits hlegal), h.packed⟩
    · have h := hpack.overflows hover
      exact ⟨h.done, h.fail, h.cond, h.outLen⟩

/-! ### The machine goes on (60_exceptions.md R231, 70_reset_and_hazards.md R273) -/

/-- With no event to come the core has its step, as at the event `CORE` (log 1). -/
theorem step_nil {s : State} (h : s.input = []) : step s = step { s with input := [.core] } := by
  have e : ({ s with input := [] } : State) = s := by rw [← h]
  have hfetch : s.fetch = State.fetch { s with input := [.core] } := by
    show s.fetch = State.coreFetch { s with input := [] }
    rw [e]
    unfold State.fetch
    rw [h]
  unfold step
  rw [hfetch]

/-- Every phase but `IDLE` names an operation (10_state.md R27). -/
theorem exists_phaseRuns_of_ne_idle {p : Phase} (h : p ≠ .idle) : ∃ i, PhaseRuns p i := by
  cases p with
  | idle => exact absurd rfl h
  | freq => exact ⟨_, .freq⟩
  | tree => exact ⟨_, .tree⟩
  | code => exact ⟨_, .code⟩
  | pack => exact ⟨_, .pack⟩

/-- Under the invariant every phase operation runs to its end: it finds what it needs in the tables. -/
theorem Inv.exec_phase {s : State} {i : Instr} (h : Inv s) (hb : s.busy = true) (hp : PhaseRuns s.phase i) :
    ∃ t, exec i s = .next t := by
  have hr := h.ready hb
  unfold PhaseReady at hr
  generalize s.phase = p at hp hr
  cases hp with
  | freq => exact ⟨_, rfl⟩
  | tree =>
    have hc : CountsOf s.freq s.inputBytes := hr
    by_cases h0 : s.inputBytes = []
    · exact ⟨_, exec_pTree_empty (hc.k_zero h0)⟩
    · obtain ⟨tree, hbuild, -⟩ := exists_buildsTree h0 (by rw [inputBytes_length]; exact s.inLen.isLt)
      obtain ⟨a, q, r, -, e⟩ := exec_pTree_builds hbuild hc
      exact ⟨_, e⟩
  | code =>
    obtain ⟨hv, -, tree, hh, hs, hn, -⟩ := hr
    obtain ⟨w, -, e⟩ := exec_pCode_records hv hh hs hn
    exact ⟨_, e⟩
  | pack =>
    obtain ⟨-, hc⟩ := hr
    obtain ⟨hd, hf, -⟩ := h.relations.busy hb
    obtain ⟨t, e, -⟩ := exec_pPack_ends hd hf hc (hc.stream_fits (h.length hb))
    exact ⟨t, e⟩

/-- The event `CORE` stops no machine that meets the invariant: an idle core has no step, and a busy one runs its phase. -/
theorem Inv.step_core {s : State} {rest : List Event} (h : Inv s) :
    ∃ t, step { s with input := .core :: rest } = .next t := by
  by_cases hb : s.busy = true
  · have he : Inv { s with input := rest } := h.keep s.herrAcc s.herrBusy s.herrCmd s.rdata rest s.draws s.pq
    obtain ⟨-, -, -, -, hp⟩ := h.relations.busy hb
    obtain ⟨i, hi⟩ := exists_phaseRuns_of_ne_idle hp
    obtain ⟨t, ht⟩ := he.exec_phase hb hi
    exact ⟨t, (step_core_busy (s := { s with input := .core :: rest }) hb rfl hi).trans ht⟩
  · exact ⟨_, step_idle (coreFetch_idle (by simpa using hb))⟩

/-- Settles O48, event by event: a transaction answers or is refused with a flag, `rst` is served, and the core's step finds
what the invariant says. -/
theorem theMachineNeverStops : Obligations.TheMachineNeverStops := by
  unfold Obligations.TheMachineNeverStops
  intro s hs hq
  have txn (hdr : BitVec 3) (addr wdata : Word) (rest : List Event) :
      ∃ t, step { s with input := .txn hdr addr wdata :: rest } = .next t :=
    ⟨_, (step_txn rfl).trans (exec_decodeHeader ..)⟩
  cases hi : s.input with
  | nil => exact step_nil hi ▸ hs.step_core
  | cons e rest =>
    have hself : s = { s with input := e :: rest } := by rw [← hi]
    rw [hself]
    cases e with
    | txn hdr addr wdata => exact txn hdr addr wdata rest
    | cmd w => exact commandLineIsItsExpansion s w rest ▸ txn 0b001 0 w rest
    | pq op arg => exact absurd hi (hq op arg rest)
    | core => exact hs.step_core
    | rst => exact ⟨_, rfl⟩

end Sys2Proof
end

section
/-! PROOFS. The host interface (40_host_interface.md): the sticky flags after a transaction, what makes one fall, and what each
refusal and each command does. -/

namespace Sys2Proof

open Sys2Proof.Machine

/-! ### The sticky flags after a transaction (40_host_interface.md R120, 60_exceptions.md R236) -/

/-- Stage 1 refuses the illegal transactions (R120, R125). -/
theorem accessIllegal_iff (p : Params) (hdr : BitVec 3) (addr : Word) : accessIllegal p hdr addr = true ↔
    hdr = 0b010 ∨ hdr = 0b101 ∨ hdr = 0b110 ∨ hdr = 0b111 ∨
      ((hdr = 0b000 ∨ hdr = 0b001) ∧ 4 ≤ addr.toNat) ∨ (hdr = 0b001 ∧ (addr = 1 ∨ addr = 3)) ∨
      (hdr = 0b011 ∧ p.inCap ≤ addr.toNat) ∨ (hdr = 0b100 ∧ p.outCap ≤ addr.toNat) := by
  simp [accessIllegal, or_assoc]

/-- Stage 2 refuses register writes, `INBUF` writes and `OUTBUF` reads. -/
theorem refusedWhileBusy_iff (hdr : BitVec 3) :
    refusedWhileBusy hdr = true ↔ hdr = 0b001 ∨ hdr = 0b011 ∨ hdr = 0b100 := by
  simp [refusedWhileBusy, or_assoc]

/-- The flags of `t`, reached from `s`: `acc`, `busy` and `cmd` say which of them rise, `clear` whether the old ones are
cleared. -/
structure FlagsAfter (acc busy cmd clear : Prop) (s t : State) : Prop where
  herrAcc : t.herrAcc = true ↔ acc ∨ (s.herrAcc = true ∧ ¬clear)
  herrBusy : t.herrBusy = true ↔ busy ∨ (s.herrBusy = true ∧ ¬clear)
  herrCmd : t.herrCmd = true ↔ cmd ∨ (s.herrCmd = true ∧ ¬clear)

/-- Where no flag rises and none is cleared, they stay. -/
theorem FlagsAfter.of_same {acc busy cmd clear : Prop} {s t : State} (ha : ¬acc) (hb : ¬busy) (hc : ¬cmd) (hclear : ¬clear)
    (hacc : t.herrAcc = s.herrAcc) (hbusy : t.herrBusy = s.herrBusy) (hcmd : t.herrCmd = s.herrCmd) :
    FlagsAfter acc busy cmd clear s t := by
  constructor <;> simp [*]

/-- The four conditions count up to equivalence. -/
theorem FlagsAfter.congr {acc busy cmd clear acc' busy' cmd' clear' : Prop} {s t : State}
    (h : FlagsAfter acc busy cmd clear s t) (ha : acc ↔ acc') (hb : busy ↔ busy') (hc : cmd ↔ cmd')
    (hclear : clear ↔ clear') : FlagsAfter acc' busy' cmd' clear' s t := by
  rwa [← ha, ← hb, ← hc, ← hclear]

/-- A performed command clears the flags if it is `CLEAR`, and sets `HERR_CMD` if it is reserved (R127 to R130). -/
theorem command_flags (w : Word) (s : State) : FlagsAfter False False (3 ≤ w.toNat) (w = 2) s (s.command w) := by
  rcases State.command_cases w s with ⟨rfl, e⟩ | ⟨rfl, e⟩ | ⟨rfl, e⟩ | ⟨h0, h1, h2, e⟩ <;> rw [e]
  · exact .of_same id id (by decide) (by decide) rfl rfl rfl
  · rcases cmdStart_cases s with ⟨-, e⟩ | ⟨-, e⟩ <;> rw [e] <;>
      exact .of_same id id (by decide) (by decide) rfl rfl rfl
  · constructor <;> simp
  · have h3 : 3 ≤ w.toNat := by bv_omega
    constructor <;> simp [h2, h3]

/-- A performed transaction that is no command leaves the flags. -/
theorem performed_flags_same {hdr : BitVec 3} {addr : Word} (h : ¬(hdr = 1 ∧ addr = 0)) (wdata : Word) (s : State) :
    FlagsAfter False False False False s (performed hdr addr wdata s) := by
  rcases header_cases hdr with rfl | rfl | rfl | rfl | rfl | rfl | rfl | rfl
  case inr.inl =>
    have e : performed 1 addr wdata s = { s with inLen := wdata, rdata := none } := if_neg fun ha => h ⟨rfl, ha⟩
    exact e ▸ .of_same id id id id rfl rfl rfl
  case inr.inr.inr.inr.inl =>
    show FlagsAfter _ _ _ _ s (s.readOut addr)
    unfold State.readOut
    split <;> exact .of_same id id id id rfl rfl rfl
  all_goals exact .of_same id id id id rfl rfl rfl

/-- The flags after a transaction: one rises at the stage that refuses, or `HERR_CMD` at a reserved command word, and a
performed `CLEAR` clears them. -/
theorem transact_flags (s : State) (hdr : BitVec 3) (addr wdata : Word) :
    let illegal : Prop := accessIllegal s.params hdr addr = true
    let command : Prop := ¬illegal ∧ s.busy = false ∧ hdr = 1 ∧ addr = 0
    FlagsAfter illegal (¬illegal ∧ s.busy = true ∧ refusedWhileBusy hdr = true) (command ∧ 3 ≤ wdata.toNat)
      (command ∧ wdata = 2) s (s.transact hdr addr (performed hdr addr wdata)) := by
  rcases @State.transact_cases hdr addr (performed hdr addr wdata) s with ⟨hi, e⟩ | ⟨hi, hb, hr, e⟩ | ⟨hi, hp, e⟩ <;>
    rw [e]
  · constructor <;> simp [hi]
  · constructor <;> simp [hi, hb, hr]
  · have hacc : False ↔ accessIllegal s.params hdr addr = true := by simp [hi]
    have hbusy : False ↔ accessIllegal s.params hdr addr ≠ true ∧ s.busy = true ∧ refusedWhileBusy hdr = true := by
      rcases hp with h | h <;> simp [h]
    by_cases hc : hdr = 1 ∧ addr = 0
    · obtain ⟨rfl, rfl⟩ := hc
      have hb : s.busy = false := by simpa using hp
      have h := command_flags wdata s.noAnswer
      exact FlagsAfter.congr ⟨h.herrAcc, h.herrBusy, h.herrCmd⟩ hacc hbusy (by simp [hb]) (by simp [hb])
    · exact (performed_flags_same hc wdata s).congr hacc hbusy (by tauto) (by tauto)

/-- A refused transaction changes nothing but a flag and the answer. -/
theorem transact_refused_frame {s : State} {hdr : BitVec 3} {addr : Word} {perform : State → State}
    (h : accessIllegal s.params hdr addr = true ∨ (s.busy = true ∧ refusedWhileBusy hdr = true)) :
    let t := s.transact hdr addr perform
    t = { s with herrAcc := t.herrAcc, herrBusy := t.herrBusy, rdata := t.rdata, draws := t.draws } := by
  intro t
  rcases @State.transact_cases hdr addr perform s with ⟨-, e⟩ | ⟨-, -, -, e⟩ | ⟨hi, hp, -⟩
  · cases hr : isRead hdr
    · rw [show t = _ from e.trans (State.refuseAccess_write hr)]
    · rw [show t = _ from e.trans (State.refuseAccess_read hr)]
  · cases hr : isRead hdr
    · rw [show t = _ from e.trans (State.refuseBusy_write hr)]
    · rw [show t = _ from e.trans (State.refuseBusy_read hr)]
  · rcases hp with hp | hp <;> simp [hi, hp] at h

/-- Settles O11, stage by stage. -/
theorem oneFlagPerRefusedTransaction : Obligations.OneFlagPerRefusedTransaction := by
  unfold Obligations.OneFlagPerRefusedTransaction
  intro s t hdr addr wdata h illegal busyRefused command
  rw [exec_decodeHeader] at h
  cases h
  have hflags := transact_flags s hdr addr wdata
  simp only [accessIllegal_iff, refusedWhileBusy_iff] at hflags
  refine ⟨hflags.herrAcc, hflags.herrBusy, hflags.herrCmd, fun hrefused => transact_refused_frame ?_⟩
  rw [accessIllegal_iff, refusedWhileBusy_iff]
  exact hrefused.imp_right And.right

/-! ### What makes a sticky flag fall (40_host_interface.md R129, 60_exceptions.md R236) -/

/-- Every flag of `s` stands in `t`. -/
structure FlagsStand (s t : State) : Prop where
  herrBusy : s.herrBusy = true → t.herrBusy = true
  herrCmd : s.herrCmd = true → t.herrCmd = true
  herrAcc : s.herrAcc = true → t.herrAcc = true

/-- A host transaction leaves the flags standing, or is a performed `CLEAR`. -/
theorem TxnCase.flagsStand {hdr : BitVec 3} {addr wdata : Word} {s t : State} (h : TxnCase hdr addr wdata s t) :
    FlagsStand s t ∨ (s.busy = false ∧ hdr = 1 ∧ addr = 0 ∧ wdata = 2) := by
  cases h with
  | flags _ hacc hbusy hcmd => exact .inl ⟨hbusy, hcmd, hacc⟩
  | inLen _ _ _ e => exact .inl (e ▸ ⟨id, id, id⟩)
  | inbuf _ _ _ e => exact .inl (e ▸ ⟨id, id, id⟩)
  | start _ _ _ _ e =>
    rcases cmdStart_cases s.noAnswer with ⟨-, e'⟩ | ⟨-, e'⟩ <;> exact .inl (e.trans e' ▸ ⟨id, id, id⟩)
  | clear hb hh ha hw _ => exact .inr ⟨hb, hh, ha, hw⟩

/-- A step leaves the flags standing, or is `rst`, or a performed `CLEAR`. -/
theorem step_flagsStand {s t : State} (h : step s = .next t) : FlagsStand s t ∨ Resets s ∨ Commands 2 s := by
  cases step_cases h with
  | idle _ e => exact .inl (e ▸ ⟨id, id, id⟩)
  | rst rest hi _ => exact .inr (.inl ⟨rest, hi⟩)
  | txn hdr addr wdata rest hi e =>
    rcases (txn_cases e).flagsStand with hstand | ⟨hb, rfl, rfl, rfl⟩
    · exact .inl ⟨hstand.herrBusy, hstand.herrCmd, hstand.herrAcc⟩
    · exact .inr (.inr ⟨hb, rest, hi.imp_right And.left⟩)
  | core i _ hp e =>
    have host := exec_phase_sameHost hp e
    exact .inl ⟨host.herrBusy.trans, host.herrCmd.trans, host.herrAcc.trans⟩
  | pq q d op arg rest _ e => exact .inl (e ▸ ⟨id, id, id⟩)

/-- Settles O42: a flag that falls does not stand. -/
theorem stickyFlagsFallOnlyByClearOrReset : Obligations.StickyFlagsFallOnlyByClearOrReset := by
  unfold Obligations.StickyFlagsFallOnlyByClearOrReset
  intro s t h hfalls
  rcases step_flagsStand h with hstand | hr | hc
  · rcases hfalls with ⟨h1, h0⟩ | ⟨h1, h0⟩ | ⟨h1, h0⟩
    · exact absurd (hstand.herrBusy h1) (by simp [h0])
    · exact absurd (hstand.herrCmd h1) (by simp [h0])
    · exact absurd (hstand.herrAcc h1) (by simp [h0])
  · exact .inl hr
  · exact .inr hc

/-! ### Illegal transactions (40_host_interface.md R125) -/

/-- Settles O10, header by header: stage 1 refuses each, whatever `BUSY` is. -/
theorem illegalTransactionsSetOneFlag : Obligations.IllegalTransactionsSetOneFlag := by
  unfold Obligations.IllegalTransactionsSetOneFlag
  intro s addr wdata
  have refused (hdr : BitVec 3) (h : accessIllegal s.params hdr addr = true) :
      exec (decodeHeader hdr addr wdata) s = .next (s.refuseAccess hdr) := by
    rw [exec_decodeHeader, State.transact_illegal h]
  refine ⟨rfl, rfl, rfl, rfl, ?_, ?_, ?_, ?_⟩
  · exact (refused 0b010 (by simp)).trans (congrArg _ (State.refuseAccess_read rfl))
  · exact (refused 0b101 (by simp)).trans (congrArg _ (State.refuseAccess_write rfl))
  · exact (refused 0b110 (by simp)).trans (congrArg _ (State.refuseAccess_read rfl))
  · exact (refused 0b111 (by simp)).trans (congrArg _ (State.refuseAccess_write rfl))

/-! ### Register writes and commands (40_host_interface.md R122, R126 to R129) -/

section
variable {s : State} {addr : Word} {perform : State → State}

/-- `CMD` and `IN_LEN` are the registers stage 1 lets be written (R122). -/
theorem accessIllegal_regwr_writable (p : Params) (h : addr = 0 ∨ addr = 2) : accessIllegal p 0b001 addr = false := by
  rcases h with rfl | rfl <;> simp

/-- A register write is refused at stage 2 while `BUSY = 1`. -/
theorem transact_regwr_busy (hb : s.busy = true) (h : addr = 0 ∨ addr = 2) :
    s.transact 0b001 addr perform = { s with herrBusy := true, rdata := none } := by
  rw [State.transact_busy (accessIllegal_regwr_writable _ h) hb rfl, State.refuseBusy_write rfl]

/-- A register write is performed while `BUSY = 0`. -/
theorem transact_regwr_idle (hb : s.busy = false) (h : addr = 0 ∨ addr = 2) :
    s.transact 0b001 addr perform = perform s :=
  State.transact_idle (accessIllegal_regwr_writable _ h) hb

end

/-- Settles O13: what the `REGWR` of `NOP` performs is nothing. -/
theorem nopHasNoEffect : Obligations.NopHasNoEffect := by
  unfold Obligations.NopHasNoEffect
  exact ⟨rfl, fun s => ⟨fun hb => congrArg _ (transact_regwr_idle hb (.inl rfl)),
    fun hb => congrArg _ (transact_regwr_busy hb (.inl rfl))⟩⟩

/-- Settles O14, by the two results of `START`. -/
theorem startBeginsAnInvocation : Obligations.StartBeginsAnInvocation := by
  unfold Obligations.StartBeginsAnInvocation
  refine ⟨rfl, fun s => ⟨fun hb hl => ?_, fun hb hl => ?_, fun hb => congrArg _ (transact_regwr_busy hb (.inl rfl))⟩⟩
  · exact congrArg _ ((transact_regwr_idle hb (.inl rfl)).trans (State.cmdStart_legal (s := s.noAnswer) hl))
  · exact congrArg _ ((transact_regwr_idle hb (.inl rfl)).trans (State.cmdStart_illegal (s := s.noAnswer) hl))

/-- Settles O15: what the `REGWR` of `CLEAR` performs. -/
theorem clearAcknowledges : Obligations.ClearAcknowledges := by
  unfold Obligations.ClearAcknowledges
  exact ⟨rfl, fun s => ⟨fun hb => congrArg _ (transact_regwr_idle hb (.inl rfl)),
    fun hb => congrArg _ (transact_regwr_busy hb (.inl rfl))⟩⟩

/-- Settles O7, by the stages of the `REGWR`: stage 1 refuses the other indices, stage 2 a busy machine, and what is performed
is the command or the store. -/
theorem registerWriteStoresOrCommands : Obligations.RegisterWriteStoresOrCommands := by
  unfold Obligations.RegisterWriteStoresOrCommands
  intro s addr wdata
  refine ⟨rfl, ?_, ?_, ?_, ?_, ?_, fun h => ?_, fun hb h => congrArg _ (transact_regwr_busy hb h)⟩
  · rintro hb rfl
    exact congrArg _ (transact_regwr_idle hb (.inr rfl))
  · rintro rfl rfl
    rfl
  · rintro rfl rfl
    rfl
  · rintro rfl rfl
    rfl
  · rintro hb rfl h3
    obtain ⟨-, hidle, -⟩ := reservedCommandsAreRefused s wdata (by bv_omega) (by bv_omega) (by bv_omega)
    exact hidle hb
  · have hi : accessIllegal s.params 1#3 addr = true := by
      rw [accessIllegal_regwr]
      exact decide_eq_true (by tauto)
    exact congrArg _ ((State.transact_illegal hi).trans (State.refuseAccess_write rfl))

end Sys2Proof
end

section
/-! PROOFS. The frequency counter (41_frequency_counter.md): what `P_FREQ` leaves and the bounds of its table. -/

namespace Sys2Proof

open Sys2Proof.Machine

/-- What `P_FREQ` leaves is the table of the input (R153). -/
theorem pFreq_countsOf {s t : State} (h : exec .pFreq s = .next t) : CountsOf t.freq s.inputBytes := by
  obtain ⟨f, hf, hx⟩ := exec_pFreq_counts s
  obtain rfl := Host.Outcome.next.inj (hx.symm.trans h)
  exact hf

theorem symIndex_injective : Function.Injective symIndex :=
  fun _ _ h => symIndex_inj (congrArg Fin.val h)

/-- A list of bytes is as long as its bytes' numbers of occurrences add up to. -/
theorem sum_count_ofFin (l : List Byte) :
    ((List.finRange 256).map fun i : Fin 256 => l.count (BitVec.ofFin i)).sum = l.length := by
  have hcount : ∀ i : Fin 256, l.count (BitVec.ofFin i) = Multiset.count i (l.map symIndex) := fun i =>
    ((Multiset.coe_count i _).trans (List.count_map_of_injective l symIndex symIndex_injective (BitVec.ofFin i))).symm
  simp only [hcount]
  rw [← Fin.sum_univ_def, Multiset.sum_count_eq_card fun i _ => Finset.mem_univ i, Multiset.coe_card, List.length_map]

/-- The 256 entries add up to the number of bytes counted: each byte is counted in one of them (R154). -/
theorem CountsOf.sum_entries {t : FreqTable} {l : List Byte} (h : CountsOf t l) :
    ((List.finRange 256).map fun i => (t.cnt[i.val]).toNat).sum = l.length :=
  (congrArg List.sum (List.map_congr_left fun i _ => h.cnt (BitVec.ofFin i))).trans (sum_count_ofFin l)

/-- There are no more symbols than bytes counted (R154). -/
theorem CountsOf.k_le_length {t : FreqTable} {l : List Byte} (h : CountsOf t l) : t.k.val ≤ l.length := by
  rw [← t.symbols_length]
  exact (h.nodup.subperm fun b hb => (h.present b).1 hb).length_le

/-- There is no symbol exactly if nothing was counted (R155). -/
theorem CountsOf.k_eq_zero_iff {t : FreqTable} {l : List Byte} (h : CountsOf t l) : t.k.val = 0 ↔ l = [] :=
  ⟨fun hk => by_contra fun hl => absurd (h.k_pos hl) (by omega), h.k_zero⟩

theorem inputBytes_eq_nil_iff (s : State) : s.inputBytes = [] ↔ s.inLen = 0 := by
  rw [← List.length_eq_zero_iff, inputBytes_length]
  exact BitVec.toNat_inj (y := 0)

theorem Params.inCap_le (p : Params) : p.inCap ≤ 2 ^ 24 := p.inCapLess1.isLt

/-- Settles O17: the scan leaves the table of the input, and there are `K` symbols in it. -/
theorem frequencyTableOfTheInput : Obligations.FrequencyTableOfTheInput := by
  unfold Obligations.FrequencyTableOfTheInput
  intro s
  obtain ⟨f, hf, hx⟩ := exec_pFreq_counts s
  exact ⟨_, hx, rfl, hf.cnt, hf.present, hf.order, f.symbols_length⟩

/-- Settles O18: the bounds of the table of the input, whose length is `IN_LEN`. -/
theorem countsSumToTheLength : Obligations.CountsSumToTheLength := by
  unfold Obligations.CountsSumToTheLength
  intro s t h
  have hf := pFreq_countsOf h
  rw [← inputBytes_length, ← inputBytes_eq_nil_iff]
  refine ⟨fun b => ?_, fun hl => hl.trans s.params.inCap_le, hf.sum_entries,
    Nat.le_min.2 ⟨hf.k_le_length, Nat.lt_succ_iff.1 t.freq.k.isLt⟩, hf.k_eq_zero_iff⟩
  rw [hf.cnt b]
  exact List.count_le_length

/-- Settles O19: both tables are the table of the one input, `K` the number of its symbols. -/
theorem countingIsIdempotent : Obligations.CountingIsIdempotent := by
  unfold Obligations.CountingIsIdempotent
  intro s₁ s₂ t₁ t₂ hin h₁ h₂
  obtain ⟨hcnt, hsymbols⟩ := (pFreq_countsOf h₁).unique (hin ▸ pFreq_countsOf h₂)
  have hk : t₁.freq.k.val = t₂.freq.k.val := by
    rw [← t₁.freq.symbols_length, hsymbols, t₂.freq.symbols_length]
  exact ⟨hcnt, Fin.ext hk, hsymbols⟩

end Sys2Proof
end

section
/-! PROOFS. The PriorityQueue (42_priority_queue.md): the way an element takes through the heap, and what the two operations do to
the elements and their order. Both sifts carry one element `x` along a path; seen from the table `h` before, each entry passed moves
to the place `x` leaves. -/

namespace Sys2Proof

open Sys2Proof.Machine

variable {key : Idx → Word} {h g r : Vector Idx 256} {x : Idx}

/-! ### The way up (R164) -/

/-- The place `m` steps up from position `i`. -/
def heapAncestor (i : Fin 256) (m : Nat) : Fin 256 := heapParent^[m] i

/-- In the table `r`, made of the table `h`, the element `x` stands `m` places up from position `i`, past the parents with strictly
greater keys; each of these has moved down one place. -/
structure SiftedUp (key : Idx → Word) (h : Vector Idx 256) (x : Idx) (i : Fin 256) (r : Vector Idx 256) (m : Nat) : Prop where
  swaps : 2 ^ m ≤ i.val + 1
  passed : ∀ k < m, 0 < (heapAncestor i k).val ∧ key x < key h[(heapAncestor i (k + 1)).val]
  stopped : (heapAncestor i m).val = 0 ∨ key h[(heapAncestor i (m + 1)).val] ≤ key x
  placed : r[(heapAncestor i m).val] = x
  moved : ∀ k < m, r[(heapAncestor i k).val] = h[(heapAncestor i (k + 1)).val]
  kept : ∀ j : Fin 256, j.val < i.val → (∀ k ≤ m, heapAncestor i k ≠ j) → r[j.val] = h[j.val]

/-- An element that stays where it is. -/
theorem SiftedUp.stay {i : Fin 256} (hx : r[i.val] = x) (hr : ∀ j : Fin 256, j.val < i.val → r[j.val] = h[j.val])
    (hstop : i.val = 0 ∨ key h[(heapParent i).val] ≤ key x) : SiftedUp key h x i r 0 where
  swaps := by simp
  passed _ hk := absurd hk (Nat.not_lt_zero _)
  stopped := hstop
  placed := hx
  moved _ hk := absurd hk (Nat.not_lt_zero _)
  kept j hj _ := hr j hj

/-- An element that passes its parent and then takes the way up from there. -/
theorem SiftedUp.pass {i : Fin 256} {m : Nat} (hpos : 0 < i.val) (hlt : key x < key h[(heapParent i).val])
    (hmoved : r[i.val] = h[(heapParent i).val])
    (hkept : ∀ j : Fin 256, (heapParent i).val < j.val → j.val < i.val → r[j.val] = h[j.val])
    (hup : SiftedUp key h x (heapParent i) r m) : SiftedUp key h x i r (m + 1) where
  swaps := by
    have hswaps := hup.swaps
    rw [heapParent_val] at hswaps
    omega
  passed
    | 0, _ => ⟨hpos, hlt⟩
    | k + 1, hk => hup.passed k (Nat.lt_of_succ_lt_succ hk)
  stopped := hup.stopped
  placed := hup.placed
  moved
    | 0, _ => hmoved
    | k + 1, hk => hup.moved k (Nat.lt_of_succ_lt_succ hk)
  kept j hj hoff := by
    rcases Nat.lt_trichotomy j.val (heapParent i).val with hlow | heq | hhigh
    · exact hup.kept j hlow fun k hk => hoff (k + 1) (Nat.succ_le_succ hk)
    · exact absurd (Fin.ext heq.symm) (hoff 1 (by omega))
    · exact hkept j hhigh hj

/-- Sifting up brings the element at position `i` to its place. The table `g` it starts from is `h` below `i`. -/
theorem siftUp_siftedUp (n : Nat) (g : Vector Idx 256) (i : Fin 256) (hn : i.val ≤ n) (hx : g[i.val] = x)
    (hg : ∀ j : Fin 256, j.val < i.val → g[j.val] = h[j.val]) : ∃ m, SiftedUp key h x i (siftUp key n g i) m := by
  induction n generalizing g i with
  | zero => exact ⟨0, .stay hx hg (.inl (Nat.le_zero.1 hn))⟩
  | succ n ih =>
    unfold siftUp
    split
    case isTrue hc =>
      obtain ⟨hpos, hlt⟩ := hc
      have hp : (heapParent i).val < i.val := by rw [heapParent_val]; omega
      have hother : ∀ j : Fin 256, j.val < i.val → j.val ≠ (heapParent i).val →
          (g.swap i.val (heapParent i).val)[j.val] = h[j.val] := fun j hj hne => by
        rw [Vector.getElem_swap_of_ne (Nat.ne_of_lt hj) hne, hg j hj]
      obtain ⟨m, hup⟩ := ih (g.swap i.val (heapParent i).val) (heapParent i) (by omega)
        (by rw [Vector.getElem_swap_right, hx]) fun j hj => hother j (by omega) (by omega)
      rw [hx, hg _ hp] at hlt
      refine ⟨m + 1, hup.pass hpos hlt ?_ fun j hlow hj => ?_⟩
      · rw [siftUp_above key _ _ _ _ i.isLt hp, Vector.getElem_swap_left, hg _ hp]
      · rw [siftUp_above key _ _ _ _ j.isLt hlow, hother j hj (by omega)]
    case isFalse hc =>
      refine ⟨0, .stay hx hg ?_⟩
      rcases Nat.eq_zero_or_pos i.val with h0 | hpos
      · exact .inl h0
      · have hp : (heapParent i).val < i.val := by rw [heapParent_val]; omega
        rw [← hg _ hp, ← hx]
        exact .inr (BitVec.not_lt.1 fun hlt => hc ⟨hpos, hlt⟩)

/-- What `PQ_INSERT` leaves of a queue with room for one more (R164). -/
theorem exec_pqInsert_room {s : State} (x : Idx) (hroom : s.pq.hsize.val < 256) :
    exec (.pqInsert (BitVec.ofNat 9 x.val)) s = .next { s with
      pq := { s.pq with
        heap := siftUp s.arena.key s.pq.hsize.val (s.pq.heap.set s.pq.hsize.val x hroom) ⟨s.pq.hsize.val, hroom⟩
        hsize := ⟨s.pq.hsize.val + 1, by omega⟩ } } := by
  show execPqInsert _ s = _
  unfold execPqInsert PQueue.insert
  simp only [argNode_ofNat, dif_pos hroom]

/-- The queue port's word of an insertion decodes, for every arena index (30_encoding.md R99, R101). -/
theorem decode_pqInsert (x : Idx) :
    decode (.pqop 0b01 (BitVec.ofNat 9 x.val)) = .ok (.pqInsert (BitVec.ofNat 9 x.val)) := by
  refine decode_encode (i := .pqInsert (BitVec.ofNat 9 x.val)) (decide_eq_true ?_)
  have hx := x.isLt
  rw [BitVec.toNat_ofNat]
  omega

/-- Settles O20: the sift-up of the appended element. -/
theorem insertSiftsUpWhileStrictlyLess : Obligations.InsertSiftsUpWhileStrictlyLess := by
  unfold Obligations.InsertSiftsUpWhileStrictlyLess
  intro s x hroom
  obtain ⟨m, hup⟩ := siftUp_siftedUp (key := s.arena.key) (h := s.pq.heap) s.pq.hsize.val
    (s.pq.heap.set s.pq.hsize.val x hroom) ⟨s.pq.hsize.val, hroom⟩ (Nat.le_refl _) (Vector.getElem_set_self _)
    fun j hj => Vector.getElem_set_ne _ _ (Nat.ne_of_gt hj)
  refine ⟨_, m, decode_pqInsert x, exec_pqInsert_room x hroom, rfl, rfl, hup.swaps, hup.passed, hup.stopped, hup.placed,
    hup.moved, fun j hoff => ?_⟩
  rcases Nat.lt_trichotomy j.val s.pq.hsize.val with hlow | heq | hhigh
  · exact hup.kept j hlow hoff
  · exact absurd (Fin.ext heq.symm) (hoff 0 (Nat.zero_le m))
  · exact (siftUp_above _ _ _ _ _ j.isLt hhigh).trans (Vector.getElem_set_ne _ _ (Nat.ne_of_lt hhigh))

/-! ### The way down (R165, R167) -/

/-- Nothing but the left child is the candidate, unless the right one is in the heap and strictly smaller. -/
theorem candidate_iff_left {n : Nat} {i l c : Fin 256} (hl : l.val = 2 * i.val + 1) (hn : l.val < n)
    (hright : ∀ r : Fin 256, r.val = 2 * i.val + 2 → r.val < n → ¬ key g[r.val] < key g[l.val]) :
    Candidate key g n i c ↔ l = c := by
  constructor
  · rintro ⟨hcn, ⟨hc, -⟩ | ⟨hc, hlt⟩⟩
    · exact Fin.ext (hl.trans hc.symm)
    · exact absurd (hlt l hl) (hright c hc hcn)
  · rintro rfl
    exact ⟨hn, .inl ⟨hl, fun r hr hrn => BitVec.not_lt.1 (hright r hr hrn)⟩⟩

/-- Nothing but the right child is the candidate, where it is in the heap and strictly smaller. -/
theorem candidate_iff_right {n : Nat} {i l r c : Fin 256} (hl : l.val = 2 * i.val + 1) (hr : r.val = 2 * i.val + 2)
    (hn : r.val < n) (hlt : key g[r.val] < key g[l.val]) : Candidate key g n i c ↔ r = c := by
  constructor
  · rintro ⟨-, ⟨hc, hle⟩ | ⟨hc, -⟩⟩
    · obtain rfl : l = c := Fin.ext (hl.trans hc.symm)
      exact absurd hlt (BitVec.not_lt.2 (hle r hr hn))
    · exact Fin.ext (hr.trans hc.symm)
  · rintro rfl
    refine ⟨hn, .inr ⟨hr, fun l' hl' => ?_⟩⟩
    obtain rfl : l = l' := Fin.ext (hl.trans hl'.symm)
    exact hlt

/-- The child a sift-down compares with is the candidate of R165 and R167. -/
theorem heapChild_eq_some_iff {size : Fin 257} {i c : Fin 256} :
    heapChild key g size i = some c ↔ Candidate key g size.val i c := by
  unfold heapChild
  split
  case isTrue hl =>
    split
    case isTrue hr =>
      split
      case isTrue hlt =>
        rw [candidate_iff_right (l := ⟨2 * i.val + 1, by omega⟩) (r := ⟨2 * i.val + 2, by omega⟩) rfl rfl hr hlt,
          Option.some_inj]
      case isFalse hle =>
        rw [candidate_iff_left (l := ⟨2 * i.val + 1, by omega⟩) rfl hl ?_, Option.some_inj]
        intro r hr' _
        simpa only [hr'] using hle
    case isFalse hr =>
      rw [candidate_iff_left (l := ⟨2 * i.val + 1, by omega⟩) rfl hl fun r hr' hn => absurd hn (by omega), Option.some_inj]
  case isFalse hl =>
    refine iff_of_false (Option.some_ne_none c ∘ Eq.symm) ?_
    rintro ⟨hn, ⟨hc, -⟩ | ⟨hc, -⟩⟩ <;> omega

/-- The candidate child depends on the entries past its parent alone. -/
theorem Candidate.of_above {n : Nat} {i c : Fin 256} (hc : Candidate key g n i c)
    (hg : ∀ j : Fin 256, i.val < j.val → g[j.val] = h[j.val]) : Candidate key h n i c := by
  obtain ⟨hn, ⟨hleft, hle⟩ | ⟨hright, hlt⟩⟩ := hc
  · refine ⟨hn, .inl ⟨hleft, fun r hr hrn => ?_⟩⟩
    rw [← hg c (by omega), ← hg r (by omega)]
    exact hle r hr hrn
  · refine ⟨hn, .inr ⟨hright, fun l hl => ?_⟩⟩
    rw [← hg c (by omega), ← hg l (by omega)]
    exact hlt l hl

/-- In the table `r`, made of the table `h`, the element `x` stands at the end of a path down from position `i`, past the candidate
children with strictly smaller keys; each of these has moved up one place. -/
structure SiftedDown (key : Idx → Word) (h : Vector Idx 256) (n : Nat) (x : Idx) (i : Fin 256) (r : Vector Idx 256)
    (path : List (Fin 256)) (last : Fin 256) : Prop where
  first : path.head? = some i
  final : path.getLast? = some last
  passed : path.IsChain fun i c => Candidate key h n i c ∧ key h[c.val] < key x ∧ r[i.val] = h[c.val]
  placed : r[last.val] = x
  stopped : ∀ c : Fin 256, Candidate key h n last c → key x ≤ key h[c.val]
  kept : ∀ j : Fin 256, i.val < j.val → j ∉ path → r[j.val] = h[j.val]

/-- An element that stays where it is. -/
theorem SiftedDown.stay {n : Nat} {i : Fin 256} (hx : r[i.val] = x) (hr : ∀ j : Fin 256, i.val < j.val → r[j.val] = h[j.val])
    (hstop : ∀ c : Fin 256, Candidate key h n i c → key x ≤ key h[c.val]) : SiftedDown key h n x i r [i] i where
  first := rfl
  final := rfl
  passed := List.isChain_singleton i
  placed := hx
  stopped := hstop
  kept j hj _ := hr j hj

/-- An element that passes the candidate child and then takes the way down from there. -/
theorem SiftedDown.pass {n : Nat} {i c last : Fin 256} {path : List (Fin 256)} (hc : Candidate key h n i c)
    (hlt : key h[c.val] < key x) (hmoved : r[i.val] = h[c.val])
    (hkept : ∀ j : Fin 256, i.val < j.val → j.val < c.val → r[j.val] = h[j.val])
    (hdown : SiftedDown key h n x c r path last) : SiftedDown key h n x i r (i :: path) last where
  first := rfl
  final := List.mem_getLast?_cons hdown.final
  passed := List.isChain_cons.2 ⟨fun d hd => by
    obtain rfl : c = d := Option.some.inj (hdown.first.symm.trans hd)
    exact ⟨hc, hlt, hmoved⟩, hdown.passed⟩
  placed := hdown.placed
  stopped := hdown.stopped
  kept j hj hoff := by
    have hpath : j ∉ path := fun hmem => hoff (List.mem_cons_of_mem i hmem)
    rcases Nat.lt_trichotomy j.val c.val with hlow | heq | hhigh
    · exact hkept j hj hlow
    · exact absurd (List.mem_of_mem_head? (Fin.ext heq ▸ hdown.first)) hpath
    · exact hdown.kept j hhigh hpath

/-- Sifting down leaves the positions before its start as they are. -/
theorem siftDown_below (size : Fin 257) (n : Nat) (g : Vector Idx 256) (i j : Fin 256) (hj : j.val < i.val) :
    (siftDown key size n g i)[j.val] = g[j.val] := by
  induction n generalizing g i with
  | zero => rfl
  | succ n ih =>
    cases hc : heapChild key g size i with
    | none => rw [siftDown_none key hc]
    | some c =>
      have hic := (heapChild_some key hc).2.1
      rw [siftDown_some key hc]
      split
      · rw [ih _ c (by omega), Vector.getElem_swap_of_ne (Nat.ne_of_lt hj) (by omega)]
      · rfl

/-- Sifting down brings the element at position `i` to its place. The table `g` it starts from is `h` past `i`. -/
theorem siftDown_siftedDown (size : Fin 257) (n : Nat) (g : Vector Idx 256) (i : Fin 256) (hn : size.val ≤ i.val + n)
    (hi : i.val < size.val) (hx : g[i.val] = x) (hg : ∀ j : Fin 256, i.val < j.val → g[j.val] = h[j.val]) :
    ∃ path last, SiftedDown key h size.val x i (siftDown key size n g i) path last := by
  induction n generalizing g i with
  | zero => omega
  | succ n ih =>
    have hchild : ∀ c, Candidate key h size.val i c → heapChild key g size i = some c := fun c hc =>
      heapChild_eq_some_iff.2 (hc.of_above fun j hj => (hg j hj).symm)
    cases hc : heapChild key g size i with
    | none =>
      rw [siftDown_none key hc]
      refine ⟨_, _, .stay hx hg fun c hcand => ?_⟩
      exact absurd ((hchild c hcand).symm.trans hc) (Option.some_ne_none c)
    | some c =>
      obtain ⟨hcs, hic, -⟩ := heapChild_some key hc
      rw [siftDown_some key hc, hx, hg c hic]
      split
      case isTrue hlt =>
        have hother : ∀ j : Fin 256, i.val < j.val → j.val ≠ c.val → (g.swap i.val c.val)[j.val] = h[j.val] :=
          fun j hj hne => by rw [Vector.getElem_swap_of_ne (Nat.ne_of_gt hj) hne, hg j hj]
        obtain ⟨path, last, hdown⟩ := ih (g.swap i.val c.val) c (by omega) hcs (by rw [Vector.getElem_swap_right, hx])
          fun j hj => hother j (hic.trans hj) (Nat.ne_of_gt hj)
        refine ⟨_, _, hdown.pass ((heapChild_eq_some_iff.1 hc).of_above hg) hlt ?_ fun j hj hlow => ?_⟩
        · rw [siftDown_below _ _ _ _ _ hic, Vector.getElem_swap_left, hg c hic]
        · rw [siftDown_below _ _ _ _ _ hlow, hother j hj (Nat.ne_of_lt hlow)]
      case isFalse hle =>
        refine ⟨_, _, .stay hx hg fun d hd => ?_⟩
        obtain rfl : c = d := Option.some.inj (hc.symm.trans (hchild d hd))
        exact BitVec.not_lt.1 hle

/-- What `PQ_EXTRACT` leaves of a queue of `n + 1` elements (R165). -/
theorem exec_pqExtract_succ {s : State} {n : Fin 256} (hn : s.pq.hsize.val = n.val + 1) :
    exec .pqExtract s = .next { s with
      pq := {
        heap := removeRoot s.arena.key n s.pq.heap
        hsize := ⟨n.val, by omega⟩
        res := nodeBits s.pq.heap[0]
        isNone := false } } := by
  show execPqExtract s = _
  unfold execPqExtract PQueue.extract
  simp [hn]

/-- Settles O22: the root is removed from a heap of nothing else. -/
theorem extractOfTheOnlyElement : Obligations.ExtractOfTheOnlyElement := by
  unfold Obligations.ExtractOfTheOnlyElement
  intro s hone
  exact exec_pqExtract_succ (n := 0) hone

/-- The bits of an arena index have its value. -/
theorem toNat_nodeBits (x : Idx) : (nodeBits x).toNat = x.val := by
  have hx := x.isLt
  unfold nodeBits
  rw [BitVec.toNat_ofNat]
  omega

/-- Settles O21: the sift-down of the last element from the root. -/
theorem extractSiftsDownWhileStrictlyLess : Obligations.ExtractSiftsDownWhileStrictlyLess := by
  unfold Obligations.ExtractSiftsDownWhileStrictlyLess
  intro s n hsize hpos
  obtain ⟨path, last, hdown⟩ := siftDown_siftedDown (key := s.arena.key) (h := s.pq.heap) n.castSucc n.val
    (s.pq.heap.set 0 s.pq.heap[n.val]) 0 (by simp) hpos (Vector.getElem_set_self _)
    fun j hj => Vector.getElem_set_ne _ _ (Nat.ne_of_lt hj)
  have hroot : removeRoot s.arena.key n s.pq.heap =
      siftDown s.arena.key n.castSucc n.val (s.pq.heap.set 0 s.pq.heap[n.val]) 0 := if_pos hpos
  rw [← hroot] at hdown
  refine ⟨_, path, last, exec_pqExtract_succ hsize, rfl, rfl, rfl, toNat_nodeBits _, hdown.first, hdown.final, hdown.passed,
    hdown.placed, hdown.stopped, fun j hoff => hdown.kept j (Nat.pos_of_ne_zero fun h0 => hoff ?_) hoff⟩
  obtain rfl : j = 0 := Fin.ext h0
  exact List.mem_of_mem_head? hdown.first

/-! ### The elements and their order (R163, R168) -/

/-- What an insertion that completes does to the elements and their order. -/
theorem pqInsert_effect {s t : State} {arg : BitVec 9} (h : exec (.pqInsert arg) s = .next t) :
    ∃ x q, argNode arg = some x ∧ t = { s with pq := q } ∧ q.items.Perm (x :: s.pq.items) ∧
      (HeapOrder s.arena.key s.pq → HeapOrder s.arena.key q) := by
  obtain ⟨x, q, hx, hroom, hq, rfl⟩ := pqInsert_cases h
  obtain ⟨q', hq', -, -, -, hperm, hord, -⟩ := PQueue.insert_spec s.arena.key x s.pq hroom
  obtain rfl : q = q' := Option.some.inj (hq.symm.trans hq')
  exact ⟨x, q, hx, rfl, hperm, hord⟩

/-- What an extraction from a queue that is not empty does to the elements and their order. -/
theorem pqExtract_effect {s : State} (h0 : s.pq.hsize.val ≠ 0) :
    ∃ q, exec .pqExtract s = .next { s with pq := q } ∧ q.hsize.val = s.pq.hsize.val - 1 ∧ q.res = nodeBits s.pq.heap[0] ∧
      (s.pq.heap[0] :: q.items).Perm s.pq.items ∧ (HeapOrder s.arena.key s.pq → HeapOrder s.arena.key q) := by
  obtain ⟨q, hq, hsize, hres, -, hperm, hord, -⟩ :=
    PQueue.extract_spec s.arena.key (Config.unspecified9 s.draws) s.pq h0
  refine ⟨q, ?_, hsize, hres, hperm, hord⟩
  show execPqExtract s = _
  unfold execPqExtract
  rw [hq]

/-- Settles O24, from what each operation does to a heap in order. -/
theorem heapOrderIsKept : Obligations.HeapOrderIsKept := by
  unfold Obligations.HeapOrderIsKept
  refine ⟨fun s h0 i _ hi => absurd hi (by omega), fun s t arg ho h => ?_, fun s t ho h => ?_,
    fun s ho j hj => OrderedBelow.root_least s.arena.key ho j.val j.isLt hj⟩
  · obtain ⟨x, q, -, rfl, -, hord⟩ := pqInsert_effect h
    exact hord ho
  · rcases pqExtract_cases h with ⟨h0, rfl⟩ | ⟨h0, -⟩
    · exact ho
    · obtain ⟨q, hexec, -, -, -, hord⟩ := pqExtract_effect h0
      cases hexec.symm.trans h
      exact hord ho

/-- Settles O25, from what each operation does to the elements. -/
theorem queueKeepsItsNodes : Obligations.QueueKeepsItsNodes := by
  unfold Obligations.QueueKeepsItsNodes
  refine ⟨fun s t x h => ?_, fun s t h hsome => ?_⟩
  · obtain ⟨y, q, hy, rfl, hperm, -⟩ := pqInsert_effect h
    obtain rfl : x = y := Option.some.inj ((argNode_ofNat x).symm.trans hy)
    exact hperm
  · rcases pqExtract_cases h with ⟨-, rfl⟩ | ⟨h0, -⟩
    · exact absurd hsome (by simp)
    · obtain ⟨q, hexec, -, -, hperm, -⟩ := pqExtract_effect h0
      cases hexec.symm.trans h
      exact hperm

/-- The first key extracted is the root's, and the others come out of what is left. -/
theorem extractedKeys_succ {s : State} {q : PQueue} (n : Nat) (hexec : exec .pqExtract s = .next { s with pq := q })
    (hres : q.res = nodeBits s.pq.heap[0]) :
    extractedKeys (n + 1) s = s.arena.key s.pq.heap[0] :: extractedKeys n { s with pq := q } := by
  have harg : argNode q.res = some s.pq.heap[0] := hres ▸ argNode_ofNat _
  rw [extractedKeys, hexec]
  simp only [harg, Option.elim_some]

/-- As many keys are extracted as asked for, from a queue that holds as many elements, and each is the key of one of them. -/
theorem extractedKeys_length_and_mem (n : Nat) (s : State) (hn : n ≤ s.pq.hsize.val) :
    (extractedKeys n s).length = n ∧ ∀ k ∈ extractedKeys n s, ∃ y ∈ s.pq.items, s.arena.key y = k := by
  induction n generalizing s with
  | zero => exact ⟨rfl, fun k hk => absurd hk List.not_mem_nil⟩
  | succ n ih =>
    obtain ⟨q, hexec, hsize, hres, hperm, -⟩ := pqExtract_effect (s := s) (by omega)
    obtain ⟨hlen, hmem⟩ := ih { s with pq := q } (show n ≤ q.hsize.val by omega)
    rw [extractedKeys_succ n hexec hres]
    refine ⟨congrArg (· + 1) hlen, fun k hk => ?_⟩
    rcases List.mem_cons.1 hk with rfl | hk
    · exact ⟨_, hperm.subset List.mem_cons_self, rfl⟩
    · obtain ⟨y, hy, hkey⟩ := hmem k hk
      exact ⟨y, hperm.subset (List.mem_cons_of_mem _ hy), hkey⟩

/-- From a heap in order the keys come out in order: the root is least of the elements the later keys belong to (R168). -/
theorem extractedKeys_pairwise (n : Nat) (s : State) (ho : HeapOrder s.arena.key s.pq) (hn : n ≤ s.pq.hsize.val) :
    (extractedKeys n s).Pairwise (· ≤ ·) := by
  induction n generalizing s with
  | zero => exact List.Pairwise.nil
  | succ n ih =>
    obtain ⟨q, hexec, hsize, hres, hperm, hord⟩ := pqExtract_effect (s := s) (by omega)
    have hleft : n ≤ q.hsize.val := by omega
    rw [extractedKeys_succ n hexec hres]
    refine List.pairwise_cons.2 ⟨fun k hk => ?_, ih { s with pq := q } (hord ho) hleft⟩
    obtain ⟨y, hy, rfl⟩ := (extractedKeys_length_and_mem n { s with pq := q } hleft).2 k hk
    exact PQueue.root_least s.arena.key s.pq ho y (hperm.subset (List.mem_cons_of_mem _ hy))

/-- Settles O26, by induction on the number of extractions. -/
theorem extractionsAreNonDecreasing : Obligations.ExtractionsAreNonDecreasing := by
  unfold Obligations.ExtractionsAreNonDecreasing
  intro n s ho hn
  exact ⟨(extractedKeys_length_and_mem n s hn).1, extractedKeys_pairwise n s ho hn⟩

end Sys2Proof
end

section
/-! PROOFS. The TreeBuilder (43_tree_builder.md): `P_TREE` on a table of no symbol and of one, and its building as a row of builders,
each made of the one before by one round of the seed loop or of the merge loop. -/

namespace Sys2Proof

open Sys2Proof.Machine

/-! ### Tables of no symbol and of one (R185, R186) -/

/-- Settles O28: nothing is seeded, so the last extraction finds the queue empty. -/
theorem emptyTableRaisesEmptyInput : Obligations.EmptyTableRaisesEmptyInput := by
  unfold Obligations.EmptyTableRaisesEmptyInput
  exact fun s hk => exec_pTree_empty hk

/-- The counts of a table of one symbol fit 32 bits. -/
theorem counts_fit_of_k_one {t : FreqTable} (hk : t.k.val = 1) :
    (t.symbols.map fun b => (t.cnt[(symIndex b).val]).toNat).sum < 2 ^ 32 := by
  obtain ⟨b, hb⟩ := List.length_eq_one_iff.1 (t.symbols_length.trans hk)
  rw [hb, List.map_singleton, List.sum_singleton]
  exact BitVec.isLt _

/-- Settles O29: a tree of one symbol has one node, and the root is the last one made. -/
theorem loneSymbolIsTheRoot : Obligations.LoneSymbolIsTheRoot := by
  unfold Obligations.LoneSymbolIsTheRoot
  intro s hk
  obtain ⟨t, tree, hexec, ht, hnn, hlast, hsize, hleaf, -⟩ :=
    treeOfTheFrequencyTable s hk.ge (counts_fit_of_k_one hk)
  have hone : t.arena.nn.val = 1 := by omega
  have hroot : t.root = 0 := Fin.ext (show t.root.val = 0 by omega)
  rw [hroot] at ht
  exact ⟨t, hexec, ht, hone, hsize, hleaf 0 (by omega)⟩

/-! ### The builders one after the other (R181 to R183) -/

/-- Where the counts fit 32 bits, neither loop stops, and the seed loop leaves one node queued per symbol. -/
theorem exists_seed_merge (t : FreqTable) (a : Arena) (q : PQueue)
    (hsum : (t.symbols.map fun b => (t.cnt[(symIndex b).val]).toNat).sum < 2 ^ 32) :
    ∃ b c : Builder, Builder.seed t.cnt t.symbols (Builder.init a q) = .ok b ∧ b.pq.hsize.val = t.k.val ∧
      Builder.merge b.pq.hsize.val b = .ok c := by
  have hlen := t.symbols_length
  have hk := t.k.isLt
  obtain ⟨b, F, hseed, hforest, hnn⟩ :=
    Forest.seed (cnt := t.cnt) t.symbols (Forest.init a q) rfl (by rw [List.length_nil]; omega)
  have hnodes := hforest.nodes
  simp only [List.nil_append, List.length_map, List.length_nil] at hnodes hnn hforest
  have hqueued : b.pq.hsize.val = t.k.val := by omega
  rcases Nat.eq_zero_or_pos b.pq.hsize.val with h0 | hpos
  · exact ⟨b, b, hseed, hqueued, by rw [h0]; rfl⟩
  · obtain ⟨c, -, hmerge, -⟩ := Forest.merge b.pq.hsize.val hforest (by omega) hpos
      (by rw [List.length_map]; omega) (by rw [List.length_map]; omega) (by simpa [Function.comp_def] using hsum)
    exact ⟨b, c, hseed, hqueued, hmerge⟩

/-- The first `k` terms of `f`, then `g`. -/
def followedBy {α : Type} (k : Nat) (f g : Nat → α) (j : Nat) : α := if j < k then f j else g (j - k)

theorem followedBy_of_le {α : Type} {k j : Nat} {f g : Nat → α} (hmeet : f k = g 0) (hj : j ≤ k) :
    followedBy k f g j = f j := by
  unfold followedBy
  rcases Nat.lt_or_eq_of_le hj with hlt | rfl
  · exact if_pos hlt
  · rw [if_neg (Nat.lt_irrefl j), Nat.sub_self, hmeet]

theorem followedBy_add {α : Type} (k j : Nat) (f g : Nat → α) : followedBy k f g (k + j) = g j := by
  unfold followedBy
  rw [if_neg (by omega), Nat.add_sub_cancel_left]

/-- The builders of `P_TREE`: from the empty one, each of the first `K` adds the leaf of the next symbol, each of the next `K - 1`
merges two nodes, and the last is what `P_TREE` has built. -/
structure BuildSteps (t : FreqTable) (a : Arena) (q : PQueue) (bs : Nat → Builder) : Prop where
  start : bs 0 = Builder.init a q
  seeded : ∀ (j : Nat) (hj : j < t.k.val),
    (bs j).add (.leaf t.order[j] t.cnt[(symIndex t.order[j]).val]) = .ok (bs (j + 1))
  merged : ∀ j : Nat, j + 1 < t.k.val →
    1 < (bs (t.k.val + j)).pq.hsize.val ∧ (bs (t.k.val + j)).mergeOnce = .ok (bs (t.k.val + j + 1))
  ended : (bs (2 * t.k.val - 1)).pq.hsize.val ≤ 1
  built : Builder.build t a q = .ok (bs (2 * t.k.val - 1))

/-- Where the counts fit 32 bits there are such builders: those of the seed loop, then those of the merge loop. -/
theorem exists_buildSteps (t : FreqTable) (a : Arena) (q : PQueue)
    (hsum : (t.symbols.map fun b => (t.cnt[(symIndex b).val]).toNat).sum < 2 ^ 32) :
    ∃ bs : Nat → Builder, BuildSteps t a q bs := by
  obtain ⟨b, c, hseed, hqueued, hmerge⟩ := exists_seed_merge t a q hsum
  obtain ⟨f, f_start, f_end, f_step⟩ := seed_steps t.symbols hseed
  obtain ⟨g, g_start, g_end, g_small, g_step⟩ := merge_steps _ (Nat.le_succ _) hmerge
  rw [t.symbols_length] at f_end
  rw [hqueued] at g_end g_step
  have hmeet : f t.k.val = g 0 := f_end.trans g_start.symm
  have hlast : followedBy t.k.val f g (2 * t.k.val - 1) = c := by
    rw [show 2 * t.k.val - 1 = t.k.val + (t.k.val - 1) by omega, followedBy_add, g_end]
  refine ⟨followedBy t.k.val f g, ?start, fun j hj => ?seeded, fun j hj => ?merged, hlast ▸ g_small, ?built⟩
  case start => rw [followedBy_of_le hmeet (Nat.zero_le _), f_start]
  case seeded =>
    rw [followedBy_of_le hmeet hj.le, followedBy_of_le hmeet hj]
    simpa [FreqTable.symbols] using f_step j (by rw [t.symbols_length]; exact hj)
  case merged =>
    rw [Nat.add_assoc, followedBy_add, followedBy_add]
    exact g_step j hj
  case built =>
    rw [hlast]
    unfold Builder.build
    rw [hseed]
    exact hmerge

/-! ### `P_TREE` as instructions of the queue (R181 to R184) -/

/-- The state while `P_TREE` builds: the arena and the queue are the builder's, and there is no root yet. -/
def Machine.State.building (s : State) (b : Builder) : State := { s with arena := b.arena, pq := b.pq, rootValid := false }

/-- `P_TREE` ends as one more `PQ_EXTRACT` of what was built says: failure entry where it says none, else the root (R184, R185). -/
theorem exec_pTree_by_extract {s : State} {b : Builder} (hbuild : Builder.build s.freq s.arena s.pq = .ok b) :
    ∃ v : State, exec .pqExtract (s.building b) = .next v ∧
      (v.pq.isNone = true → exec .pTree s = .next (v.enterFailure .emptyInput)) ∧
      (v.pq.isNone = false → ∃ r : Idx, argNode v.pq.res = some r ∧
        exec .pTree s = .next { v with root := r, rootValid := true, phase := .code }) := by
  simp only [exec, execPqExtract, execPTree, hbuild]
  by_cases h0 : b.pq.hsize.val = 0
  · have hnone := PQueue.extract_empty b.arena.key (Config.unspecified9 s.draws) b.pq h0
    simp only [State.building, hnone]
    exact ⟨_, rfl, fun _ => rfl, nofun⟩
  · obtain ⟨q, hsome, -, hres, hvalid, -⟩ :=
      PQueue.extract_spec b.arena.key (Config.unspecified9 s.draws) b.pq h0
    simp only [State.building, hsome]
    exact ⟨_, rfl, fun hnone => absurd (hnone.symm.trans hvalid) nofun,
      fun _ => ⟨_, (congrArg argNode hres).trans (argNode_ofNat _), rfl⟩⟩

/-- Settles O57: each builder is the one before after the queue's instructions of its round. -/
theorem treeIsBuiltByTheQueue : Obligations.TreeIsBuiltByTheQueue := by
  unfold Obligations.TreeIsBuiltByTheQueue
  intro s hsum
  obtain ⟨bs, steps⟩ := exists_buildSteps s.freq s.arena s.pq hsum
  obtain ⟨v, hextract, hfail, hroot⟩ := exec_pTree_by_extract steps.built
  refine ⟨fun j => s.building (bs j), v, congrArg s.building steps.start, fun j hj => ?seeded, fun j hj => ?merged,
    steps.ended, hextract, hfail, hroot⟩
  case seeded => exact placeNode_eq (s := s.building (bs j)) (steps.seeded j hj)
  case merged =>
    obtain ⟨htwo, hmerge⟩ := steps.merged j hj
    exact ⟨htwo, mergeTwo_eq (s := s.building (bs (s.freq.k.val + j))) htwo hmerge⟩

end Sys2Proof
end

section
/-! PROOFS. The code table builder (44_code_table_builder.md): what `P_CODE` leaves at a leaf root and at an internal one, the code
table of an input, and the output of an input of one byte value. -/

namespace Sys2Proof

open Sys2Proof.Machine

/-! ### The code table of an input (R202) -/

/-- A byte that is no symbol of the tree has no code. -/
theorem Records.none_of_notMem {code : Vector (Option Code) 256} {tree : HuffTree} {b : Byte} (h : Records code tree)
    (hb : b ∉ tree.leaves.map Prod.fst) : code[(symIndex b).val] = none :=
  Option.eq_none_iff_forall_ne_some.2 fun c hc =>
    hb (tree.table_symbols ▸ List.mem_map_of_mem (f := Prod.fst) ((h b c).1 hc))

/-- Settles O33: the three phases leave the table of the input's tree, whose leaves are the input's symbols. -/
theorem codeTableIsPrefixFree : Obligations.CodeTableIsPrefixFree := by
  unfold Obligations.CodeTableIsPrefixFree
  rintro s - ⟨a, ha, -⟩
  obtain ⟨tree, hbuild, hs, hn, hsyms⟩ :=
    exists_buildsTree (List.ne_nil_of_mem ha) (by rw [inputBytes_length]; exact s.inLen.isLt)
  obtain ⟨f, hcounts, hfreq⟩ := exec_pFreq_counts s
  obtain ⟨arena, q, r, hholds, htree⟩ :=
    exec_pTree_builds (s := { s with freq := f, idx := s.inLen, phase := .tree }) hbuild hcounts
  obtain ⟨w, hw, hcode⟩ := exec_pCode_records (s := { s with
    freq := f, idx := s.inLen, arena := arena, pq := q, root := r, rootValid := true, phase := .code }) rfl hholds hs hn
  exact ⟨_, _, _, hfreq, htree, hcode, rfl, hw.prefixFree, hw.coded hs fun b => (hsyms b).2,
    fun b hb => hw.none_of_notMem (mt (hsyms b).1 hb)⟩

/-! ### The two kinds of root (R196) -/

/-- `P_CODE` at a leaf (R197). -/
theorem exec_pCode_leaf {s : State} {sym : Byte} {f : Word} (hv : s.rootValid = true)
    (hnode : s.arena.node[s.root.val] = .leaf sym f) :
    exec .pCode s = .next { s with
      walk := s.walk.init.record sym [Config.degenBit], degen := true, phase := .pack } := by
  show execPCode s = _
  unfold execPCode
  simp only [if_pos hv, hnode]

/-- `P_CODE` at an internal node, where the walk ends (R198). -/
theorem exec_pCode_walk {s : State} {w : Walk} {f : Word} {l r : Idx} (hv : s.rootValid = true)
    (hnode : s.arena.node[s.root.val] = .internal f l r) (hw : Walk.from s.arena.node s.root s.walk = .ok w) :
    exec .pCode s = .next { s with walk := w, degen := false, phase := .pack } := by
  show execPCode s = _
  unfold execPCode
  simp only [if_pos hv, hnode, hw]

/-- Initialisation leaves no code. -/
@[simp] theorem Machine.Walk.init_code (w : Walk) (b : Byte) : w.init.code[(symIndex b).val] = none := by
  simp [Walk.init]

/-- Settles O32, by what the walk of a whole tree leaves. -/
theorem codesAreThePathsOfTheTree : Obligations.CodesAreThePathsOfTheTree := by
  unfold Obligations.CodesAreThePathsOfTheTree
  intro s f l r hv hholds hsize hnodup
  obtain ⟨w, hw, hsp, hcodes⟩ := Walk.from_spec s.arena.node s.root _ s.walk hholds hsize hnodup
  obtain ⟨li, ri, hnode, -⟩ := hholds
  exact ⟨_, exec_pCode_walk hv hnode hw, rfl, hsp, hcodes⟩

/-- Settles O31: one code is recorded after the initialisation, and nothing is pushed. -/
theorem loneSymbolGetsOneDigit : Obligations.LoneSymbolGetsOneDigit := by
  unfold Obligations.LoneSymbolGetsOneDigit
  intro s sym f hv hnode
  refine ⟨_, exec_pCode_leaf hv hnode, rfl, rfl, rfl, ?_, fun b hb => ?_⟩
  · rw [Walk.record_code, if_pos rfl]
    rfl
  · rw [Walk.record_code, if_neg hb, Walk.init_code]

/-! ### One distinct byte value (R197, 45_bit_packer.md R220) -/

/-- A tree whose only symbol is `b` is the leaf of `b`. -/
theorem HuffTree.eq_leaf_of_symbols {tree : HuffTree} {b : Byte} (hn : (tree.leaves.map Prod.fst).Nodup)
    (hb : ∀ a, a ∈ tree.leaves.map Prod.fst ↔ a = b) : ∃ f, tree = .leaf b f := by
  have hsyms : tree.leaves.map Prod.fst = [b] :=
    List.perm_singleton.1 ((List.perm_ext_iff_of_nodup hn (List.nodup_singleton b)).2 fun a => by
      rw [hb a, List.mem_singleton])
  have hone : tree.isLone = true := tree.isLone_iff.2 (by rw [← List.length_map Prod.fst, hsyms, List.length_singleton])
  cases tree with
  | leaf a f => exact ⟨f, congrArg (HuffTree.leaf · f) (List.singleton_inj.1 hsyms)⟩
  | node f l r => nomatch hone

/-- Copies of a byte with a one-digit code make a stream of copies of the digit. -/
theorem stream_replicate {code : Vector (Option Code) 256} {b : Byte} {d : Bool}
    (h : code[(symIndex b).val] = some [d]) (n : Nat) :
    stream code (List.replicate n b) = List.replicate n d := by
  induction n with
  | zero => rfl
  | succ n ih => rw [List.replicate_succ, stream_cons, h, ih]; rfl

/-- A packed byte, bit by bit (30_encoding.md R104). -/
theorem Packed.read_bits {out : Memory} {S : List Bool} (h : Packed out S) {j : Nat} (hj : j < bytesFor S.length) :
    ∃ v : Byte, Memory.read out j = some v ∧ ∀ k < 8, v.getLsbD k = S.getD (8 * j + (7 - k)) false := by
  obtain ⟨v, hv, -⟩ := h (8 * j) (by omega)
  rw [show 8 * j / 8 = j by omega] at hv
  refine ⟨v, hv, fun k hk => ?_⟩
  obtain ⟨v', hv', hbit⟩ := h (8 * j + (7 - k)) (by omega)
  rw [show (8 * j + (7 - k)) / 8 = j by omega, hv] at hv'
  rw [show 7 - (8 * j + (7 - k)) % 8 = k by omega] at hbit
  obtain rfl := Option.some.inj hv'
  exact hbit

/-- A stream of zeros packs into bytes of zeros. -/
theorem Packed.read_zero {out : Memory} {n : Nat} (h : Packed out (List.replicate n false)) {j : Nat}
    (hj : j < bytesFor n) : Memory.read out j = some 0 := by
  obtain ⟨v, hv, hbits⟩ := h.read_bits (by rwa [List.length_replicate])
  have hzero : v = 0#8 := BitVec.eq_of_getLsbD_eq fun k hk => by
    rw [hbits k hk, BitVec.getLsbD_zero, List.getD_eq_getElem?_getD, List.getElem?_replicate]
    split <;> rfl
  exact hv.trans (congrArg some hzero)

/-- Settles O51: the input's tree is a leaf, whose symbol has the one-digit code 0. -/
theorem degenerateAlphabetGivesZeros : Obligations.DegenerateAlphabetGivesZeros := by
  unfold Obligations.DegenerateAlphabetGivesZeros
  rintro s b hidle - h0 hlegal hinput hfit
  obtain ⟨tree, hbuild, hs, hn, hsyms⟩ :=
    exists_buildsTree (inputBytes_ne_nil h0) (by rw [inputBytes_length]; exact s.inLen.isLt)
  have hlen : s.inLen.toNat ≠ 0 := fun h => h0 (BitVec.eq_of_toNat_eq h)
  obtain ⟨f, rfl⟩ := HuffTree.eq_leaf_of_symbols (b := b) hn fun a => by
    rw [hsyms, hinput, List.mem_replicate, and_iff_right hlen]
  obtain ⟨t, hrun, -, -, hcodes, hpack⟩ := run_launch_packs hidle hlegal hbuild hs hn fun a => (hsyms a).2
  have hdigit : t.walk.code[(symIndex b).val] = some [false] := (hcodes b _).2 (List.mem_singleton.2 rfl)
  rw [hinput, stream_replicate hdigit] at hpack
  have hdone := hpack.fits (by rwa [List.length_replicate])
  refine ⟨t, hrun, hdone.done, hdone.fail, hdone.cond, ?_, fun j => hdone.packed.read_zero⟩
  rw [hdone.outLen_toNat (by rw [List.length_replicate]; exact s.inLen.isLt), List.length_replicate]

end Sys2Proof
end

section
/-! PROOFS. The bit packer (45_bit_packer.md): where `P_PACK` completes, where it raises `OutOverflow`, and where it stops on a
missing code. -/

namespace Sys2Proof

open Sys2Proof.Machine

/-! ### The three ends of `P_PACK` (R215, R216, R219) -/

/-- Packing to the end is followed by completion (R215). -/
theorem exec_pPack_complete {s : State} {p : Packer}
    (h : Packer.pack s.params.outCap s.walk.code s.inputBytes s.outbuf = .ok p) :
    exec .pPack s = .next (s.withPacker p).complete := by
  show execPPack s = _
  unfold execPPack
  rw [h]

/-- A byte with no place is followed by failure entry (R216). -/
theorem exec_pPack_overflow {s : State} {p : Packer}
    (h : Packer.pack s.params.outCap s.walk.code s.inputBytes s.outbuf = .error (.overflow p)) :
    exec .pPack s = .next ((s.withPacker p).enterFailure .outOverflow) := by
  show execPPack s = _
  unfold execPPack
  rw [h]

/-- A fault inside the loops is the fault of the phase (R219). -/
theorem exec_pPack_stuck {s : State} {f : Fault}
    (h : Packer.pack s.params.outCap s.walk.code s.inputBytes s.outbuf = .error (.stuck f)) :
    exec .pPack s = .fault f := by
  show execPPack s = _
  unfold execPPack
  rw [h]

/-! ### Too long an output (R216, 60_exceptions.md R230, R232) -/

/-- Completion never leaves `OUT_OVERFLOW` in `COND` (40_host_interface.md R132). -/
theorem Machine.State.complete_cond_ne_outOverflow (s : State) : s.complete.cond ≠ .outOverflow := by
  rw [State.complete_cond]
  split <;> nofun

/-- Settles O36, by what packing leaves where the bytes fit and where they do not. -/
theorem outputTooLongOverflows : Obligations.OutputTooLongOverflows := by
  unfold Obligations.OutputTooLongOverflows
  intro s hcode hS
  obtain ⟨hfits, hover⟩ := Packer.pack_spec s.params.outCap s.walk.code s.inputBytes s.outbuf hcode hS
  rcases Nat.lt_or_ge s.params.outCap (bytesFor (stream s.walk.code s.inputBytes).length) with hlong | hfit
  · obtain ⟨p, hp, hstored⟩ := hover hlong
    exact ⟨_, exec_pPack_overflow hp, iff_of_true rfl hlong, fun _ => rfl, hstored.past⟩
  · obtain ⟨p, hp, -, -, -, -, hstored, -⟩ := hfits hfit
    have hnot := Nat.not_lt.2 hfit
    exact ⟨_, exec_pPack_complete hp, iff_of_false (State.complete_cond_ne_outOverflow _) hnot,
      fun hlong => absurd hlong hnot, hstored.past⟩

/-! ### A missing code (R219) -/

/-- Packing stops at the first byte with no code, where the digits before it have a place (R219). -/
theorem Machine.Packer.pack_missing {cap : Nat} {code : Vector (Option Code) 256} {before : List Byte} {b : Byte}
    (hcode : ∀ x ∈ before, code[(symIndex x).val] ≠ none) (hb : code[(symIndex b).val] = none)
    (hS : (stream code before).length < 2 ^ 32) (hfit : (stream code before).length / 8 ≤ cap) (after : List Byte)
    (out₀ : Memory) : Packer.pack cap code (before ++ b :: after) out₀ = .error (.stuck .codeMissing) := by
  have hloop := Packing.emitAll_missing code before after b hb (Packing.start cap out₀) hcode
    (by simpa using hS) (by simpa using hfit)
  unfold Packer.pack
  rw [hloop]

/-- Settles O37: the main loop stops at the byte with no code, and its fault is that of the phase. -/
theorem missingCodeIsAFault : Obligations.MissingCodeIsAFault := by
  unfold Obligations.MissingCodeIsAFault
  intro s before after b hinput hcode hb hS hfit
  apply exec_pPack_stuck
  rw [hinput]
  exact Packer.pack_missing hcode hb hS hfit after s.outbuf

end Sys2Proof
end

section
/-! PROOFS. An invocation left to the core ends: the phases still to run bound the steps, and the last one sets `DONE` or `FAIL`
(70_reset_and_hazards.md R273). -/

namespace Sys2Proof

open Sys2Proof.Machine

/-- The core steps that are left to an invocation in this phase, at most: `P_TREE` may end it early (60_exceptions.md R226). -/
def Machine.Phase.stepsLeft : Phase → Nat
  | .idle => 0
  | .freq => 4
  | .tree => 3
  | .code => 2
  | .pack => 1

theorem Machine.Phase.stepsLeft_le (p : Phase) : p.stepsLeft ≤ 4 := by cases p <;> decide

/-- Every move of the core goes forward (10_state.md R27). -/
theorem PhaseMoves.stepsLeft_lt {p : Phase} {t : State} (h : PhaseMoves p t) : t.phase.stepsLeft < p.stepsLeft := by
  obtain ⟨rfl, ht⟩ | ⟨rfl, ht⟩ | ⟨rfl, ht, -⟩ | ⟨rfl, ht⟩ | ⟨rfl, ht, -⟩ := h <;> rw [ht] <;> decide

/-- The end of an invocation sets `DONE` or `FAIL`. -/
theorem EndsAt.done_or_fail {p : Phase} {t : State} (h : EndsAt p t) : t.done = true ∨ t.fail = true := by
  obtain ⟨-, ⟨-, hdone | ⟨hfail, -⟩⟩ | ⟨-, hfail, -⟩⟩ := h
  · exact .inl hdone
  · exact .inr hfail
  · exact .inr hfail

/-- Under the relations of R23 a result is a completion or a failure, not both. -/
theorem Relations.done_iff_not_fail {t : State} (hr : Relations t) (h : t.done = true ∨ t.fail = true) :
    t.done = true ↔ t.fail = false := by
  rcases h with hdone | hfail
  · exact iff_of_true hdone (by simpa [hdone] using hr.exclusive)
  · exact iff_of_false (fun hdone => hr.exclusive ⟨hdone, hfail⟩) (by simp [hfail])

/-- A busy core with no event to come runs the operation its phase names (log 1). -/
theorem step_nil_busy {s : State} {i : Instr} (hb : s.busy = true) (hi : s.input = []) (hp : PhaseRuns s.phase i) :
    step s = exec i s := by
  have hself : ({ s with input := [] } : State) = s := by rw [← hi]
  rw [step_nil hi, step_core_busy (s := { s with input := [.core] }) hb rfl hp]
  exact congrArg (exec i) hself

/-- One core step of an undisturbed invocation: it keeps the invariant and goes forward, and when it ends the invocation it leaves
exactly one of `DONE` and `FAIL`. -/
theorem Inv.step_quiet {s : State} (h : Inv s) (hb : s.busy = true) (hi : s.input = []) :
    ∃ t, step s = .next t ∧ Inv t ∧ t.input = [] ∧ t.phase.stepsLeft < s.phase.stepsLeft ∧
      (t.busy = false → (t.done = true ↔ t.fail = false)) := by
  obtain ⟨-, -, -, -, hphase⟩ := h.relations.busy hb
  obtain ⟨i, hp⟩ := exists_phaseRuns_of_ne_idle hphase
  obtain ⟨t, e⟩ := h.exec_phase hb hp
  have ht : Inv t := h.core hb hp e
  refine ⟨t, (step_nil_busy hb hi hp).trans e, ht, (exec_phase_sameHost hp e).input.trans hi,
    (exec_phase_moves hp e).stepsLeft_lt, fun hidle => ?_⟩
  rcases exec_phase_result hp e with hsame | hend
  · exact absurd (hidle.symm.trans (hsame.busy.trans hb)) Bool.false_ne_true
  · exact ht.relations.done_iff_not_fail hend.done_or_fail

/-- An undisturbed invocation ends within the steps left to its phase. -/
theorem Inv.run_ends {s : State} (h : Inv s) (hb : s.busy = true) (hi : s.input = []) :
    ∃ n ≤ s.phase.stepsLeft, ∃ t, run n s = .next t ∧ t.busy = false ∧ (t.done = true ↔ t.fail = false) := by
  obtain ⟨t, hstep, ht, hit, hlt, hend⟩ := h.step_quiet hb hi
  cases hbt : t.busy with
  | false => exact ⟨1, by omega, t, run_succ hstep, hbt, hend hbt⟩
  | true =>
    obtain ⟨n, hn, u, hrun, hu⟩ := ht.run_ends hbt hit
    exact ⟨n + 1, by omega, u, (run_succ hstep).trans hrun, hu⟩
termination_by s.phase.stepsLeft

/-- Settles O54, by the steps left to the phase, which are at most four. -/
theorem invocationsTerminate : Obligations.InvocationsTerminate := by
  unfold Obligations.InvocationsTerminate
  intro s h hb hi
  obtain ⟨n, hn, ending⟩ := h.run_ends hb hi
  exact ⟨n, hn.trans s.phase.stepsLeft_le, ending⟩

end Sys2Proof
end
